-- ==== Sys2Proof/Word.lean ====
section
/-! DEFINITION. The word types of CORE: the widths of `spec/00_scope.md` R7 to R9 and `spec/10_state.md`. -/

namespace Sys2Proof

/-- A byte, a value of width 8 (R11). -/
abbrev Byte := BitVec 8

/-- A register of the host interface and a command word: 32 bits (R8). -/
abbrev Word := BitVec 32

/-- A block, a `Key64` and an initialization vector: 8 bytes seen as one 64-bit value (R7, R11). -/
abbrev Block := BitVec 64

/-- One half of a block inside the Feistel network (R181). -/
abbrev Half := BitVec 32

/-- One half of the 56-bit key-schedule value (R162). -/
abbrev KeyHalf := BitVec 28

/-- One round subkey: 48 bits (R34). -/
abbrev Subkey := BitVec 48

/-- A `RoundKeySchedule`: "an ordered sequence of exactly 16 subkeys, each 48 bits" (R34).
`RK[k][i]` is element `i - 1`. -/
abbrev Schedule := Vector Subkey 16

end Sys2Proof
end

