-- ==== Sys2Proof/Config.lean ====
section
/-! DEFINITION. What is fixed for one CORE while it runs (`spec/00_scope.md` R7, R8), and the one free value of
the model: the bytes of the entropy source (R17). -/

namespace Sys2Proof

/-- The parameters the spec leaves to the platform (R8). They are data, so that a statement about every state
is a statement about every value of them. -/
structure Config where
  /-- `NBUF`, the capacity in bytes of `IBUF` and of `OBUF`. -/
  nbuf : Nat
  /-- `BASE`, the bus address of offset 0. -/
  base : Nat
  deriving DecidableEq, Repr

/-- The values the spec allows: `64 <= NBUF <= 65536`; `BASE` is any address (R8). -/
abbrev Config.Valid (c : Config) : Prop := 64 ≤ c.nbuf ∧ c.nbuf ≤ 65536

/-- `KCAP = 64`, the capacity in bytes of the key-text buffer, fixed (R8). -/
abbrev Config.kcap : Nat := 64

/-- FREE VALUE. The `n`-th byte the entropy source answers when no fixed sequence stands in for it: "The engine
assumes nothing of the bytes" (R17). It has no body, so nothing can be proved of its values. Log entry 5. -/
opaque Config.randByte : Nat → Byte

end Sys2Proof
end

