-- ==== Sys2Proof/Syntax.lean ====
section
/-! DEFINITION. The commands of CORE-CMD version 1 as syntax: one constructor for each of the 25 rows of
`spec/opcode_table.json` (`spec/30_encoding.md` R108). -/

namespace Sys2Proof

/-- The `ALG` selector (R104). -/
inductive Alg where
  /-- DES, which uses slot 1 only. -/
  | des
  /-- TDES (3DES), which uses slots 1, 2 and 3 as K1, K2, K3. -/
  | tdes
  deriving DecidableEq, Repr

/-- The `MODE` selector (R105). -/
inductive ChainMode where
  | ecb
  | cbc
  deriving DecidableEq, Repr

/-- The `ENC` selector (R106). -/
inductive TextEnc where
  | hex
  | b64
  deriving DecidableEq, Repr

/-- A command. The `KS` operand of a format K command is the two bits of its field as they stand in the word: 1, 2
and 3 are slots, 0 is none (R101, R103), which `Instr.wellFormed` says. -/
inductive Instr where
  | nop
  | clrerr
  | zeroize
  | xfer
  | ivclr
  | geniv
  | loadkey (alg : Alg)
  | ksched (ks : BitVec 2)
  | desenc (ks : BitVec 2)
  | desdec (ks : BitVec 2)
  | tdesenc
  | tdesdec
  | pad
  | unpad
  | ecbenc (alg : Alg)
  | ecbdec (alg : Alg)
  | cbcenc (alg : Alg)
  | cbcdec (alg : Alg)
  | hexenc
  | hexdec
  | b64enc
  | b64dec
  | encrypt (alg : Alg) (mode : ChainMode) (enc : TextEnc)
  | decrypt (alg : Alg) (mode : ChainMode) (enc : TextEnc)
  | genkey (alg : Alg)
  deriving DecidableEq, Repr

end Sys2Proof
end

