-- ==== Sys2Proof/WellFormed.lean ====
section
/-! DEFINITION. Which command terms are commands of CORE-CMD: the one constraint the opcode table puts on an operand
is `ks != 0` (`spec/30_encoding.md` R102, R103). -/

namespace Sys2Proof

/-- The `KS` field names a slot: "1, 2 or 3; 0 is not a slot" (R101). -/
def slotField (ks : BitVec 2) : Bool := ks != 0

/-- The term is one of the 51 legal commands (R109). -/
def Instr.wellFormed (i : Instr) : Bool :=
  match i with
  | .ksched ks => slotField ks
  | .desenc ks => slotField ks
  | .desdec ks => slotField ks
  | .nop => true
  | .clrerr => true
  | .zeroize => true
  | .xfer => true
  | .ivclr => true
  | .geniv => true
  | .loadkey _ => true
  | .tdesenc => true
  | .tdesdec => true
  | .pad => true
  | .unpad => true
  | .ecbenc _ => true
  | .ecbdec _ => true
  | .cbcenc _ => true
  | .cbcdec _ => true
  | .hexenc => true
  | .hexdec => true
  | .b64enc => true
  | .b64dec => true
  | .encrypt _ _ _ => true
  | .decrypt _ _ _ => true
  | .genkey _ => true

end Sys2Proof
end

