-- ==== Sys2Proof/Decode.lean ====
section
/-! DEFINITION. Command words: the decoder, total on every 32-bit word and rejecting by name, and the encoder
(`spec/30_encoding.md` R100 to R111, R113). -/

namespace Sys2Proof

/-- Why a word is no command (R110). Each of them makes the engine raise IllegalCommand. -/
inductive DecodeError where
  /-- A bit among 31:13 is set (R107). -/
  | reservedBits
  /-- `OP` is not in the opcode map (R108). -/
  | unlistedOpcode
  /-- A selector field the row's format does not use is nonzero (R107). -/
  | unusedField
  /-- A format K command with `KS = 0` (R103). -/
  | slotZero
  deriving DecidableEq, Repr

/-- `OP`, bits 7:0 (R101). -/
def opField (w : Word) : BitVec 8 := w.extractLsb' 0 8

/-- `KS`, bits 9:8 (R101). -/
def ksField (w : Word) : BitVec 2 := w.extractLsb' 8 2

/-- `ALG`, bit 10: 0 is DES, 1 is TDES (R101, R104). -/
def algField (w : Word) : Alg := if w.getLsbD 10 then .tdes else .des

/-- `MODE`, bit 11: 0 is ECB, 1 is CBC (R101, R105). -/
def modeField (w : Word) : ChainMode := if w.getLsbD 11 then .cbc else .ecb

/-- `ENC`, bit 12: 0 is hex, 1 is base64 (R101, R106). -/
def encField (w : Word) : TextEnc := if w.getLsbD 12 then .b64 else .hex

/-- Format N: bits 12:8 are zero as well (R102). -/
def formatN (w : Word) (i : Instr) : Except DecodeError Instr :=
  if w.extractLsb' 8 5 = 0 then .ok i else .error .unusedField

/-- Format K: bits 12:10 are zero, and `KS` is not (R102). -/
def formatK (w : Word) (mk : BitVec 2 → Instr) : Except DecodeError Instr :=
  if w.extractLsb' 10 3 = 0 then
    if ksField w = 0 then .error .slotZero else .ok (mk (ksField w))
  else .error .unusedField

/-- Format A: bits 12:11 and 9:8 are zero (R102). -/
def formatA (w : Word) (mk : Alg → Instr) : Except DecodeError Instr :=
  if w.extractLsb' 11 2 = 0 ∧ ksField w = 0 then .ok (mk (algField w)) else .error .unusedField

/-- Format S: bits 9:8 are zero (R102). -/
def formatS (w : Word) (mk : Alg → ChainMode → TextEnc → Instr) : Except DecodeError Instr :=
  if ksField w = 0 then .ok (mk (algField w) (modeField w) (encField w)) else .error .unusedField

/-- The opcode map (R108) with the field rules (R102 to R107). -/
def decode (w : Word) : Except DecodeError Instr :=
  if w.extractLsb' 13 19 ≠ 0 then .error .reservedBits
  else
    match (opField w).toNat with
    | 0x00 => formatN w .nop
    | 0x01 => formatN w .clrerr
    | 0x02 => formatN w .zeroize
    | 0x03 => formatN w .xfer
    | 0x04 => formatN w .ivclr
    | 0x05 => formatN w .geniv
    | 0x10 => formatA w .loadkey
    | 0x11 => formatK w .ksched
    | 0x20 => formatK w .desenc
    | 0x21 => formatK w .desdec
    | 0x28 => formatN w .tdesenc
    | 0x29 => formatN w .tdesdec
    | 0x30 => formatN w .pad
    | 0x31 => formatN w .unpad
    | 0x40 => formatA w .ecbenc
    | 0x41 => formatA w .ecbdec
    | 0x42 => formatA w .cbcenc
    | 0x43 => formatA w .cbcdec
    | 0x50 => formatN w .hexenc
    | 0x51 => formatN w .hexdec
    | 0x52 => formatN w .b64enc
    | 0x53 => formatN w .b64dec
    | 0x60 => formatS w .encrypt
    | 0x61 => formatS w .decrypt
    | 0x62 => formatA w .genkey
    | _ => .error .unlistedOpcode

/-- The `ALG` bit of a selector (R104). -/
def Alg.bit : Alg → Bool
  | .des => false
  | .tdes => true

/-- The `MODE` bit of a selector (R105). -/
def ChainMode.bit : ChainMode → Bool
  | .ecb => false
  | .cbc => true

/-- The `ENC` bit of a selector (R106). -/
def TextEnc.bit : TextEnc → Bool
  | .hex => false
  | .b64 => true

/-- The five fields laid side by side in the order of R101, bits 31:13 zero. -/
def layFields (op : BitVec 8) (ks : BitVec 2) (alg mode enc : Bool) : Word :=
  (0 : BitVec 19) ++ BitVec.ofBool enc ++ BitVec.ofBool mode ++ BitVec.ofBool alg ++ ks ++ op

/-- The opcode of a command (R108). -/
def Instr.opcode (i : Instr) : BitVec 8 :=
  match i with
  | .nop => 0x00
  | .clrerr => 0x01
  | .zeroize => 0x02
  | .xfer => 0x03
  | .ivclr => 0x04
  | .geniv => 0x05
  | .loadkey _ => 0x10
  | .ksched _ => 0x11
  | .desenc _ => 0x20
  | .desdec _ => 0x21
  | .tdesenc => 0x28
  | .tdesdec => 0x29
  | .pad => 0x30
  | .unpad => 0x31
  | .ecbenc _ => 0x40
  | .ecbdec _ => 0x41
  | .cbcenc _ => 0x42
  | .cbcdec _ => 0x43
  | .hexenc => 0x50
  | .hexdec => 0x51
  | .b64enc => 0x52
  | .b64dec => 0x53
  | .encrypt _ _ _ => 0x60
  | .decrypt _ _ _ => 0x61
  | .genkey _ => 0x62

/-- The word of a command (R101, R102, R113); unused fields are zero. -/
def encode (i : Instr) : Word :=
  match i with
  | .ksched ks => layFields i.opcode ks false false false
  | .desenc ks => layFields i.opcode ks false false false
  | .desdec ks => layFields i.opcode ks false false false
  | .loadkey alg => layFields i.opcode 0 alg.bit false false
  | .ecbenc alg => layFields i.opcode 0 alg.bit false false
  | .ecbdec alg => layFields i.opcode 0 alg.bit false false
  | .cbcenc alg => layFields i.opcode 0 alg.bit false false
  | .cbcdec alg => layFields i.opcode 0 alg.bit false false
  | .genkey alg => layFields i.opcode 0 alg.bit false false
  | .encrypt alg mode enc => layFields i.opcode 0 alg.bit mode.bit enc.bit
  | .decrypt alg mode enc => layFields i.opcode 0 alg.bit mode.bit enc.bit
  | .nop => layFields i.opcode 0 false false false
  | .clrerr => layFields i.opcode 0 false false false
  | .zeroize => layFields i.opcode 0 false false false
  | .xfer => layFields i.opcode 0 false false false
  | .ivclr => layFields i.opcode 0 false false false
  | .geniv => layFields i.opcode 0 false false false
  | .tdesenc => layFields i.opcode 0 false false false
  | .tdesdec => layFields i.opcode 0 false false false
  | .pad => layFields i.opcode 0 false false false
  | .unpad => layFields i.opcode 0 false false false
  | .hexenc => layFields i.opcode 0 false false false
  | .hexdec => layFields i.opcode 0 false false false
  | .b64enc => layFields i.opcode 0 false false false
  | .b64dec => layFields i.opcode 0 false false false

/-- What the decoder reads from a word given as the opcode table numbers its bits: bit 0 is the least significant
of the one 32-bit word a command is (R101). -/
def decodeTableWord (nbits w : Nat) : Option Instr :=
  if w % 2 ^ nbits < 2 ^ 32 then
    match decode (BitVec.ofNat 32 (w % 2 ^ nbits)) with
    | .ok i => some i
    | .error _ => none
  else none

end Sys2Proof
end

