-- ==== Sys2Proof/Machine/State.lean ====
section
/-! DEFINITION. The state of CORE (`spec/10_state.md` R30: "the complete architectural state"), its parameters, the
host's remaining actions and the bus's answer, and the state after reset (R48). -/

namespace Sys2Proof.Machine

/-- A key slot `k` in {1, 2, 3} (`spec/30_encoding.md` R103). -/
inductive Slot where
  | k1
  | k2
  | k3
  deriving DecidableEq, Repr

/-- One thing for each of the three slots: `KEY[1..3]`, `KV[1..3]`, `RK[1..3]`, `RKV[1..3]`. -/
structure Slots (α : Type) where
  k1 : α
  k2 : α
  k3 : α
  deriving DecidableEq, Repr

/-- The contents of a byte buffer: (index, byte) pairs, indexes strictly rising, no byte equal to what an unlisted
index reads as, which is zero (R48: the buffers are zero after reset). -/
abbrev Memory := List Host.Cell

/-- The seven error kinds (`spec/60_exceptions.md` R300). -/
inductive ErrorKind where
  /-- 1: the key text is not 16 or 48 characters long (R301). -/
  | keyLength
  /-- 2: the input is not one block, or not a positive number of whole blocks, or CBC has no IV (R302). -/
  | format
  /-- 3: a bad pad (R303). -/
  | padding
  /-- 4: a bad hexadecimal or base64 text (R304). -/
  | encoding
  /-- 5: the output would be longer than `NBUF` (R307). -/
  | capacity
  /-- 6: the word written to `CMD` is no command (R307). -/
  | illegalCommand
  /-- 7: a key or schedule the command needs is not valid (R307). -/
  | sequence
  deriving DecidableEq, Repr

/-- The width of a bus access (`spec/20_memory.md` R75). -/
inductive BusWidth where
  | b8
  | b16
  | b32
  | b64
  deriving DecidableEq, Repr

/-- What the outside world can do to CORE: a bus access at an address (`spec/20_memory.md` R74 to R79) or a reset
(`spec/70_reset_and_hazards.md` R340). A write carries its value in the low bits of 64. Log entries 1, 8. -/
inductive HostAction where
  | read (addr : Nat) (width : BusWidth)
  | write (addr : Nat) (width : BusWidth) (value : BitVec 64)
  | reset
  deriving DecidableEq, Repr

/-- What the bus answered to the host's last access. A refused access has no data (`spec/20_memory.md` R79).
Log entry 6. -/
inductive BusReply where
  /-- No access since reset. -/
  | idle
  /-- A write completed. -/
  | ack
  /-- A register read returned this word. -/
  | word (v : Word)
  /-- A buffer read returned this byte. -/
  | byte (v : Byte)
  /-- The access was refused: the bus's error response. -/
  | error
  deriving DecidableEq, Repr

/-- The machine. The first fourteen fields are the architectural state of R30; `cfg` holds the parameters of R8;
the last four are the model's own. -/
structure State where
  /-- `KEY[1..3]` (R31). -/
  key : Slots Block
  /-- `KV[1..3]` (R31). -/
  kv : Slots Bool
  /-- `RK[1..3][1..16]` (R34). -/
  rk : Slots Schedule
  /-- `RKV[1..3]` (R34). -/
  rkv : Slots Bool
  /-- `IV` (R32). -/
  iv : Block
  /-- `IVV` (R32). -/
  ivv : Bool
  /-- `KBUF[0..63]` (R35). -/
  kbuf : Memory
  /-- `KLEN` (R35). -/
  klen : Nat
  /-- `IBUF[0..NBUF-1]` (R36). -/
  ibuf : Memory
  /-- `ILEN` (R36). -/
  ilen : Nat
  /-- `OBUF[0..OLEN-1]` (R37). -/
  obuf : Memory
  /-- `OLEN` (R37). -/
  olen : Nat
  /-- `ERR`: none, or the latched kind (R39; its code is `ErrorKind.code`). -/
  err : Option ErrorKind
  /-- `ECMD` (R44). -/
  ecmd : Word
  /-- `NBUF` and `BASE` (R8). Log entries 3, 4. -/
  cfg : Config
  /-- The bytes a fixed-sequence entropy source answers next (R17). Log entry 5. -/
  entropy : List Byte
  /-- How many bytes of `Config.randByte` were drawn (R17). Log entry 5. -/
  drawn : Nat
  /-- The host's remaining actions, oldest first (R33). Log entry 1. -/
  pending : List HostAction
  /-- What the bus answered last (`spec/20_memory.md` R74 to R79). Log entry 6. -/
  reply : BusReply
  deriving DecidableEq, Repr

/-- No step stops with a fault: "There is no hang, no trap handler and no undefined result anywhere in this spec"
(`spec/00_scope.md` R6). Nobody raises one. -/
inductive Fault where
  deriving DecidableEq, Repr

/-- Why a step has no meaning. -/
inductive Refusal where
  /-- An instruction without a meaning in this model, by its mnemonic: raised by `exec` only. Safe: the machine
  stops where the hardware goes on. No arm of `exec` raises it now. -/
  | notModelled (mnemonic : String)
  deriving DecidableEq, Repr

/-- What a step answers. -/
abbrev Outcome := Host.Outcome State Fault Refusal

/-- The state after reset: "every piece of state of rule R30 is zero or empty" (R48). The parameters and the model's
own fields hold the values of log entries 1, 3, 4, 5 and 6. -/
def State.reset : State where
  key := { k1 := 0, k2 := 0, k3 := 0 }
  kv := { k1 := false, k2 := false, k3 := false }
  rk := { k1 := Vector.replicate 16 0, k2 := Vector.replicate 16 0, k3 := Vector.replicate 16 0 }
  rkv := { k1 := false, k2 := false, k3 := false }
  iv := 0
  ivv := false
  kbuf := []
  klen := 0
  ibuf := []
  ilen := 0
  obuf := []
  olen := 0
  err := none
  ecmd := 0
  cfg := { nbuf := 64, base := 0 }
  entropy := []
  drawn := 0
  pending := []
  reply := .idle

end Sys2Proof.Machine
end

