-- ==== Sys2Proof/Machine/Ops.lean ====
section
/-! DEFINITION. The named operations over buffers, slots, byte sequences, the entropy source and the error latch.
Taking an error (`State.latch`, `spec/60_exceptions.md` R305) and clearing it (`State.clearError`, R309) are here. -/

namespace Sys2Proof.Machine

/-- One byte of a buffer; an unlisted index reads as zero (R48). -/
def Memory.read : Memory → Nat → Byte
  | [], _ => 0
  | (a, v) :: rest, i => if a = i then v else Memory.read rest i

/-- Set one byte, keeping the canonical form: a zero byte is not listed. -/
def Memory.write : Memory → Nat → Byte → Memory
  | [], i, b => if b = 0 then [] else [(i, b)]
  | (a, v) :: rest, i, b =>
    if i < a then
      if b = 0 then (a, v) :: rest else (i, b) :: (a, v) :: rest
    else if a = i then
      if b = 0 then rest else (i, b) :: rest
    else (a, v) :: Memory.write rest i b

/-- The byte sequence of length `n` that starts at index `i`. -/
def Memory.load (m : Memory) (i : Nat) : Nat → List Byte
  | 0 => []
  | n + 1 => m.read i :: Memory.load m (i + 1) n

/-- Write a byte sequence from index `i` up. -/
def Memory.store (m : Memory) (i : Nat) : List Byte → Memory
  | [] => m
  | b :: rest => Memory.store (m.write i b) (i + 1) rest

/-- The buffer that holds a byte sequence from index 0 and zeros elsewhere. -/
def Memory.ofBytes (bytes : List Byte) : Memory := Memory.store [] 0 bytes

/-- The canonical form: indexes strictly rising, no zero byte listed. -/
abbrev Memory.wf (m : Memory) : Prop :=
  m.Pairwise (fun c d => c.1 < d.1) ∧ ∀ c ∈ m, c.2 ≠ 0

/-- Every listed index is below `n`. -/
abbrev Memory.below (m : Memory) (n : Nat) : Prop := ∀ c ∈ m, c.1 < n

/-- The value of slot `k`. -/
def Slots.get {α : Type} (x : Slots α) : Slot → α
  | .k1 => x.k1
  | .k2 => x.k2
  | .k3 => x.k3

/-- Replace the value of slot `k`. -/
def Slots.set {α : Type} (x : Slots α) (k : Slot) (v : α) : Slots α :=
  match k with
  | .k1 => { x with k1 := v }
  | .k2 => { x with k2 := v }
  | .k3 => { x with k3 := v }

/-- The same value in each slot. -/
def Slots.same {α : Type} (v : α) : Slots α := { k1 := v, k2 := v, k3 := v }

/-- Apply a function slot by slot. -/
def Slots.map {α β : Type} (f : α → β) (x : Slots α) : Slots β := { k1 := f x.k1, k2 := f x.k2, k3 := f x.k3 }

/-- Replace the slots `alg` uses: slot 1 for DES, all three for TDES; DES leaves slots 2 and 3 as they are
(`spec/30_encoding.md` R104, `spec/47_service.md` R261). -/
def Slots.overwrite {α : Type} (alg : Alg) (old new : Slots α) : Slots α :=
  match alg with
  | .des => { old with k1 := new.k1 }
  | .tdes => new

/-- The all-zero schedule. -/
def zeroSchedule : Schedule := Vector.replicate 16 0

/-- `be64`: the value of 8 bytes, byte 0 the most significant (`spec/00_scope.md` R11). -/
def be64 (b : List Byte) : Block := BitVec.ofNat 64 (b.foldl (fun acc x => 256 * acc + x.toNat) 0)

/-- `bytes8`, the inverse of `be64` (R11). -/
def bytes8 (v : Block) : List Byte :=
  [v.extractLsb' 56 8, v.extractLsb' 48 8, v.extractLsb' 40 8, v.extractLsb' 32 8,
   v.extractLsb' 24 8, v.extractLsb' 16 8, v.extractLsb' 8 8, v.extractLsb' 0 8]

/-- The blocks of a byte sequence: block `j` is bytes `8j .. 8j+7` (`spec/20_memory.md` R72, R82). -/
def toBlocks : List Byte → List Block
  | b0 :: b1 :: b2 :: b3 :: b4 :: b5 :: b6 :: b7 :: rest => be64 [b0, b1, b2, b3, b4, b5, b6, b7] :: toBlocks rest
  | _ => []

/-- The byte sequence of a sequence of blocks. -/
def ofBlocks (bs : List Block) : List Byte := bs.flatMap bytes8

/-- `n` bytes of the free value, from its `c`-th on. -/
def freeBytes (c : Nat) : Nat → List Byte
  | 0 => []
  | n + 1 => Config.randByte c :: freeBytes (c + 1) n

/-- `Rand(n)`: the next `n` bytes of the fixed sequence, and free bytes where it has run out (R17). -/
def State.randBytes (s : State) (n : Nat) : List Byte :=
  s.entropy.take n ++ freeBytes s.drawn (n - s.entropy.length)

/-- The bytes of `Rand(n)` are used up (R17: "consumed front first"). -/
def State.consume (s : State) (n : Nat) : State :=
  { s with entropy := s.entropy.drop n, drawn := s.drawn + (n - s.entropy.length) }

/-- `IV <- be64(Rand(8)); IVV <- 1` (`spec/48_system.md` R286, `spec/47_service.md` R262). -/
def State.drawIv (s : State) : State :=
  { s.consume 8 with iv := be64 (s.randBytes 8), ivv := true }

/-- `OBUF <- out; OLEN <- len(out)`: a data command that completes replaces the whole of `OBUF`
(`spec/10_state.md` R37). -/
def State.emit (s : State) (out : List Byte) : State :=
  { s with obuf := Memory.ofBytes out, olen := out.length }

/-- Taking an error (`spec/60_exceptions.md` R305): the first error is recorded with the whole command word and
`OBUF` becomes empty; an error that is already latched is kept and nothing changes. -/
def State.latch (s : State) (e : ErrorKind) (w : Word) : State :=
  if s.err = none then { s with err := some e, ecmd := w, obuf := [], olen := 0 } else s

/-- Clearing the latch, the counterpart of a return (`spec/60_exceptions.md` R309): it restores nothing. -/
def State.clearError (s : State) : State := { s with err := none, ecmd := 0 }

/-- Every piece of state of R30 at its reset value; the parameters, the entropy source, the host's actions and the
bus's answer are no part of it (`spec/48_system.md` R283, `spec/70_reset_and_hazards.md` R340). -/
def State.clearAll (s : State) : State :=
  { State.reset with
    cfg := s.cfg, entropy := s.entropy, drawn := s.drawn, pending := s.pending, reply := s.reply }

/-- How a command ends: completed, or with the error it raised, latched; no assignment of a failing command takes
effect (`spec/00_scope.md` R6, R16). -/
def settle (i : Instr) (s : State) (r : Except ErrorKind State) : Outcome :=
  match r with
  | .ok t => .next t
  | .error e => .next (s.latch e (encode i))

end Sys2Proof.Machine
end

