-- ==== Sys2Proof/Machine/Cipher.lean ====
section
/-! DEFINITION. The ciphers as functions: the key schedule (`spec/41_key_schedule.md` R162), DES (`spec/42_des_block.md`
R181 to R183), 3DES (`spec/43_tdes_block.md` R200) and the chaining modes (`spec/45_chaining.md` R220, R225, R227). -/

namespace Sys2Proof.Machine

/-- The subkeys of the rounds whose rotation counts are listed, from the halves `C`, `D` left by the round before: the
rotations accumulate (R162). -/
def subkeysFrom : List Nat → KeyHalf → KeyHalf → List Subkey
  | [], _, _ => []
  | n :: rest, c, d =>
    permute 48 pc2Table (rol28 c n ++ rol28 d n) :: subkeysFrom rest (rol28 c n) (rol28 d n)

theorem subkeysFrom_length (ns : List Nat) : ∀ c d, (subkeysFrom ns c d).length = ns.length := by
  induction ns with
  | nil => intro c d; rfl
  | cons n ns ih => intro c d; simp only [subkeysFrom, List.length_cons, ih]

/-- `C0`, the left half of the PC-1 output (R162). -/
def keyHalfC (key : Block) : KeyHalf := (permute 56 pc1Table key).extractLsb' 28 28

/-- `D0`, the right half of the PC-1 output (R162). -/
def keyHalfD (key : Block) : KeyHalf := (permute 56 pc1Table key).extractLsb' 0 28

/-- `KS(key) = K_1 .. K_16` (R162). -/
def keySchedule (key : Block) : Schedule :=
  Vector.mk (subkeysFrom shiftTable (keyHalfC key) (keyHalfD key)).toArray
    (by simp only [List.size_toArray, subkeysFrom_length]; rfl)

/-- Stage 1 of the round function, expansion (R185). -/
def expandHalf (r : Half) : BitVec 48 := permute 48 eTable r

/-- Stage 3, substitution: group `n` from the left goes through S-box `n`, the outputs stand leftmost first
(R182, R186). -/
def substitute (x : BitVec 48) : Half :=
  sbox 1 (x.extractLsb' 42 6) ++ sbox 2 (x.extractLsb' 36 6) ++ sbox 3 (x.extractLsb' 30 6) ++
  sbox 4 (x.extractLsb' 24 6) ++ sbox 5 (x.extractLsb' 18 6) ++ sbox 6 (x.extractLsb' 12 6) ++
  sbox 7 (x.extractLsb' 6 6) ++ sbox 8 (x.extractLsb' 0 6)

/-- The round function `f(r, k)`: expansion, key mixing, substitution, permutation (R182). -/
def feistel (r : Half) (k : Subkey) : Half := permute 32 pTable (substitute (expandHalf r ^^^ k))

/-- One round: `(L, R) <- (R, L xor f(R, k))` (R181). -/
def roundStep (lr : Half × Half) (k : Subkey) : Half × Half := (lr.2, lr.1 ^^^ feistel lr.2 k)

/-- `(L0, R0)`: the halves of the IP output, left half first (R181). -/
def splitIp (b : Block) : Half × Half :=
  ((permute 64 ipTable b).extractLsb' 32 32, (permute 64 ipTable b).extractLsb' 0 32)

/-- The swap of the halves and FP (R181). -/
def joinFp (lr : Half × Half) : Block := permute 64 fpTable (lr.2 ++ lr.1)

/-- `des_core(b, k_1, ..., k_16)`, the subkeys in the order given (R181). -/
def desCore (b : Block) (ks : List Subkey) : Block := joinFp (ks.foldl roundStep (splitIp b))

/-- `des_enc(b, rk)`: subkeys 1 to 16 (R183). -/
def desEnc (b : Block) (rk : Schedule) : Block := desCore b rk.toList

/-- `des_dec(b, rk)`: subkeys 16 to 1 (R183). -/
def desDec (b : Block) (rk : Schedule) : Block := desCore b rk.toList.reverse

/-- The round trace: the pairs `(L_i, R_i)` for `i = 0..16` (R188). -/
def roundTrace (b : Block) (ks : List Subkey) : List (Half × Half) := ks.scanl roundStep (splitIp b)

/-- `tdes_enc(b, rk1, rk2, rk3)`, EDE (R200). -/
def tdesEnc (b : Block) (rk : Slots Schedule) : Block := desEnc (desDec (desEnc b rk.k1) rk.k2) rk.k3

/-- `tdes_dec(b, rk1, rk2, rk3)`: slot 3 first, slot 1 last (R200). -/
def tdesDec (b : Block) (rk : Slots Schedule) : Block := desDec (desEnc (desDec b rk.k3) rk.k2) rk.k1

/-- `E_alg(b)` (R220). -/
def encBlock (alg : Alg) (rk : Slots Schedule) (b : Block) : Block :=
  match alg with
  | .des => desEnc b rk.k1
  | .tdes => tdesEnc b rk

/-- `D_alg(b)` (R220). -/
def decBlock (alg : Alg) (rk : Slots Schedule) (b : Block) : Block :=
  match alg with
  | .des => desDec b rk.k1
  | .tdes => tdesDec b rk

/-- `cbc_enc`: each block is xored with the ciphertext block before it, the first with the IV (R225). -/
def cbcEnc (enc : Block → Block) : Block → List Block → List Block
  | _, [] => []
  | cv, b :: rest => enc (b ^^^ cv) :: cbcEnc enc (enc (b ^^^ cv)) rest

/-- `cbc_dec`: each decrypted block is xored with the ciphertext block before it, the first with the IV (R227). -/
def cbcDec (dec : Block → Block) : Block → List Block → List Block
  | _, [] => []
  | cv, b :: rest => (dec b ^^^ cv) :: cbcDec dec b rest

/-- `chain_enc(alg, mode, m, rk, iv)` (`spec/47_service.md` R261). -/
def chainEnc (alg : Alg) (mode : ChainMode) (m : List Byte) (rk : Slots Schedule) (iv : Block) : List Byte :=
  match mode with
  | .ecb => ofBlocks ((toBlocks m).map (encBlock alg rk))
  | .cbc => ofBlocks (cbcEnc (encBlock alg rk) iv (toBlocks m))

/-- `chain_dec(alg, mode, c, rk, iv)` (`spec/47_service.md` R261). -/
def chainDec (alg : Alg) (mode : ChainMode) (c : List Byte) (rk : Slots Schedule) (iv : Block) : List Byte :=
  match mode with
  | .ecb => ofBlocks ((toBlocks c).map (decBlock alg rk))
  | .cbc => ofBlocks (cbcDec (decBlock alg rk) iv (toBlocks c))

end Sys2Proof.Machine
end

