-- ==== Sys2Proof/Machine/Text.lean ====
section
/-! DEFINITION. The texts and pads as functions on byte sequences: hexadecimal and base64 (`spec/46_codec.md` R241,
R243, R245, R246, R248), PKCS#7 (`spec/44_padding.md` R210, R212). Text is one ASCII byte a character
(`spec/00_scope.md` R12). -/

namespace Sys2Proof.Machine

/-- `hexdigit(v)`, lower case (R241). -/
def hexDigit (v : Nat) : Byte := if v ≤ 9 then BitVec.ofNat 8 (0x30 + v) else BitVec.ofNat 8 (0x61 + v - 10)

/-- `hexenc(m)`: the character of the high nibble first (R241). -/
def hexEnc (m : List Byte) : List Byte := m.flatMap (fun b => [hexDigit (b.toNat / 16), hexDigit (b.toNat % 16)])

/-- `hexval(c)`, defined on the digits and on both cases of the letters (R243). -/
def hexVal (c : Byte) : Option Nat :=
  if 0x30 ≤ c.toNat ∧ c.toNat ≤ 0x39 then some (c.toNat - 0x30)
  else if 0x61 ≤ c.toNat ∧ c.toNat ≤ 0x66 then some (c.toNat - 0x61 + 10)
  else if 0x41 ≤ c.toNat ∧ c.toNat ≤ 0x46 then some (c.toNat - 0x41 + 10)
  else none

/-- `hexdec(t)`: none on an odd length or a character that is no hex digit (R243). -/
def hexDec : List Byte → Option (List Byte)
  | [] => some []
  | [_] => none
  | a :: b :: rest =>
    match hexVal a, hexVal b, hexDec rest with
    | some x, some y, some m => some (BitVec.ofNat 8 (x * 16 + y) :: m)
    | _, _, _ => none

/-- The pad character `=` (R245). -/
def padChar : Byte := 0x3D

/-- `b64char(v)`, the alphabet (R245). -/
def b64Char (v : Nat) : Byte :=
  if v ≤ 25 then BitVec.ofNat 8 (0x41 + v)
  else if v ≤ 51 then BitVec.ofNat 8 (0x61 + (v - 26))
  else if v ≤ 61 then BitVec.ofNat 8 (0x30 + (v - 52))
  else if v = 62 then 0x2B
  else 0x2F

/-- `b64val(c)`, undefined outside the alphabet (R245). -/
def b64Val (c : Byte) : Option Nat :=
  if 0x41 ≤ c.toNat ∧ c.toNat ≤ 0x5A then some (c.toNat - 0x41)
  else if 0x61 ≤ c.toNat ∧ c.toNat ≤ 0x7A then some (c.toNat - 0x61 + 26)
  else if 0x30 ≤ c.toNat ∧ c.toNat ≤ 0x39 then some (c.toNat - 0x30 + 52)
  else if c = 0x2B then some 62
  else if c = 0x2F then some 63
  else none

/-- `b64enc(m)`: three bytes give four characters, most significant six bits first; a last group of one or two bytes is
extended with zero bits and padded (R246). -/
def b64Enc : List Byte → List Byte
  | [] => []
  | [a] =>
    let v := a.toNat * 16
    [b64Char (v / 64), b64Char (v % 64), padChar, padChar]
  | [a, b] =>
    let v := (a.toNat * 256 + b.toNat) * 4
    [b64Char (v / 4096), b64Char (v / 64 % 64), b64Char (v % 64), padChar]
  | a :: b :: c :: rest =>
    let v := (a.toNat * 256 + b.toNat) * 256 + c.toNat
    b64Char (v / 262144) :: b64Char (v / 4096 % 64) :: b64Char (v / 64 % 64) :: b64Char (v % 64) :: b64Enc rest

/-- The three bytes of a group of four 6-bit values (R248). -/
def groupBytes (a b c d : Nat) : List Byte :=
  let v := ((a * 64 + b) * 64 + c) * 64 + d
  [BitVec.ofNat 8 (v / 65536), BitVec.ofNat 8 (v / 256), BitVec.ofNat 8 v]

/-- A full group: all four characters are of the alphabet (R248). -/
def fullGroup (a b c d : Byte) : Option (List Byte) :=
  match b64Val a, b64Val b, b64Val c, b64Val d with
  | some w, some x, some y, some z => some (groupBytes w x y z)
  | _, _, _, _ => none

/-- The last group: `p` pad characters, 0, 1 or 2, at its end; `3 - p` bytes, the low bits they do not use ignored
(R248). -/
def lastGroup (a b c d : Byte) : Option (List Byte) :=
  if d = padChar then
    if c = padChar then
      match b64Val a, b64Val b with
      | some w, some x => some ((groupBytes w x 0 0).take 1)
      | _, _ => none
    else
      match b64Val a, b64Val b, b64Val c with
      | some w, some x, some y => some ((groupBytes w x y 0).take 2)
      | _, _, _ => none
  else fullGroup a b c d

/-- `b64dec(t)`: none on a length that is no multiple of 4 or on a bad character (R248). -/
def b64Dec : List Byte → Option (List Byte)
  | [] => some []
  | [a, b, c, d] => lastGroup a b c d
  | a :: b :: c :: d :: rest =>
    match fullGroup a b c d, b64Dec rest with
    | some g, some m => some (g ++ m)
    | _, _ => none
  | _ => none

/-- The ciphertext text of `ENC` (`spec/47_service.md` R262). -/
def encodeText (enc : TextEnc) (m : List Byte) : List Byte :=
  match enc with
  | .hex => hexEnc m
  | .b64 => b64Enc m

/-- The bytes of a ciphertext text (`spec/47_service.md` R265). -/
def decodeText (enc : TextEnc) (t : List Byte) : Option (List Byte) :=
  match enc with
  | .hex => hexDec t
  | .b64 => b64Dec t

/-- The length of the text of `n` bytes: `2 * n`, or `4 * ceil(n / 3)` (R242, R247). -/
def textLength (enc : TextEnc) (n : Nat) : Nat :=
  match enc with
  | .hex => 2 * n
  | .b64 => 4 * ((n + 2) / 3)

/-- The pad length for `n` bytes: in 1 to 8, never 0 (R210). -/
def padLength (n : Nat) : Nat := 8 - n % 8

/-- `pad(m)` (R210). -/
def pad (m : List Byte) : List Byte :=
  m ++ List.replicate (padLength m.length) (BitVec.ofNat 8 (padLength m.length))

/-- `unpad(m)`: none on the four conditions of R212. -/
def unpad (m : List Byte) : Option (List Byte) :=
  match m.getLast? with
  | none => none
  | some b =>
    if b.toNat = 0 ∨ 8 < b.toNat then none
    else if m.length < b.toNat then none
    else if (m.drop (m.length - b.toNat)).all (fun x => x == b) then some (m.take (m.length - b.toNat))
    else none

end Sys2Proof.Machine
end

