-- ==== Sys2Proof/Machine/Operands.lean ====
section
/-! DEFINITION. Every operand form of CORE-CMD: the slot of a `KS` field, the byte sequences a command reads, the key
text (`parsekey`, `spec/41_key_schedule.md` R166), and the two checks `need_sched` and `need_blocks`
(`spec/45_chaining.md` R221, R222). -/

namespace Sys2Proof.Machine

/-- The slot a `KS` field names; 0 names none (`spec/30_encoding.md` R103). -/
def slotOf (ks : BitVec 2) : Option Slot :=
  if ks = 1 then some .k1 else if ks = 2 then some .k2 else if ks = 3 then some .k3 else none

/-- `IBUF[0 .. ILEN-1]`, the operand of a data command (`spec/20_memory.md` R82). -/
def State.input (s : State) : List Byte := s.ibuf.load 0 s.ilen

/-- `KBUF[0 .. KLEN-1]`, the key text (`spec/10_state.md` R35). -/
def State.keyText (s : State) : List Byte := s.kbuf.load 0 s.klen

/-- `OBUF[0 .. OLEN-1]`, the result (`spec/10_state.md` R37). -/
def State.output (s : State) : List Byte := s.obuf.load 0 s.olen

/-- The one block of a block command (`spec/42_des_block.md` R189). -/
def State.inputBlock (s : State) : Block := be64 s.input

/-- The length a key text must have: 16 or 48 characters (R166). -/
def keyTextLength (alg : Alg) : Nat :=
  match alg with
  | .des => 16
  | .tdes => 48

/-- The keys in the bytes of a key text: one for DES, three in order for TDES (R166). Slots `alg` does not use hold
zero here, and nothing reads them. -/
def splitKeys (alg : Alg) (kb : List Byte) : Slots Block :=
  match alg with
  | .des => { k1 := be64 (kb.take 8), k2 := 0, k3 := 0 }
  | .tdes => { k1 := be64 (kb.take 8), k2 := be64 ((kb.drop 8).take 8), k3 := be64 ((kb.drop 16).take 8) }

/-- `parsekey(alg)`: the length first, then the characters (R166). -/
def State.parseKey (s : State) (alg : Alg) : Except ErrorKind (Slots Block) :=
  if s.klen ≠ keyTextLength alg then .error .keyLength
  else
    match hexDec s.keyText with
    | none => .error .encoding
    | some kb => .ok (splitKeys alg kb)

/-- `need_sched(alg)` passes: slot 1 for DES, all three for TDES (R221). -/
def State.schedulesValid (s : State) (alg : Alg) : Bool :=
  match alg with
  | .des => s.rkv.k1
  | .tdes => s.rkv.k1 && s.rkv.k2 && s.rkv.k3

/-- `need_blocks()` passes for a length: a whole, positive number of blocks (R222). -/
def wholeBlocks (n : Nat) : Bool := n != 0 && n % 8 == 0

end Sys2Proof.Machine
end

