-- ==== Sys2Proof/Machine/Flags.lean ====
section
/-! DEFINITION. The flags of CORE, the seven valid bits and the error code, their places in `STATUS`
(`spec/10_state.md` R39, R45) and the updates that set and clear them together with the registers they speak of. -/

namespace Sys2Proof.Machine

/-- The code of an error kind (`spec/60_exceptions.md` R300). -/
def ErrorKind.code : ErrorKind → BitVec 4
  | .keyLength => 1
  | .format => 2
  | .padding => 3
  | .encoding => 4
  | .capacity => 5
  | .illegalCommand => 6
  | .sequence => 7

/-- `ERR`: 0 when no error is latched (R300). -/
def errField (e : Option ErrorKind) : BitVec 4 :=
  match e with
  | none => 0
  | some k => k.code

/-- `STATUS` (R39). -/
def State.statusWord (s : State) : Word :=
  (0 : BitVec 21) ++ BitVec.ofBool s.rkv.k3 ++ BitVec.ofBool s.rkv.k2 ++ BitVec.ofBool s.rkv.k1 ++
  BitVec.ofBool s.kv.k3 ++ BitVec.ofBool s.kv.k2 ++ BitVec.ofBool s.kv.k1 ++ BitVec.ofBool s.ivv ++ errField s.err

/-- Load keys without schedules: `KEY`, `KV <- 1`, `RKV <- 0`, `RK <- 0` in the slots of `alg`
(`spec/41_key_schedule.md` R161). -/
def State.loadKeys (s : State) (alg : Alg) (ks : Slots Block) : State :=
  { s with
    key := s.key.overwrite alg ks
    kv := s.kv.overwrite alg (Slots.same true)
    rk := s.rk.overwrite alg (Slots.same zeroSchedule)
    rkv := s.rkv.overwrite alg (Slots.same false) }

/-- Load keys with their schedules: `KEY`, `KV <- 1`, `RK <- KS(KEY)`, `RKV <- 1` in the slots of `alg`
(`spec/47_service.md` R262, R265). -/
def State.installKeys (s : State) (alg : Alg) (ks : Slots Block) : State :=
  { s with
    key := s.key.overwrite alg ks
    kv := s.kv.overwrite alg (Slots.same true)
    rk := s.rk.overwrite alg (ks.map keySchedule)
    rkv := s.rkv.overwrite alg (Slots.same true) }

/-- Derive the schedule of one slot: `RK[k] <- KS(KEY[k])`, `RKV[k] <- 1` (`spec/41_key_schedule.md` R164). -/
def State.deriveSchedule (s : State) (k : Slot) : State :=
  { s with rk := s.rk.set k (keySchedule (s.key.get k)), rkv := s.rkv.set k true }

/-- A host write of `IVH`: bits 63:32 of `IV`, and `IVV <- 1` (`spec/10_state.md` R43). -/
def State.writeIvHigh (s : State) (v : Word) : State :=
  { s with iv := v ++ s.iv.extractLsb' 0 32, ivv := true }

/-- A host write of `IVL`: bits 31:0 of `IV`, and `IVV <- 1` (`spec/10_state.md` R43). -/
def State.writeIvLow (s : State) (v : Word) : State :=
  { s with iv := s.iv.extractLsb' 32 32 ++ v, ivv := true }

/-- The IV becomes absent: `IV <- 0; IVV <- 0` (`spec/48_system.md` R285). -/
def State.clearIv (s : State) : State := { s with iv := 0, ivv := false }

end Sys2Proof.Machine
end

