-- ==== Sys2Proof/Machine/Chaining.lean ====
section
/-! DEFINITION. The commands of the unit ChainingMode (`spec/45_chaining.md` R223, R224, R226, R228). -/

namespace Sys2Proof.Machine

/-- A whole chaining operation on `IBUF`: `need_sched`, `need_blocks`, for CBC the IV, then the output
(R223, R226). `IV` is read, never written. -/
def chainEffect (f : Alg → ChainMode → List Byte → Slots Schedule → Block → List Byte) (alg : Alg) (mode : ChainMode)
    (s : State) : Except ErrorKind State :=
  if s.schedulesValid alg = false then .error .sequence
  else if wholeBlocks s.ilen = false then .error .format
  else if mode = .cbc ∧ s.ivv = false then .error .format
  else .ok (s.emit (f alg mode s.input s.rk s.iv))

/-- `ECBENC alg` (R223). -/
def execEcbenc (alg : Alg) (s : State) : Outcome := settle (.ecbenc alg) s (chainEffect chainEnc alg .ecb s)

/-- `ECBDEC alg` (R224). -/
def execEcbdec (alg : Alg) (s : State) : Outcome := settle (.ecbdec alg) s (chainEffect chainDec alg .ecb s)

/-- `CBCENC alg` (R226). -/
def execCbcenc (alg : Alg) (s : State) : Outcome := settle (.cbcenc alg) s (chainEffect chainEnc alg .cbc s)

/-- `CBCDEC alg` (R228). -/
def execCbcdec (alg : Alg) (s : State) : Outcome := settle (.cbcdec alg) s (chainEffect chainDec alg .cbc s)

end Sys2Proof.Machine
end

