-- ==== Sys2Proof/Machine/Codec.lean ====
section
/-! DEFINITION. The commands of the unit Codec (`spec/46_codec.md` R242, R244, R247, R249). -/

namespace Sys2Proof.Machine

/-- Bytes to text: the capacity check on the length of the text, then the text (R242, R247). -/
def encodeEffect (enc : TextEnc) (s : State) : Except ErrorKind State :=
  if s.cfg.nbuf < textLength enc s.ilen then .error .capacity else .ok (s.emit (encodeText enc s.input))

/-- Text to bytes, or EncodingError (R244, R249). -/
def decodeEffect (enc : TextEnc) (s : State) : Except ErrorKind State :=
  match decodeText enc s.input with
  | none => .error .encoding
  | some m => .ok (s.emit m)

/-- `HEXENC` (R242). -/
def execHexenc (s : State) : Outcome := settle .hexenc s (encodeEffect .hex s)

/-- `HEXDEC` (R244). -/
def execHexdec (s : State) : Outcome := settle .hexdec s (decodeEffect .hex s)

/-- `B64ENC` (R247). -/
def execB64enc (s : State) : Outcome := settle .b64enc s (encodeEffect .b64 s)

/-- `B64DEC` (R249). -/
def execB64dec (s : State) : Outcome := settle .b64dec s (decodeEffect .b64 s)

end Sys2Proof.Machine
end

