-- ==== Sys2Proof/Machine/DesBlock.lean ====
section
/-! DEFINITION. The commands of the unit DesBlockCipher (`spec/42_des_block.md` R189, R190). -/

namespace Sys2Proof.Machine

/-- One block through DES with the schedule of slot `k`: the schedule check, then the length check (R189). -/
def desBlockEffect (f : Block → Schedule → Block) (ks : BitVec 2) (s : State) : Except ErrorKind State :=
  match slotOf ks with
  | none => .error .illegalCommand
  | some k =>
    if s.rkv.get k = false then .error .sequence
    else if s.ilen ≠ 8 then .error .format
    else .ok (s.emit (bytes8 (f s.inputBlock (s.rk.get k))))

/-- `DESENC k` (R189). -/
def execDesenc (ks : BitVec 2) (s : State) : Outcome := settle (.desenc ks) s (desBlockEffect desEnc ks s)

/-- `DESDEC k`: the subkeys 16 down to 1 (R190). -/
def execDesdec (ks : BitVec 2) (s : State) : Outcome := settle (.desdec ks) s (desBlockEffect desDec ks s)

end Sys2Proof.Machine
end

