-- ==== Sys2Proof/Machine/KeySchedule.lean ====
section
/-! DEFINITION. The commands of the unit KeySchedule (`spec/41_key_schedule.md` R161, R164). -/

namespace Sys2Proof.Machine

/-- The checks and the effect of `LOADKEY alg` (R161). -/
def loadkeyEffect (alg : Alg) (s : State) : Except ErrorKind State :=
  match s.parseKey alg with
  | .error e => .error e
  | .ok ks => .ok (s.loadKeys alg ks)

/-- `LOADKEY alg` (R161). -/
def execLoadkey (alg : Alg) (s : State) : Outcome := settle (.loadkey alg) s (loadkeyEffect alg s)

/-- The checks and the effect of `KSCHED k` (R164); `KS = 0` is no command (`spec/30_encoding.md` R110). -/
def kschedEffect (ks : BitVec 2) (s : State) : Except ErrorKind State :=
  match slotOf ks with
  | none => .error .illegalCommand
  | some k => if s.kv.get k = false then .error .sequence else .ok (s.deriveSchedule k)

/-- `KSCHED k` (R164). -/
def execKsched (ks : BitVec 2) (s : State) : Outcome := settle (.ksched ks) s (kschedEffect ks s)

end Sys2Proof.Machine
end

