-- ==== Sys2Proof/Machine/Padding.lean ====
section
/-! DEFINITION. The commands of the unit Padding (`spec/44_padding.md` R211, R213). -/

namespace Sys2Proof.Machine

/-- The capacity check and the effect of `PAD` (R211). -/
def padEffect (s : State) : Except ErrorKind State :=
  if s.cfg.nbuf < s.ilen + padLength s.ilen then .error .capacity else .ok (s.emit (pad s.input))

/-- `PAD` (R211). -/
def execPad (s : State) : Outcome := settle .pad s (padEffect s)

/-- The check and the effect of `UNPAD` (R213). -/
def unpadEffect (s : State) : Except ErrorKind State :=
  match unpad s.input with
  | none => .error .padding
  | some r => .ok (s.emit r)

/-- `UNPAD` (R213). -/
def execUnpad (s : State) : Outcome := settle .unpad s (unpadEffect s)

end Sys2Proof.Machine
end

