-- ==== Sys2Proof/Machine/Service.lean ====
section
/-! DEFINITION. The commands of the façade CipherService (`spec/47_service.md` R262, R265, R268). -/

namespace Sys2Proof.Machine

/-- The IV of an encryption: drawn for CBC, left alone for ECB (R262). -/
def State.prepareIv (s : State) (mode : ChainMode) : State :=
  match mode with
  | .ecb => s
  | .cbc => s.drawIv

/-- The state of `ENCRYPT` after keys, schedules and IV are in place and before the output is (R262). -/
def State.prepareEncrypt (s : State) (alg : Alg) (mode : ChainMode) (ks : Slots Block) : State :=
  (s.installKeys alg ks).prepareIv mode

/-- The checks and the effect of `ENCRYPT alg, mode, enc` (R262). -/
def encryptEffect (alg : Alg) (mode : ChainMode) (enc : TextEnc) (s : State) : Except ErrorKind State :=
  match s.parseKey alg with
  | .error e => .error e
  | .ok ks =>
    if s.cfg.nbuf < textLength enc (s.ilen + padLength s.ilen) then .error .capacity
    else
      .ok ((s.prepareEncrypt alg mode ks).emit
        (encodeText enc (chainEnc alg mode (pad s.input) (s.prepareEncrypt alg mode ks).rk
          (s.prepareEncrypt alg mode ks).iv)))

/-- `ENCRYPT alg, mode, enc` (R262). -/
def execEncrypt (alg : Alg) (mode : ChainMode) (enc : TextEnc) (s : State) : Outcome :=
  settle (.encrypt alg mode enc) s (encryptEffect alg mode enc s)

/-- The checks and the effect of `DECRYPT alg, mode, enc`: the schedules are local until the last check, the pad, has
passed (R265). -/
def decryptEffect (alg : Alg) (mode : ChainMode) (enc : TextEnc) (s : State) : Except ErrorKind State :=
  match s.parseKey alg with
  | .error e => .error e
  | .ok ks =>
    match decodeText enc s.input with
    | none => .error .encoding
    | some c =>
      if wholeBlocks c.length = false then .error .format
      else if mode = .cbc ∧ s.ivv = false then .error .format
      else
        match unpad (chainDec alg mode c (ks.map keySchedule) s.iv) with
        | none => .error .padding
        | some r => .ok ((s.installKeys alg ks).emit r)

/-- `DECRYPT alg, mode, enc` (R265). -/
def execDecrypt (alg : Alg) (mode : ChainMode) (enc : TextEnc) (s : State) : Outcome :=
  settle (.decrypt alg mode enc) s (decryptEffect alg mode enc s)

/-- How many bytes `GENKEY alg` draws: 8 or 24 (R268). -/
def keyBytes (alg : Alg) : Nat :=
  match alg with
  | .des => 8
  | .tdes => 24

/-- `GENKEY alg`: the drawn bytes as lower-case hex text; the key is not loaded (R268). -/
def execGenkey (alg : Alg) (s : State) : Outcome :=
  .next ((s.consume (keyBytes alg)).emit (hexEnc (s.randBytes (keyBytes alg))))

end Sys2Proof.Machine
end

