-- ==== Sys2Proof/Machine/System.lean ====
section
/-! DEFINITION. The system commands (`spec/48_system.md` R280 to R286). None of them raises an error. -/

namespace Sys2Proof.Machine

/-- `NOP`: no state changes (R281). -/
def execNop (s : State) : Outcome := .next s

/-- `CLRERR`: `ERR <- 0; ECMD <- 0` (R282). -/
def execClrerr (s : State) : Outcome := .next s.clearError

/-- `ZEROIZE`: every piece of state at its reset value (R283). -/
def execZeroize (s : State) : Outcome := .next s.clearAll

/-- `XFER`: `IBUF[0..OLEN-1] <- OBUF[0..OLEN-1]; ILEN <- OLEN`, a copy (R284). -/
def execXfer (s : State) : Outcome := .next { s with ibuf := s.ibuf.store 0 s.output, ilen := s.olen }

/-- `IVCLR`: `IV <- 0; IVV <- 0` (R285). -/
def execIvclr (s : State) : Outcome := .next s.clearIv

/-- `GENIV`: `IV <- be64(Rand(8)); IVV <- 1` (R286). -/
def execGeniv (s : State) : Outcome := .next s.drawIv

end Sys2Proof.Machine
end

