-- ==== Sys2Proof/Machine/TdesBlock.lean ====
section
/-! DEFINITION. The commands of the unit TripleDesBlockCipher (`spec/43_tdes_block.md` R201, R202). -/

namespace Sys2Proof.Machine

/-- One block through 3DES: the three schedules, then the length (R201). -/
def tdesBlockEffect (f : Block → Slots Schedule → Block) (s : State) : Except ErrorKind State :=
  if s.schedulesValid .tdes = false then .error .sequence
  else if s.ilen ≠ 8 then .error .format
  else .ok (s.emit (bytes8 (f s.inputBlock s.rk)))

/-- `TDESENC` (R201). -/
def execTdesenc (s : State) : Outcome := settle .tdesenc s (tdesBlockEffect tdesEnc s)

/-- `TDESDEC` (R202). -/
def execTdesdec (s : State) : Outcome := settle .tdesdec s (tdesBlockEffect tdesDec s)

end Sys2Proof.Machine
end

