-- ==== Sys2Proof/Machine/Dispatch.lean ====
section
/-! DEFINITION. What each command does: one arm for each constructor of `Instr` (`spec/30_encoding.md` R100, step 3). -/

namespace Sys2Proof.Machine

def exec (i : Instr) (s : State) : Host.Outcome State Fault Refusal :=
  match i with
  | .nop => Sys2Proof.Machine.execNop s
  | .clrerr => Sys2Proof.Machine.execClrerr s
  | .zeroize => Sys2Proof.Machine.execZeroize s
  | .xfer => Sys2Proof.Machine.execXfer s
  | .ivclr => Sys2Proof.Machine.execIvclr s
  | .geniv => Sys2Proof.Machine.execGeniv s
  | .loadkey alg => Sys2Proof.Machine.execLoadkey alg s
  | .ksched ks => Sys2Proof.Machine.execKsched ks s
  | .desenc ks => Sys2Proof.Machine.execDesenc ks s
  | .desdec ks => Sys2Proof.Machine.execDesdec ks s
  | .tdesenc => Sys2Proof.Machine.execTdesenc s
  | .tdesdec => Sys2Proof.Machine.execTdesdec s
  | .pad => Sys2Proof.Machine.execPad s
  | .unpad => Sys2Proof.Machine.execUnpad s
  | .ecbenc alg => Sys2Proof.Machine.execEcbenc alg s
  | .ecbdec alg => Sys2Proof.Machine.execEcbdec alg s
  | .cbcenc alg => Sys2Proof.Machine.execCbcenc alg s
  | .cbcdec alg => Sys2Proof.Machine.execCbcdec alg s
  | .hexenc => Sys2Proof.Machine.execHexenc s
  | .hexdec => Sys2Proof.Machine.execHexdec s
  | .b64enc => Sys2Proof.Machine.execB64enc s
  | .b64dec => Sys2Proof.Machine.execB64dec s
  | .encrypt alg mode enc => Sys2Proof.Machine.execEncrypt alg mode enc s
  | .decrypt alg mode enc => Sys2Proof.Machine.execDecrypt alg mode enc s
  | .genkey alg => Sys2Proof.Machine.execGenkey alg s

end Sys2Proof.Machine
end

