-- ==== Sys2Proof/Machine/Command.lean ====
section
/-! DEFINITION. Processing a word written to `CMD`: gate, decode, execute (`spec/30_encoding.md` R100,
`spec/60_exceptions.md` R306). -/

namespace Sys2Proof.Machine

/-- The two opcodes that pass the gate while an error is latched: `CLRERR` and `ZEROIZE`. Only `w[7:0]` is looked at
(R306). -/
def passesGate (w : Word) : Bool := opField w == 0x01 || opField w == 0x02

/-- A word written to `CMD`: discarded by the gate, or decoded; a word that is no command raises IllegalCommand (R110);
a command is executed (R100). -/
def issueCommand (w : Word) (s : State) : Outcome :=
  if s.err ≠ none ∧ passesGate w = false then .next s
  else
    match decode w with
    | .error _ => .next (s.latch .illegalCommand w)
    | .ok i => exec i s

end Sys2Proof.Machine
end

