-- ==== Sys2Proof/Machine/Bus.lean ====
section
/-! DEFINITION. The host's bus accesses and the reset event: the address map, the registers and the buffers as the
host sees them, and refused accesses (`spec/20_memory.md` R71 to R79, `spec/10_state.md` R38 to R44). -/

namespace Sys2Proof.Machine

/-- The byte offset from `BASE` of a bus address; an address below `BASE` is not in CORE's window (R71). -/
def busOffset (c : Config) (addr : Nat) : Option Nat := if c.base ≤ addr then some (addr - c.base) else none

/-- `MemRead(off, 4)` at a register; none where there is no register (R74). -/
def State.readRegister (s : State) (off : Nat) : Option Word :=
  match off with
  | 0x00 => some 0
  | 0x04 => some s.statusWord
  | 0x08 => some ((BitVec.ofNat 17 s.ilen).setWidth 32)
  | 0x0C => some ((BitVec.ofNat 17 s.olen).setWidth 32)
  | 0x10 => some ((BitVec.ofNat 7 s.klen).setWidth 32)
  | 0x14 => some (s.iv.extractLsb' 32 32)
  | 0x18 => some (s.iv.extractLsb' 0 32)
  | 0x1C => some s.ecmd
  | _ => none

/-- `MemWrite(off, 4, v)` at a register other than `CMD`; none where the access is refused: no register, or a length
above its capacity (R76, R40, R42). Writes to `STATUS`, `OLEN` and `ECMD` are ignored. -/
def State.writeRegister (s : State) (off : Nat) (v : Word) : Option State :=
  match off with
  | 0x04 => some s
  | 0x08 => if v.toNat ≤ s.cfg.nbuf then some { s with ilen := v.toNat } else none
  | 0x0C => some s
  | 0x10 => if v.toNat ≤ Config.kcap then some { s with klen := v.toNat } else none
  | 0x14 => some (s.writeIvHigh v)
  | 0x18 => some (s.writeIvLow v)
  | 0x1C => some s
  | _ => none

/-- The offset is in `KBUF`'s region (R71). -/
abbrev inKbuf (off : Nat) : Prop := 0x40 ≤ off ∧ off < 0x40 + Config.kcap

/-- The offset is in `IBUF`'s region (R71). -/
abbrev inIbuf (c : Config) (off : Nat) : Prop := 0x10000 ≤ off ∧ off < 0x10000 + c.nbuf

/-- The offset is in `OBUF`'s region (R71). -/
abbrev inObuf (c : Config) (off : Nat) : Prop := 0x20000 ≤ off ∧ off < 0x20000 + c.nbuf

/-- `OBUF[i]` as the host reads it: `0x00` at and beyond `OLEN` (`spec/10_state.md` R37). -/
def State.outputByte (s : State) (i : Nat) : Byte := if i < s.olen then s.obuf.read i else 0

/-- `MemRead(off, 1)`: the one read of a byte of the address space; none outside the buffers (R77). -/
def State.readByte (s : State) (off : Nat) : Option Byte :=
  if inKbuf off then some (s.kbuf.read (off - 0x40))
  else if inIbuf s.cfg off then some (s.ibuf.read (off - 0x10000))
  else if inObuf s.cfg off then some (s.outputByte (off - 0x20000))
  else none

/-- `MemWrite(off, 1, v)`: one byte of `KBUF` or `IBUF`; ignored in `OBUF`; none outside the buffers (R78). -/
def State.writeByte (s : State) (off : Nat) (v : Byte) : Option State :=
  if inKbuf off then some { s with kbuf := s.kbuf.write (off - 0x40) v }
  else if inIbuf s.cfg off then some { s with ibuf := s.ibuf.write (off - 0x10000) v }
  else if inObuf s.cfg off then some s
  else none

/-- A refused access: nothing of CORE changes, the bus answers with its error response (R79). -/
def State.refuseAccess (s : State) : State := { s with reply := .error }

/-- A read at an offset: registers by 32 bits, buffers by 8 bits, everything else refused (R75). No read changes the
state of CORE (R80). -/
def busRead (off : Nat) (width : BusWidth) (s : State) : Outcome :=
  match width with
  | .b32 =>
    match s.readRegister off with
    | some v => .next { s with reply := .word v }
    | none => .next s.refuseAccess
  | .b8 =>
    match s.readByte off with
    | some v => .next { s with reply := .byte v }
    | none => .next s.refuseAccess
  | .b16 => .next s.refuseAccess
  | .b64 => .next s.refuseAccess

/-- A write at an offset: a 32-bit write at offset 0 executes a command (R76); registers by 32 bits, buffers by 8
bits, everything else refused (R75). -/
def busWrite (off : Nat) (width : BusWidth) (value : BitVec 64) (s : State) : Outcome :=
  match width with
  | .b32 =>
    if off = 0 then issueCommand (value.setWidth 32) { s with reply := .ack }
    else
      match s.writeRegister off (value.setWidth 32) with
      | some t => .next { t with reply := .ack }
      | none => .next s.refuseAccess
  | .b8 =>
    match s.writeByte off (value.setWidth 8) with
    | some t => .next { t with reply := .ack }
    | none => .next s.refuseAccess
  | .b16 => .next s.refuseAccess
  | .b64 => .next s.refuseAccess

/-- One action of the host. A reset puts every piece of architectural state at its reset value and leaves no answer on
the bus (`spec/70_reset_and_hazards.md` R340, R341). -/
def perform (a : HostAction) (s : State) : Outcome :=
  match a with
  | .read addr width =>
    match busOffset s.cfg addr with
    | some off => busRead off width s
    | none => .next s.refuseAccess
  | .write addr width value =>
    match busOffset s.cfg addr with
    | some off => busWrite off width value s
    | none => .next s.refuseAccess
  | .reset => .next { s.clearAll with reply := .idle }

end Sys2Proof.Machine
end

