-- ==== Sys2Proof/Machine/Step.lean ====
section
/-! DEFINITION. One step of the machine: the host's next action takes effect, whole, in the order the host issues them
(`spec/20_memory.md` R83; `spec/00_scope.md` R5). -/

namespace Sys2Proof.Machine

/-- One step. With no action left CORE is idle and holds its state (`spec/60_exceptions.md` R320). -/
def step (s : State) : Host.Outcome State Fault Refusal :=
  match s.pending with
  | [] => .next s
  | a :: rest => perform a { s with pending := rest }

/-- The host's next action is the 32-bit write of the command word `w` to `CMD`: there is no instruction memory, a
command exists only as the word the host writes (`spec/10_state.md` R33, R38). -/
def State.withFetchWord (s : State) (nbits w : Nat) : State :=
  { s with pending := .write s.cfg.base .b32 (BitVec.ofNat 64 (w % 2 ^ nbits % 2 ^ 32)) :: s.pending }

end Sys2Proof.Machine
end

