-- ==== Sys2Proof/Machine/Engines.lean ====
section
/-! DEFINITION. The units as the machines of micro-steps the spec describes: the key-schedule FSM
(`spec/41_key_schedule.md` R165), the round engine and its pipeline (`spec/42_des_block.md` R184 to R187), the 3DES
pass sequencer (`spec/43_tdes_block.md` R203) and the block sequencer (`spec/45_chaining.md` R229). Their registers
exist only inside a command (`spec/10_state.md` R46), so they are no part of State; the commands take each run as one
step, as R165, R184 and R203 allow. -/

namespace Sys2Proof.Machine

/-- The states of the key-schedule FSM (R165). -/
inductive KsPhase where
  | idle
  | load
  | round
  | done
  deriving DecidableEq, Repr

/-- The key-schedule unit working on one slot: `C`, `D`, the round counter, and the slot's `RK` and `RKV` (R165). -/
structure KsEngine where
  phase : KsPhase
  c : KeyHalf
  d : KeyHalf
  i : Nat
  rk : Schedule
  rkv : Bool
  deriving DecidableEq, Repr

/-- A start of the unit: KS_IDLE to KS_LOAD (R165). -/
def KsEngine.start (e : KsEngine) : KsEngine := { e with phase := .load }

/-- `SHIFT[i]` (`spec/40_bit_tables.md` R139). -/
def shiftAt (i : Nat) : Nat := shiftTable.getD (i - 1) 0

/-- One micro-step with the key of the slot (R165). -/
def KsEngine.tick (key : Block) (e : KsEngine) : KsEngine :=
  match e.phase with
  | .idle => e
  | .load => { e with c := keyHalfC key, d := keyHalfD key, i := 1, phase := .round }
  | .round =>
    { e with
      c := rol28 e.c (shiftAt e.i)
      d := rol28 e.d (shiftAt e.i)
      rk := e.rk.setIfInBounds (e.i - 1) (permute 48 pc2Table (rol28 e.c (shiftAt e.i) ++ rol28 e.d (shiftAt e.i)))
      i := if e.i = 16 then e.i else e.i + 1
      phase := if e.i = 16 then .done else .round }
  | .done => { e with rkv := true, phase := .idle }

/-- `n` micro-steps. -/
def KsEngine.run (key : Block) : Nat → KsEngine → KsEngine
  | 0, e => e
  | n + 1, e => KsEngine.run key n (e.tick key)

/-- The direction of a DES pass (R184). -/
inductive Direction where
  | encrypt
  | decrypt
  deriving DecidableEq, Repr

/-- The states of the round engine (R184). -/
inductive RoundPhase where
  | idle
  | ip
  | round
  | fp
  deriving DecidableEq, Repr

/-- The round engine: `L`, `R`, the round counter, the direction, and the output (R184). -/
structure RoundEngine where
  phase : RoundPhase
  l : Half
  r : Half
  i : Nat
  dir : Direction
  out : Block
  deriving DecidableEq, Repr

/-- A start of the engine: RE_IDLE to RE_IP (R184). -/
def RoundEngine.start (e : RoundEngine) (dir : Direction) : RoundEngine := { e with dir := dir, phase := .ip }

/-- The number `j` of the subkey of round `i`: `i` encrypting, `17 - i` decrypting (R184). -/
def subkeyIndex (dir : Direction) (i : Nat) : Nat :=
  match dir with
  | .encrypt => i
  | .decrypt => 17 - i

/-- Stage 2 of the round function, key mixing (R185). -/
def mixKey (e : BitVec 48) (k : Subkey) : BitVec 48 := e ^^^ k

/-- Stage 4, permutation and half update (R187). -/
def updateHalf (l : Half) (s : Half) : Half := l ^^^ permute 32 pTable s

/-- One micro-step on the block `b` with the schedule of the slot (R184); a round runs its four stages (R185 to R187),
`L` and `R` updated together. -/
def RoundEngine.tick (b : Block) (rk : Schedule) (e : RoundEngine) : RoundEngine :=
  match e.phase with
  | .idle => e
  | .ip => { e with l := (splitIp b).1, r := (splitIp b).2, i := 1, phase := .round }
  | .round =>
    { e with
      l := e.r
      r := updateHalf e.l (substitute (mixKey (expandHalf e.r) (rk.toList.getD (subkeyIndex e.dir e.i - 1) 0)))
      i := if e.i = 16 then e.i else e.i + 1
      phase := if e.i = 16 then .fp else .round }
  | .fp => { e with out := permute 64 fpTable (e.r ++ e.l), phase := .idle }

/-- `n` micro-steps. -/
def RoundEngine.run (b : Block) (rk : Schedule) : Nat → RoundEngine → RoundEngine
  | 0, e => e
  | n + 1, e => RoundEngine.run b rk n (e.tick b rk)

/-- The pass table of a 3DES block operation: slot and direction of each pass (R203). -/
def tdesPasses (dir : Direction) : List (Slot × Direction) :=
  match dir with
  | .encrypt => [(.k1, .encrypt), (.k2, .decrypt), (.k3, .encrypt)]
  | .decrypt => [(.k3, .decrypt), (.k2, .encrypt), (.k1, .decrypt)]

/-- One pass: a complete run of the round engine, one RE_IP, sixteen RE_ROUND and one RE_FP step (R184, R203). -/
def RoundEngine.pass (rk : Slots Schedule) (e : RoundEngine) (b : Block) (p : Slot × Direction) : Block :=
  (RoundEngine.run b (rk.get p.1) 18 (e.start p.2)).out

/-- The passes one after another, each on the output of the one before (R203). -/
def RoundEngine.passes (rk : Slots Schedule) (e : RoundEngine) (b : Block) (ps : List (Slot × Direction)) : Block :=
  ps.foldl (RoundEngine.pass rk e) b

/-- The subkeys of a pass in the order it uses them (`spec/42_des_block.md` R183). -/
def passKeys (rk : Schedule) (dir : Direction) : List Subkey :=
  match dir with
  | .encrypt => rk.toList
  | .decrypt => rk.toList.reverse

/-- The round trace of a 3DES block: one list of 17 pairs for each pass, labelled by the pass (R188, R203). -/
def tdesTrace (rk : Slots Schedule) : Block → List (Slot × Direction) → List ((Slot × Direction) × List (Half × Half))
  | _, [] => []
  | b, p :: ps =>
    (p, roundTrace b (passKeys (rk.get p.1) p.2)) :: tdesTrace rk (desCore b (passKeys (rk.get p.1) p.2)) ps

/-- The block sequencer: the block index, the chaining value `CV`, and the blocks produced (R229). -/
structure Sequencer where
  j : Nat
  cv : Block
  out : List Block
  deriving DecidableEq, Repr

/-- One block of a chaining operation with the block cipher `f`: blocks in index order (R229); in CBC the chaining
value is the ciphertext block just produced or just consumed (R225, R227). -/
def Sequencer.tick (f : Block → Block) (mode : ChainMode) (dir : Direction) (blocks : List Block) (q : Sequencer) :
    Sequencer :=
  match blocks[q.j]? with
  | none => q
  | some b =>
    match mode, dir with
    | .ecb, _ => { q with j := q.j + 1, out := q.out ++ [f b] }
    | .cbc, .encrypt => { j := q.j + 1, cv := f (b ^^^ q.cv), out := q.out ++ [f (b ^^^ q.cv)] }
    | .cbc, .decrypt => { j := q.j + 1, cv := b, out := q.out ++ [f b ^^^ q.cv] }

/-- `n` blocks. -/
def Sequencer.run (f : Block → Block) (mode : ChainMode) (dir : Direction) (blocks : List Block) :
    Nat → Sequencer → Sequencer
  | 0, q => q
  | n + 1, q => Sequencer.run f mode dir blocks n (q.tick f mode dir blocks)

end Sys2Proof.Machine
end

