-- ==== Sys2Proof/Machine/Pseudo.lean ====
section
/-! DEFINITION. The assembler notation and the host's pseudo-instructions, which are no commands: each expands to bus
accesses, and those that read have a result (`spec/30_encoding.md` R113, R114). -/

namespace Sys2Proof.Machine

/-- `MemWrite(off, 4, v)` (`spec/00_scope.md` R15). -/
def memWrite32 (c : Config) (off : Nat) (v : Word) : HostAction := .write (c.base + off) .b32 (v.setWidth 64)

/-- `MemWrite(off, 1, v)`. -/
def memWrite8 (c : Config) (off : Nat) (v : Byte) : HostAction := .write (c.base + off) .b8 (v.setWidth 64)

/-- `MemRead(off, 4)`. -/
def memRead32 (c : Config) (off : Nat) : HostAction := .read (c.base + off) .b32

/-- `MemRead(off, 1)`. -/
def memRead8 (c : Config) (off : Nat) : HostAction := .read (c.base + off) .b8

/-- Byte writes to ascending offsets. -/
def writeBytes (c : Config) (off : Nat) : List Byte → List HostAction
  | [] => []
  | b :: rest => memWrite8 c off b :: writeBytes c (off + 1) rest

/-- Byte reads from ascending offsets. -/
def readBytes (c : Config) (off : Nat) : Nat → List HostAction
  | 0 => []
  | n + 1 => memRead8 c off :: readBytes c (off + 1) n

/-- The bytes of a quoted string (R114). That a string with a character outside ASCII has none is log entry 16
(DESIGN CHOICE). -/
def asciiBytes (text : String) : Option (List Byte) :=
  if text.toList.all (fun ch => ch.toNat < 128) then some (text.toList.map fun ch => BitVec.ofNat 8 ch.toNat) else none

/-- `CMD w`, for any word, legal or not (R114). -/
def pseudoCmd (c : Config) (w : Word) : List HostAction := [memWrite32 c 0x00 w]

/-- What a mnemonic with its operands expands to: `CMD` of the command's word (R114). -/
def pseudoMnemonic (c : Config) (i : Instr) : List HostAction := pseudoCmd c (encode i)

/-- `LDK "text"` (R114), which the rule gives for at most 64 bytes. A longer operand is expanded in the same way: log
entry 16 (DESIGN CHOICE). -/
def pseudoLdk (c : Config) (text : List Byte) : List HostAction :=
  writeBytes c 0x40 text ++ [memWrite32 c 0x10 (BitVec.ofNat 32 text.length)]

/-- `LDI bytes` (R114), which the rule gives for at most `NBUF` bytes. A longer operand is expanded in the same way: log
entry 16 (DESIGN CHOICE). -/
def pseudoLdi (c : Config) (bytes : List Byte) : List HostAction :=
  writeBytes c 0x10000 bytes ++ [memWrite32 c 0x08 (BitVec.ofNat 32 bytes.length)]

/-- `LDK` with a quoted string: the ASCII bytes of the text (R114). -/
def pseudoLdkText (c : Config) (text : String) : Option (List HostAction) := (asciiBytes text).map (pseudoLdk c)

/-- `LDI` with a quoted string: its ASCII bytes (R114). -/
def pseudoLdiText (c : Config) (text : String) : Option (List HostAction) := (asciiBytes text).map (pseudoLdi c)

/-- `LDI hex:0123...`: the bytes the hexadecimal digits spell (R114). That digits which spell no bytes have no expansion is
log entry 16 (DESIGN CHOICE). -/
def pseudoLdiHex (c : Config) (digits : String) : Option (List HostAction) :=
  ((asciiBytes digits).bind hexDec).map (pseudoLdi c)

/-- `LDIV v` (R114). -/
def pseudoLdiv (c : Config) (v : Block) : List HostAction :=
  [memWrite32 c 0x14 (v.extractLsb' 32 32), memWrite32 c 0x18 (v.extractLsb' 0 32)]

/-- The first access of `RDO`, the read of `OLEN` (R114). -/
def pseudoRdoLength (c : Config) : List HostAction := [memRead32 c 0x0C]

/-- The other accesses of `RDO` once the read of `OLEN` has answered `n` (R114). -/
def pseudoRdoBytes (c : Config) (n : Nat) : List HostAction := readBytes c 0x20000 n

/-- `RDIV` (R114). -/
def pseudoRdiv (c : Config) : List HostAction := [memRead32 c 0x14, memRead32 c 0x18]

/-- `RDS` (R114). -/
def pseudoRds (c : Config) : List HostAction := [memRead32 c 0x04]

/-- `RDE` (R114). -/
def pseudoRde (c : Config) : List HostAction := [memRead32 c 0x1C]

/-- Several host actions one after another. -/
def performAll : List HostAction → State → Outcome
  | [], s => .next s
  | a :: rest, s =>
    match perform a s with
    | .next t => performAll rest t
    | .fault r => .fault r
    | .refused r => .refused r

/-- Several host actions one after another, with the bus's answer to each: the answers in order and the state after. -/
def collect : List HostAction → State → Option (List BusReply × State)
  | [], s => some ([], s)
  | a :: rest, s =>
    match perform a s with
    | .next t => (collect rest t).map fun p => (t.reply :: p.1, p.2)
    | .fault _ => none
    | .refused _ => none

/-- The word a register read returned. -/
def BusReply.word? (r : BusReply) : Option Word :=
  match r with
  | .word v => some v
  | .idle => none
  | .ack => none
  | .byte _ => none
  | .error => none

/-- The byte a buffer read returned. -/
def BusReply.byte? (r : BusReply) : Option Byte :=
  match r with
  | .byte v => some v
  | .idle => none
  | .ack => none
  | .word _ => none
  | .error => none

/-- The bytes several buffer reads returned, in order. -/
def bytesOf : List BusReply → Option (List Byte)
  | [] => some []
  | r :: rest => r.byte?.bind fun b => (bytesOf rest).map (b :: ·)

/-- The result of a pseudo-instruction that reads one register. -/
def oneWord (actions : List HostAction) (s : State) : Option (Word × State) :=
  match collect actions s with
  | some ([r], t) => r.word?.map fun v => (v, t)
  | _ => none

/-- `RDO` with its result: `OLEN` is read, then as many bytes of `OBUF` (R114). -/
def runRdo (s : State) : Option (List Byte × State) :=
  (oneWord (pseudoRdoLength s.cfg) s).bind fun p =>
    (collect (pseudoRdoBytes s.cfg p.1.toNat) p.2).bind fun q => (bytesOf q.1).map fun bytes => (bytes, q.2)

/-- `RDIV` with its result, `IVH || IVL` (R114). -/
def runRdiv (s : State) : Option (Block × State) :=
  match collect (pseudoRdiv s.cfg) s with
  | some ([high, low], t) => high.word?.bind fun h => low.word?.map fun l => (h ++ l, t)
  | _ => none

/-- `RDS` with its result (R114). -/
def runRds (s : State) : Option (Word × State) := oneWord (pseudoRds s.cfg) s

/-- `RDE` with its result (R114). -/
def runRde (s : State) : Option (Word × State) := oneWord (pseudoRde s.cfg) s

/-- `alg` as the notation writes it (R113). -/
def Alg.notationName : Alg → String
  | .des => "DES"
  | .tdes => "TDES"

/-- `mode` as the notation writes it (R113). -/
def ChainMode.notationName : ChainMode → String
  | .ecb => "ECB"
  | .cbc => "CBC"

/-- `enc` as the notation writes it (R113). -/
def TextEnc.notationName : TextEnc → String
  | .hex => "HEX"
  | .b64 => "B64"

/-- The slot operand as the notation writes it: `1`, `2` or `3` (R113). -/
def slotName (ks : BitVec 2) : String := toString ks.toNat

/-- A command as the notation writes it: its mnemonic in capitals, then its operands separated by commas (R113). -/
def assembly (i : Instr) : String :=
  match i with
  | .nop => "NOP"
  | .clrerr => "CLRERR"
  | .zeroize => "ZEROIZE"
  | .xfer => "XFER"
  | .ivclr => "IVCLR"
  | .geniv => "GENIV"
  | .loadkey alg => "LOADKEY " ++ Alg.notationName alg
  | .ksched ks => "KSCHED " ++ slotName ks
  | .desenc ks => "DESENC " ++ slotName ks
  | .desdec ks => "DESDEC " ++ slotName ks
  | .tdesenc => "TDESENC"
  | .tdesdec => "TDESDEC"
  | .pad => "PAD"
  | .unpad => "UNPAD"
  | .ecbenc alg => "ECBENC " ++ Alg.notationName alg
  | .ecbdec alg => "ECBDEC " ++ Alg.notationName alg
  | .cbcenc alg => "CBCENC " ++ Alg.notationName alg
  | .cbcdec alg => "CBCDEC " ++ Alg.notationName alg
  | .hexenc => "HEXENC"
  | .hexdec => "HEXDEC"
  | .b64enc => "B64ENC"
  | .b64dec => "B64DEC"
  | .encrypt alg mode enc =>
    "ENCRYPT " ++ Alg.notationName alg ++ ", " ++ ChainMode.notationName mode ++ ", " ++ TextEnc.notationName enc
  | .decrypt alg mode enc =>
    "DECRYPT " ++ Alg.notationName alg ++ ", " ++ ChainMode.notationName mode ++ ", " ++ TextEnc.notationName enc
  | .genkey alg => "GENKEY " ++ Alg.notationName alg

end Sys2Proof.Machine
end

