-- ==== Sys2Proof/Safety.lean ====
section
/-! DEFINITION. The terms claims about CORE use: the invariant of `spec/10_state.md` R49, reachable states, which bus
accesses are accepted, the legal words, what a command may raise, and runs of several commands. -/

namespace Sys2Proof.Machine

/-- The invariants of R49, with what the model's data adds to them: buffers in canonical form that list nothing beyond
their capacity, and `OBUF` nothing beyond `OLEN`. (f) of R49 is the type of `err`. -/
structure Inv (s : State) : Prop where
  /-- `64 <= NBUF <= 65536` (`spec/00_scope.md` R8). -/
  cfg_valid : s.cfg.Valid
  kbuf_wf : s.kbuf.wf
  ibuf_wf : s.ibuf.wf
  obuf_wf : s.obuf.wf
  kbuf_below : s.kbuf.below Config.kcap
  ibuf_below : s.ibuf.below s.cfg.nbuf
  obuf_below : s.obuf.below s.olen
  /-- (a) -/
  ilen_le : s.ilen ≤ s.cfg.nbuf
  olen_le : s.olen ≤ s.cfg.nbuf
  klen_le : s.klen ≤ Config.kcap
  /-- (b) -/
  schedule_of_key : ∀ k, s.rkv.get k = true → s.kv.get k = true ∧ s.rk.get k = keySchedule (s.key.get k)
  /-- (c) -/
  key_zero : ∀ k, s.kv.get k = false → s.key.get k = 0
  schedule_zero : ∀ k, s.rkv.get k = false → s.rk.get k = zeroSchedule
  iv_zero : s.ivv = false → s.iv = 0
  /-- (d) -/
  err_iff_ecmd : s.err = none ↔ s.ecmd = 0
  /-- (e) -/
  err_olen : s.err ≠ none → s.olen = 0

/-- The machine right after reset with parameters `c`, an entropy source that answers the bytes `entropy` first, and a
host that will perform `actions`. -/
def State.initial (c : Config) (entropy : List Byte) (actions : List HostAction) : State :=
  { State.reset with cfg := c, entropy := entropy, pending := actions }

/-- The states a run can reach: from reset, with any parameters the spec allows, any entropy and any host. -/
inductive Reachable : State → Prop where
  | initial (c : Config) (entropy : List Byte) (actions : List HostAction) (h : c.Valid) :
      Reachable (State.initial c entropy actions)
  | step (s t : State) (hs : Reachable s) (h : step s = .next t) : Reachable t

/-- The offset of a register: a multiple of 4 in 0x00 to 0x1C (`spec/20_memory.md` R71, R75). -/
abbrev registerOffset (off : Nat) : Prop := off % 4 = 0 ∧ off ≤ 0x1C

/-- The offset of a byte of a buffer (`spec/20_memory.md` R71). -/
abbrev bufferOffset (c : Config) (off : Nat) : Prop := inKbuf off ∨ inIbuf c off ∨ inObuf c off

/-- The access at byte offset `off` with this width is one the address map defines (`spec/20_memory.md` R71, R75). -/
abbrev mappedAccess (c : Config) (off : Nat) (width : BusWidth) : Prop :=
  (width = .b32 ∧ registerOffset off) ∨ (width = .b8 ∧ bufferOffset c off)

/-- A host action is refused: an access the map does not define, or a write of a length above its capacity
(`spec/20_memory.md` R79, `spec/10_state.md` R40, R42). -/
abbrev refusedAction (c : Config) (a : HostAction) : Prop :=
  match a with
  | .read addr width => ¬ (c.base ≤ addr ∧ mappedAccess c (addr - c.base) width)
  | .write addr width value =>
    ¬ (c.base ≤ addr ∧ mappedAccess c (addr - c.base) width) ∨
    (width = .b32 ∧ addr = c.base + 0x08 ∧ c.nbuf < (value.setWidth 32).toNat) ∨
    (width = .b32 ∧ addr = c.base + 0x10 ∧ Config.kcap < (value.setWidth 32).toNat)
  | .reset => False

/-- The legal words of format N with their commands (`spec/30_encoding.md` R108). -/
def legalN : List (Word × Instr) :=
  [(0x00000000, .nop), (0x00000001, .clrerr), (0x00000002, .zeroize), (0x00000003, .xfer), (0x00000004, .ivclr),
   (0x00000005, .geniv), (0x00000028, .tdesenc), (0x00000029, .tdesdec), (0x00000030, .pad), (0x00000031, .unpad),
   (0x00000050, .hexenc), (0x00000051, .hexdec), (0x00000052, .b64enc), (0x00000053, .b64dec)]

/-- The legal words of format K (`spec/30_encoding.md` R109). -/
def legalK : List (Word × Instr) :=
  [(0x00000111, .ksched 1), (0x00000211, .ksched 2), (0x00000311, .ksched 3),
   (0x00000120, .desenc 1), (0x00000220, .desenc 2), (0x00000320, .desenc 3),
   (0x00000121, .desdec 1), (0x00000221, .desdec 2), (0x00000321, .desdec 3)]

/-- The legal words of format A (R109). -/
def legalA : List (Word × Instr) :=
  [(0x00000010, .loadkey .des), (0x00000410, .loadkey .tdes), (0x00000040, .ecbenc .des), (0x00000440, .ecbenc .tdes),
   (0x00000041, .ecbdec .des), (0x00000441, .ecbdec .tdes), (0x00000042, .cbcenc .des), (0x00000442, .cbcenc .tdes),
   (0x00000043, .cbcdec .des), (0x00000443, .cbcdec .tdes), (0x00000062, .genkey .des), (0x00000462, .genkey .tdes)]

/-- The legal words of format S (R109). -/
def legalS : List (Word × Instr) :=
  [(0x00000060, .encrypt .des .ecb .hex), (0x00000460, .encrypt .tdes .ecb .hex),
   (0x00000860, .encrypt .des .cbc .hex), (0x00000C60, .encrypt .tdes .cbc .hex),
   (0x00001060, .encrypt .des .ecb .b64), (0x00001460, .encrypt .tdes .ecb .b64),
   (0x00001860, .encrypt .des .cbc .b64), (0x00001C60, .encrypt .tdes .cbc .b64),
   (0x00000061, .decrypt .des .ecb .hex), (0x00000461, .decrypt .tdes .ecb .hex),
   (0x00000861, .decrypt .des .cbc .hex), (0x00000C61, .decrypt .tdes .cbc .hex),
   (0x00001061, .decrypt .des .ecb .b64), (0x00001461, .decrypt .tdes .ecb .b64),
   (0x00001861, .decrypt .des .cbc .b64), (0x00001C61, .decrypt .tdes .cbc .b64)]

/-- The 51 legal words with their commands (R109). -/
def legalTable : List (Word × Instr) := List.flatten [legalN, legalK, legalA, legalS]

/-- A row of the opcode map: the bits of the word that are compared, what they must be, and whether the slot field must
not be zero (`spec/30_encoding.md` R102). -/
structure OpcodeRow where
  mask : Word
  pattern : Word
  needsSlot : Bool
  deriving DecidableEq, Repr

/-- The rows of the opcode map (`spec/30_encoding.md` R108) with the masks of their formats (R102). -/
def opcodeRows : List OpcodeRow :=
  List.flatten
    [[0x00, 0x01, 0x02, 0x03, 0x04, 0x05, 0x28, 0x29, 0x30, 0x31, 0x50, 0x51, 0x52, 0x53].map
       fun op => { mask := 0xFFFFFFFF, pattern := op, needsSlot := false },
     [0x11, 0x20, 0x21].map fun op => { mask := 0xFFFFFCFF, pattern := op, needsSlot := true },
     [0x10, 0x40, 0x41, 0x42, 0x43, 0x62].map fun op => { mask := 0xFFFFFBFF, pattern := op, needsSlot := false },
     [0x60, 0x61].map fun op => { mask := 0xFFFFE3FF, pattern := op, needsSlot := false }]

/-- The word matches a row of the opcode map (`spec/30_encoding.md` R102). -/
abbrev matchesRow (w : Word) : Prop :=
  ∃ r ∈ opcodeRows, w &&& r.mask = r.pattern ∧ (r.needsSlot = true → w.extractLsb' 8 2 ≠ 0)

/-- What a command can raise once decoded, in its check order (`spec/60_exceptions.md` R313). -/
def mayRaise (i : Instr) : List ErrorKind :=
  match i with
  | .nop => []
  | .clrerr => []
  | .zeroize => []
  | .xfer => []
  | .ivclr => []
  | .geniv => []
  | .loadkey _ => [.keyLength, .encoding]
  | .ksched _ => [.sequence]
  | .desenc _ => [.sequence, .format]
  | .desdec _ => [.sequence, .format]
  | .tdesenc => [.sequence, .format]
  | .tdesdec => [.sequence, .format]
  | .pad => [.capacity]
  | .unpad => [.padding]
  | .ecbenc _ => [.sequence, .format]
  | .ecbdec _ => [.sequence, .format]
  | .cbcenc _ => [.sequence, .format]
  | .cbcdec _ => [.sequence, .format]
  | .hexenc => [.capacity]
  | .hexdec => [.encoding]
  | .b64enc => [.capacity]
  | .b64dec => [.encoding]
  | .encrypt _ _ _ => [.keyLength, .encoding, .capacity]
  | .decrypt _ _ _ => [.keyLength, .encoding, .format, .padding]
  | .genkey _ => []

/-- The commands that may write `KEY` and `KV` (`spec/10_state.md` R31). -/
def writesKey (i : Instr) : Bool :=
  match i with
  | .nop => false
  | .clrerr => false
  | .zeroize => true
  | .xfer => false
  | .ivclr => false
  | .geniv => false
  | .loadkey _ => true
  | .ksched _ => false
  | .desenc _ => false
  | .desdec _ => false
  | .tdesenc => false
  | .tdesdec => false
  | .pad => false
  | .unpad => false
  | .ecbenc _ => false
  | .ecbdec _ => false
  | .cbcenc _ => false
  | .cbcdec _ => false
  | .hexenc => false
  | .hexdec => false
  | .b64enc => false
  | .b64dec => false
  | .encrypt _ _ _ => true
  | .decrypt _ _ _ => true
  | .genkey _ => false

/-- The commands that may write `RK` and `RKV` (`spec/10_state.md` R34). -/
def writesSchedule (i : Instr) : Bool :=
  match i with
  | .nop => false
  | .clrerr => false
  | .zeroize => true
  | .xfer => false
  | .ivclr => false
  | .geniv => false
  | .loadkey _ => true
  | .ksched _ => true
  | .desenc _ => false
  | .desdec _ => false
  | .tdesenc => false
  | .tdesdec => false
  | .pad => false
  | .unpad => false
  | .ecbenc _ => false
  | .ecbdec _ => false
  | .cbcenc _ => false
  | .cbcdec _ => false
  | .hexenc => false
  | .hexdec => false
  | .b64enc => false
  | .b64dec => false
  | .encrypt _ _ _ => true
  | .decrypt _ _ _ => true
  | .genkey _ => false

/-- The commands that may write `IV` and `IVV` (`spec/10_state.md` R32). -/
def writesIv (i : Instr) : Bool :=
  match i with
  | .nop => false
  | .clrerr => false
  | .zeroize => true
  | .xfer => false
  | .ivclr => true
  | .geniv => true
  | .loadkey _ => false
  | .ksched _ => false
  | .desenc _ => false
  | .desdec _ => false
  | .tdesenc => false
  | .tdesdec => false
  | .pad => false
  | .unpad => false
  | .ecbenc _ => false
  | .ecbdec _ => false
  | .cbcenc _ => false
  | .cbcdec _ => false
  | .hexenc => false
  | .hexdec => false
  | .b64enc => false
  | .b64dec => false
  | .encrypt _ .ecb _ => false
  | .encrypt _ .cbc _ => true
  | .decrypt _ _ _ => false
  | .genkey _ => false

/-- The commands that may draw from the entropy source (`spec/60_exceptions.md` R317). -/
def drawsEntropy (i : Instr) : Bool :=
  match i with
  | .nop => false
  | .clrerr => false
  | .zeroize => false
  | .xfer => false
  | .ivclr => false
  | .geniv => true
  | .loadkey _ => false
  | .ksched _ => false
  | .desenc _ => false
  | .desdec _ => false
  | .tdesenc => false
  | .tdesdec => false
  | .pad => false
  | .unpad => false
  | .ecbenc _ => false
  | .ecbdec _ => false
  | .cbcenc _ => false
  | .cbcdec _ => false
  | .hexenc => false
  | .hexdec => false
  | .b64enc => false
  | .b64dec => false
  | .encrypt _ .ecb _ => false
  | .encrypt _ .cbc _ => true
  | .decrypt _ _ _ => false
  | .genkey _ => true

/-- The data commands: those that replace `OBUF` when they complete (`spec/10_state.md` R37). -/
def producesOutput (i : Instr) : Bool :=
  match i with
  | .nop => false
  | .clrerr => false
  | .zeroize => false
  | .xfer => false
  | .ivclr => false
  | .geniv => false
  | .loadkey _ => false
  | .ksched _ => false
  | .desenc _ => true
  | .desdec _ => true
  | .tdesenc => true
  | .tdesdec => true
  | .pad => true
  | .unpad => true
  | .ecbenc _ => true
  | .ecbdec _ => true
  | .cbcenc _ => true
  | .cbcdec _ => true
  | .hexenc => true
  | .hexdec => true
  | .b64enc => true
  | .b64dec => true
  | .encrypt _ _ _ => true
  | .decrypt _ _ _ => true
  | .genkey _ => true

/-- The slots a `KS` field can name (`spec/30_encoding.md` R103). -/
def slotFields : List (BitVec 2 × Slot) := [(1, .k1), (2, .k2), (3, .k3)]

/-- The state a failing command leaves when no error was latched before: the latch and the empty `OBUF`, nothing else
(`spec/60_exceptions.md` R305). -/
def State.failed (s : State) (e : ErrorKind) (w : Word) : State :=
  { s with err := some e, ecmd := w, obuf := [], olen := 0 }

/-- The command completes with the output `out` and changes nothing but `OBUF` and `OLEN` (`spec/10_state.md` R37). -/
def Produces (i : Instr) (s : State) (out : List Byte) : Prop :=
  ∃ t, exec i s = .next t ∧ t.olen = out.length ∧ t.output = out ∧ t = { s with obuf := t.obuf, olen := t.olen }

/-- The command raises `e`, which is latched with the command's word; nothing else changes (`spec/60_exceptions.md` R305,
R311). Said of states in which no error is latched. -/
def Raises (i : Instr) (s : State) (e : ErrorKind) : Prop := exec i s = .next (s.failed e (encode i))

/-- The schedules `alg` needs are valid: slot 1 for DES, all three for TDES (`spec/45_chaining.md` R221). -/
abbrev Scheduled (s : State) (alg : Alg) : Prop := ∀ k, (alg = .tdes ∨ k = .k1) → s.rkv.get k = true

/-- Block `j` of a byte sequence: bytes `8j .. 8j+7` (`spec/20_memory.md` R72). -/
def blockAt (m : List Byte) (j : Nat) : Block := be64 ((m.drop (8 * j)).take 8)

/-- Several commands one after another. -/
def runCommands : List Instr → State → Outcome
  | [], s => .next s
  | i :: rest, s =>
    match exec i s with
    | .next t => runCommands rest t
    | .fault r => .fault r
    | .refused r => .refused r

/-- The unit-level commands that `ENCRYPT alg, mode, enc` composes, in order (`spec/47_service.md` R264). -/
def unitPipeline (alg : Alg) (mode : ChainMode) (enc : TextEnc) : List Instr :=
  let derive : List Instr :=
    match alg with
    | .des => [.ksched 1]
    | .tdes => [.ksched 1, .ksched 2, .ksched 3]
  let iv : List Instr :=
    match mode with
    | .ecb => []
    | .cbc => [.geniv]
  let chain : Instr :=
    match mode with
    | .ecb => .ecbenc alg
    | .cbc => .cbcenc alg
  let code : Instr :=
    match enc with
    | .hex => .hexenc
    | .b64 => .b64enc
  List.flatten [[.loadkey alg], derive, iv, [.pad, .xfer, chain, .xfer, code]]

/-- `p` of `b64dec`: how many of the last two characters are pad characters (`spec/46_codec.md` R248). -/
def padCount (t : List Byte) : Nat :=
  if t.getLast? = some padChar then
    if t.dropLast.getLast? = some padChar then 2 else 1
  else 0

end Sys2Proof.Machine
end

