-- ==== Sys2Proof/Certificates/Slice0/Obligations.lean ====
section
/-! DEFINITION. The statements about the model, for the provers. Each docstring names the rules of the spec it formalises,
and the log entry where a clause rests on a choice of the model. -/

section

open Sys2Proof Sys2Proof.Machine

/-! ### Command words -/

/-- Every well-formed command is read back from its word, with every operand (`spec/30_encoding.md` R101 to R108). -/
def Obligations.DecodeOfEncodeIsTheCommand : Prop :=
  ∀ i : Instr, i.wellFormed = true → decode (encode i) = .ok i

/-- A word has one meaning: a word that decodes is the word of the command it decodes to, and that command is well formed
(`spec/30_encoding.md` R101, R111: no aliases, no ignored bits). -/
def Obligations.DecodedWordsAreTheirEncodings : Prop :=
  ∀ (w : Word) (i : Instr), decode w = .ok i → i.wellFormed = true ∧ encode i = w

/-- The legal words are exactly the 51 words the spec lists, each with the command it lists
(`spec/30_encoding.md` R109, which the spec derives from R101, R102, R108). -/
def Obligations.LegalWordsAreTheTable : Prop :=
  legalTable.length = 51 ∧ (legalTable.map Prod.fst).Nodup ∧ ∀ (w : Word) (i : Instr), decode w = .ok i ↔ (w, i) ∈ legalTable

/-- Some words written out from the spec decode to the commands they stand for, and some words the spec calls illegal are
refused under a name (`spec/30_encoding.md` R108 to R110). -/
def Obligations.SampleWordsDecode : Prop :=
  decode 0x00000000 = .ok .nop ∧ decode 0x00000003 = .ok .xfer ∧ decode 0x00000410 = .ok (.loadkey .tdes) ∧
  decode 0x00000311 = .ok (.ksched 3) ∧ decode 0x00000120 = .ok (.desenc 1) ∧ decode 0x00000221 = .ok (.desdec 2) ∧
  decode 0x00000028 = .ok .tdesenc ∧ decode 0x00000031 = .ok .unpad ∧ decode 0x00000442 = .ok (.cbcenc .tdes) ∧
  decode 0x00000053 = .ok .b64dec ∧ decode 0x00001860 = .ok (.encrypt .des .cbc .b64) ∧
  decode 0x00000C61 = .ok (.decrypt .tdes .cbc .hex) ∧ decode 0x00000462 = .ok (.genkey .tdes) ∧
  decode 0x00000006 = .error .unlistedOpcode ∧ decode 0x00000430 = .error .unusedField ∧
  decode 0x00000420 = .error .unusedField ∧ decode 0x00000011 = .error .slotZero ∧
  decode 0x80000000 = .error .reservedBits

/-! ### A word written to CMD, and the error latch -/

/-- A step runs the decoded command: when the host's next action is a 32-bit write at offset 0 of a word that decodes to
`i`, and no error is latched or `i` passes the gate, the step is `exec i` at the state that waits for the host's further
actions and has acknowledged the write (`spec/10_state.md` R38, `spec/30_encoding.md` R100). -/
def Obligations.StepRunsTheDecodedCommand : Prop :=
  ∀ (s : State) (v : BitVec 64) (rest : List HostAction) (i : Instr),
    s.pending = .write s.cfg.base .b32 v :: rest → decode (v.setWidth 32) = .ok i →
    (s.err = none ∨ i = .clrerr ∨ i = .zeroize) →
    step s = exec i { s with pending := rest, reply := .ack }

/-- A word that matches no row of the opcode map raises IllegalCommand, code 6: the latch takes it when it is free, and
keeps its first error when it is not (`spec/30_encoding.md` R110, `spec/60_exceptions.md` R305). The last clause is the
term with `KS = 0`, which no word decodes to (log entry 7). -/
def Obligations.IllegalWordsRaiseIllegalCommand : Prop :=
  (∀ (s : State) (v : BitVec 64) (rest : List HostAction),
    s.pending = .write s.cfg.base .b32 v :: rest → ¬ matchesRow (v.setWidth 32) →
    (s.err = none → step s = .next
      { s with pending := rest, reply := .ack, err := some .illegalCommand, ecmd := v.setWidth 32, obuf := [], olen := 0 }) ∧
    (s.err ≠ none → step s = .next { s with pending := rest, reply := .ack })) ∧
  ErrorKind.illegalCommand.code = 6 ∧
  ∀ i : Instr, i.wellFormed = false → ∀ s : State, s.err = none → Raises i s .illegalCommand

/-- While an error is latched, a word whose opcode is neither 0x01 nor 0x02 is discarded, legal or not; no other access is
gated. A write that is not a 32-bit write of `CMD` does the same whatever the latch holds; so does a read, which answers the
same and changes nothing, but for the reads of `STATUS` and `ECMD`, which answer the status and the recorded word in every
state (`spec/60_exceptions.md` R306). -/
def Obligations.LatchedErrorDiscardsCommands : Prop :=
  (∀ (s : State) (v : BitVec 64) (rest : List HostAction),
    s.pending = .write s.cfg.base .b32 v :: rest → s.err ≠ none →
    v.extractLsb' 0 8 ≠ 0x01 → v.extractLsb' 0 8 ≠ 0x02 →
    step s = .next { s with pending := rest, reply := .ack }) ∧
  (∀ (s : State) (e : Option ErrorKind) (w : Word) (addr : Nat) (width : BusWidth) (v : BitVec 64),
    ¬ (addr = s.cfg.base ∧ width = .b32) →
    ∃ t, perform (.write addr width v) s = .next t ∧
      perform (.write addr width v) { s with err := e, ecmd := w } = .next { t with err := e, ecmd := w }) ∧
  (∀ (s : State) (e : Option ErrorKind) (w : Word) (addr : Nat) (width : BusWidth),
    ¬ (width = .b32 ∧ (addr = s.cfg.base + 0x04 ∨ addr = s.cfg.base + 0x1C)) →
    ∃ r, perform (.read addr width) s = .next { s with reply := r } ∧
      perform (.read addr width) { s with err := e, ecmd := w } = .next { s with err := e, ecmd := w, reply := r }) ∧
  ∀ s : State,
    perform (.read (s.cfg.base + 0x04) .b32) s = .next { s with reply := .word s.statusWord } ∧
    perform (.read (s.cfg.base + 0x1C) .b32) s = .next { s with reply := .word s.ecmd }

/-- A latched error lasts: a step that starts with one ends with the same one and the same word recorded, unless the host
reset the machine or wrote exactly the word of `CLRERR` or of `ZEROIZE` (`spec/60_exceptions.md` R309). -/
def Obligations.LatchLastsUntilCleared : Prop :=
  ∀ (s t : State), s.err ≠ none → step s = .next t →
    (t.err = s.err ∧ t.ecmd = s.ecmd) ∨ (∃ rest, s.pending = .reset :: rest) ∨
    ∃ v rest, s.pending = .write s.cfg.base .b32 v :: rest ∧ (v.setWidth 32 = encode .clrerr ∨ v.setWidth 32 = encode .zeroize)

/-- No step stops: it answers a next state, with the same parameters, and the host's next action is done. For a command
that is `spec/00_scope.md` R6 (no hang, no trap, no undefined result). Three cases are the model's choice: that a refused
access is a step at all, where R6 and `spec/20_memory.md` R79 also let a model give it none (log entry 2); that a machine
with no host action left takes a step, which changes nothing (log entry 1); and that a reset is a step that keeps the
parameters (log entry 14). -/
def Obligations.EveryStepAnswersANextState : Prop :=
  ∀ s : State, ∃ t, step s = .next t ∧ t.cfg = s.cfg ∧ t.pending = s.pending.tail

/-- Errors are precise: with no error latched, a word written to `CMD` either runs its command to completion, or raises an
error, one of those listed for the command or IllegalCommand for a word that is no command; then the state is the state
before but for the latch and the output, and `STATUS` shows the code (`spec/60_exceptions.md` R311, R313). -/
def Obligations.CommandsCompleteOrLatch : Prop :=
  ∀ (w : Word) (s : State), s.err = none →
    (∃ i t, decode w = .ok i ∧ issueCommand w s = .next t ∧ t.err = none ∧
      t.ecmd = (if i = .clrerr ∨ i = .zeroize then 0 else s.ecmd)) ∨
    ∃ e t, ((∃ i, decode w = .ok i ∧ e ∈ mayRaise i) ∨ (∃ d, decode w = .error d ∧ e = .illegalCommand)) ∧
      issueCommand w s = .next t ∧ t = { s with err := some e, ecmd := w, obuf := [], olen := 0 } ∧
      t.statusWord.extractLsb' 0 4 = e.code ∧ t.readRegister 0x04 = some t.statusWord

/-! ### The bus -/

/-- A 32-bit read of a register answers its value and changes no state (`spec/20_memory.md` R74, `spec/10_state.md` R38 to
R44). -/
def Obligations.RegisterReadsAnswerTheRegisters : Prop :=
  ∀ (s : State) (off : Nat) (v : Word) (rest : List HostAction), Inv s →
    (off, v) ∈ [(0x00, 0), (0x04, s.statusWord), (0x08, BitVec.ofNat 32 s.ilen), (0x0C, BitVec.ofNat 32 s.olen),
      (0x10, BitVec.ofNat 32 s.klen), (0x14, s.iv.extractLsb' 32 32), (0x18, s.iv.extractLsb' 0 32), (0x1C, s.ecmd)] →
    s.pending = .read (s.cfg.base + off) .b32 :: rest →
    step s = .next { s with pending := rest, reply := .word v }

/-- `STATUS` holds the error code in bits 3:0, `IVV` in bit 4, `KV` in bits 7:5 and `RKV` in bits 10:8, and zeros above; a
read answers it and changes nothing, a write is ignored (`spec/10_state.md` R39); the codes are those of
`spec/60_exceptions.md` R300. -/
def Obligations.StatusShowsTheFlags : Prop :=
  (∀ s : State, s.statusWord.toNat = (errField s.err).toNat + 16 * s.ivv.toNat + 32 * s.kv.k1.toNat + 64 * s.kv.k2.toNat +
    128 * s.kv.k3.toNat + 256 * s.rkv.k1.toNat + 512 * s.rkv.k2.toNat + 1024 * s.rkv.k3.toNat) ∧
  (∀ (s : State) (rest : List HostAction), s.pending = .read (s.cfg.base + 0x04) .b32 :: rest →
    step s = .next { s with pending := rest, reply := .word s.statusWord }) ∧
  (∀ (s : State) (v : BitVec 64) (rest : List HostAction), s.pending = .write (s.cfg.base + 0x04) .b32 v :: rest →
    step s = .next { s with pending := rest, reply := .ack }) ∧
  errField none = 0 ∧
  [ErrorKind.keyLength, .format, .padding, .encoding, .capacity, .illegalCommand, .sequence].map (fun e => errField (some e)) =
    [1, 2, 3, 4, 5, 6, 7]

/-- A 32-bit write of a register: at 0x00 the command is executed; at 0x08 and 0x10 the length is set, when it is within the
capacity; at 0x14 and 0x18 one half of `IV` is replaced and `IVV` set; the read-only registers ignore it
(`spec/20_memory.md` R76, `spec/10_state.md` R38, R40 to R44). A length above the capacity is a refused access, which
`Obligations.RefusedAccessesChangeNothing` speaks of. -/
def Obligations.RegisterWritesSetTheRegisters : Prop :=
  ∀ (s : State) (off : Nat) (v : BitVec 64) (rest : List HostAction),
    s.pending = .write (s.cfg.base + off) .b32 v :: rest →
    (off = 0x00 → step s = issueCommand (v.setWidth 32) { s with pending := rest, reply := .ack }) ∧
    (off = 0x04 ∨ off = 0x0C ∨ off = 0x1C → step s = .next { s with pending := rest, reply := .ack }) ∧
    (off = 0x08 → (v.setWidth 32).toNat ≤ s.cfg.nbuf →
      step s = .next { s with pending := rest, reply := .ack, ilen := (v.setWidth 32).toNat }) ∧
    (off = 0x10 → (v.setWidth 32).toNat ≤ 64 →
      step s = .next { s with pending := rest, reply := .ack, klen := (v.setWidth 32).toNat }) ∧
    (off = 0x14 → step s = .next
      { s with pending := rest, reply := .ack, iv := v.setWidth 32 ++ s.iv.extractLsb' 0 32, ivv := true }) ∧
    (off = 0x18 → step s = .next
      { s with pending := rest, reply := .ack, iv := s.iv.extractLsb' 32 32 ++ v.setWidth 32, ivv := true })

/-- An 8-bit read of a buffer answers the byte there, in `OBUF` zero at and beyond `OLEN`, and changes no state
(`spec/20_memory.md` R77). -/
def Obligations.BufferReadsAnswerTheByte : Prop :=
  ∀ (s : State) (i : Nat) (rest : List HostAction), s.cfg.Valid →
    (i < 64 → s.pending = .read (s.cfg.base + (0x40 + i)) .b8 :: rest →
      step s = .next { s with pending := rest, reply := .byte (s.kbuf.read i) }) ∧
    (i < s.cfg.nbuf → s.pending = .read (s.cfg.base + (0x10000 + i)) .b8 :: rest →
      step s = .next { s with pending := rest, reply := .byte (s.ibuf.read i) }) ∧
    (i < s.cfg.nbuf → s.pending = .read (s.cfg.base + (0x20000 + i)) .b8 :: rest →
      step s = .next { s with pending := rest, reply := .byte (if i < s.olen then s.obuf.read i else 0) })

/-- An 8-bit write of `KBUF` or `IBUF` changes exactly the byte addressed: every byte of the address space reads as before
but that one, and no length register changes; in `OBUF` it changes nothing (`spec/20_memory.md` R78). -/
def Obligations.BufferWritesChangeOneByte : Prop :=
  ∀ (s : State) (i : Nat) (v : BitVec 64) (rest : List HostAction), Inv s →
    (i < 64 → s.pending = .write (s.cfg.base + (0x40 + i)) .b8 v :: rest →
      ∃ t, step s = .next t ∧ t = { s with pending := rest, reply := .ack, kbuf := t.kbuf } ∧
        ∀ off, t.readByte off = if off = 0x40 + i then some (v.setWidth 8) else s.readByte off) ∧
    (i < s.cfg.nbuf → s.pending = .write (s.cfg.base + (0x10000 + i)) .b8 v :: rest →
      ∃ t, step s = .next t ∧ t = { s with pending := rest, reply := .ack, ibuf := t.ibuf } ∧
        ∀ off, t.readByte off = if off = 0x10000 + i then some (v.setWidth 8) else s.readByte off) ∧
    (i < s.cfg.nbuf → s.pending = .write (s.cfg.base + (0x20000 + i)) .b8 v :: rest →
      step s = .next { s with pending := rest, reply := .ack })

/-- Exactly the accesses the address map does not define, and the writes of a length above its capacity, are refused, and a
refused access changes nothing of CORE (`spec/20_memory.md` R71, R75, R79). That a refused access is a step which flags
the host, and not a stuck host, is the model's choice between the two R79 offers (log entry 2); that an address below
`BASE` is refused is log entry 4. -/
def Obligations.RefusedAccessesChangeNothing : Prop :=
  ∀ (s : State) (a : HostAction) (rest : List HostAction), s.pending = a :: rest →
    (refusedAction s.cfg a → step s = .next { s with pending := rest, reply := .error }) ∧
    (¬ refusedAction s.cfg a → ∀ t, step s = .next t → t.reply ≠ .error)

/-- A reset puts every piece of architectural state at zero or empty, whatever the state was
(`spec/70_reset_and_hazards.md` R340, `spec/10_state.md` R48). That the parameters, the entropy source and the host's
remaining actions are no part of what a reset clears is log entry 14. -/
def Obligations.ResetClearsEverything : Prop :=
  ∀ (s : State) (rest : List HostAction), s.cfg.Valid → s.pending = .reset :: rest →
    ∃ t, step s = .next t ∧
      t = { State.reset with cfg := s.cfg, entropy := s.entropy, drawn := s.drawn, pending := rest } ∧
      (∀ k, t.key.get k = 0 ∧ t.kv.get k = false ∧ t.rkv.get k = false ∧ ∀ j : Fin 16, (t.rk.get k)[j] = 0) ∧
      t.iv = 0 ∧ t.ivv = false ∧ t.klen = 0 ∧ t.ilen = 0 ∧ t.olen = 0 ∧ t.err = none ∧ t.ecmd = 0 ∧ t.statusWord = 0 ∧
      ∀ off, bufferOffset s.cfg off → t.readByte off = some 0

/-- The host learns nothing of `KEY` and `RK` from the bus: two states that differ only there answer every action but a
command alike, and go on differing only there (`spec/10_state.md` R31, R34). -/
def Obligations.KeysNeverReachTheBus : Prop :=
  ∀ (s : State) (key : Slots Block) (rk : Slots Schedule) (a : HostAction),
    (∀ v, a ≠ .write s.cfg.base .b32 v) → a ≠ .reset →
    ∃ t, perform a s = .next t ∧ t.key = s.key ∧ t.rk = s.rk ∧
      perform a { s with key := key, rk := rk } = .next { t with key := key, rk := rk }

/-- The host's pseudo-instructions do what they are for: `LDK` puts a key text of at most 64 characters in place, `LDI` an
input of at most `NBUF` bytes, `LDIV` an IV, and nothing else but the bus's answer changes, the bytes of `KBUF` and `IBUF`
at and beyond the loaded length among what does not; `CMD` issues its word, legal or not, and a mnemonic its
command's word (`spec/30_encoding.md` R114, by `spec/20_memory.md` R76 and R78). -/
def Obligations.PseudoInstructionsLoadOperands : Prop :=
  ∀ s : State, Inv s →
    (∀ text : List Byte, text.length ≤ 64 → ∃ t, performAll (pseudoLdk s.cfg text) s = .next t ∧
      t.keyText = text ∧ t.klen = text.length ∧ (∀ j, text.length ≤ j → t.kbuf.read j = s.kbuf.read j) ∧
      t = { s with kbuf := t.kbuf, klen := t.klen, reply := .ack }) ∧
    (∀ bytes : List Byte, bytes.length ≤ s.cfg.nbuf → ∃ t, performAll (pseudoLdi s.cfg bytes) s = .next t ∧
      t.input = bytes ∧ t.ilen = bytes.length ∧ (∀ j, bytes.length ≤ j → t.ibuf.read j = s.ibuf.read j) ∧
      t = { s with ibuf := t.ibuf, ilen := t.ilen, reply := .ack }) ∧
    (∀ v : Block, performAll (pseudoLdiv s.cfg v) s = .next { s with iv := v, ivv := true, reply := .ack }) ∧
    (∀ w : Word, performAll (pseudoCmd s.cfg w) s = issueCommand w { s with reply := .ack }) ∧
    ∀ i : Instr, performAll (pseudoMnemonic s.cfg i) s = issueCommand (encode i) { s with reply := .ack }

/-! ### System commands -/

/-- `NOP` changes nothing, executed or discarded; `CLRERR` clears the latch and changes nothing else; the word 0x00000101 is
not `CLRERR`: it raises IllegalCommand, and keeps the first error when one is latched
(`spec/48_system.md` R281, R282). -/
def Obligations.NopAndClrerrTouchOnlyTheLatch : Prop :=
  ∀ s : State,
    exec .nop s = .next s ∧ issueCommand 0x00000000 s = .next s ∧
    exec .clrerr s = .next { s with err := none, ecmd := 0 } ∧
    issueCommand 0x00000001 s = .next { s with err := none, ecmd := 0 } ∧
    (s.err = none → issueCommand 0x00000101 s = .next
      { s with err := some .illegalCommand, ecmd := 0x00000101, obuf := [], olen := 0 }) ∧
    (s.err ≠ none → issueCommand 0x00000101 s = .next s)

/-- `ZEROIZE` leaves the reset state, latched error or not, and draws no entropy (`spec/48_system.md` R283). -/
def Obligations.ZeroizeGivesTheResetState : Prop :=
  ∀ s : State, s.cfg.Valid → ∃ t, exec .zeroize s = .next t ∧ issueCommand 0x00000002 s = .next t ∧
    t = { State.reset with
      cfg := s.cfg, entropy := s.entropy, drawn := s.drawn, pending := s.pending, reply := s.reply } ∧
    (∀ k, t.key.get k = 0 ∧ t.kv.get k = false ∧ t.rkv.get k = false ∧ ∀ j : Fin 16, (t.rk.get k)[j] = 0) ∧
    t.iv = 0 ∧ t.ivv = false ∧ t.klen = 0 ∧ t.ilen = 0 ∧ t.olen = 0 ∧ t.err = none ∧ t.ecmd = 0 ∧ t.statusWord = 0 ∧
    ∀ off, bufferOffset s.cfg off → t.readByte off = some 0

/-- `XFER` copies `OBUF[0..OLEN-1]` to `IBUF` and `OLEN` to `ILEN`; the other bytes of `IBUF`, and all else, keep their
values; done twice it is done once (`spec/48_system.md` R284). -/
def Obligations.XferCopiesTheOutput : Prop :=
  ∀ s : State, Inv s → ∃ t, exec .xfer s = .next t ∧ t.ilen = s.olen ∧
    (∀ j, t.ibuf.read j = if j < s.olen then s.obuf.read j else s.ibuf.read j) ∧
    t = { s with ibuf := t.ibuf, ilen := t.ilen } ∧ t.input = s.output ∧ exec .xfer t = .next t

/-- `IVCLR` makes the IV absent and zero; `GENIV` puts the next 8 bytes of the entropy source into `IV`, first byte most
significant, and sets `IVV`, whatever the bytes are; with a fixed sequence as the source they are its next 8 bytes, and it
goes on after them (`spec/48_system.md` R285, R286; `spec/00_scope.md` R17; what is drawn when the sequence has run out is
the free value of log entry 5). -/
def Obligations.IvclrAndGenivWriteTheIv : Prop :=
  ∀ s : State,
    exec .ivclr s = .next { s with iv := 0, ivv := false } ∧
    (∃ t, exec .geniv s = .next t ∧ t.ivv = true ∧ t.iv = be64 (s.randBytes 8) ∧ (s.randBytes 8).length = 8 ∧
      t = { s with iv := t.iv, ivv := true, entropy := t.entropy, drawn := t.drawn }) ∧
    ∀ draw rest : List Byte, draw.length = 8 → s.entropy = draw ++ rest →
      exec .geniv s = .next { s with iv := be64 draw, ivv := true, entropy := rest }

/-! ### Keys and schedules -/

/-- `LOADKEY`: a key text of the right length and of hex digits is loaded, first byte most significant, into slot 1 (DES)
or slots 1, 2, 3 in order (TDES), their schedules made invalid and zero, nothing else touched; otherwise KeyLengthError
first, then EncodingError (`spec/41_key_schedule.md` R161, R166). -/
def Obligations.LoadkeyLoadsTheKeys : Prop :=
  ∀ s : State,
    (∀ kb, s.klen = 16 → hexDec s.keyText = some kb → exec (.loadkey .des) s = .next
      { s with
        key := { s.key with k1 := be64 kb }, kv := { s.kv with k1 := true },
        rk := { s.rk with k1 := Vector.replicate 16 0 }, rkv := { s.rkv with k1 := false } }) ∧
    (∀ kb1 kb2 kb3 : List Byte, kb1.length = 8 → kb2.length = 8 → kb3.length = 8 →
      s.klen = 48 → hexDec s.keyText = some (kb1 ++ kb2 ++ kb3) → exec (.loadkey .tdes) s = .next
      { s with
        key := { k1 := be64 kb1, k2 := be64 kb2, k3 := be64 kb3 }, kv := { k1 := true, k2 := true, k3 := true },
        rk := { k1 := Vector.replicate 16 0, k2 := Vector.replicate 16 0, k3 := Vector.replicate 16 0 },
        rkv := { k1 := false, k2 := false, k3 := false } }) ∧
    (s.err = none → s.klen ≠ 16 → Raises (.loadkey .des) s .keyLength) ∧
    (s.err = none → s.klen ≠ 48 → Raises (.loadkey .tdes) s .keyLength) ∧
    (s.err = none → s.klen = 16 → hexDec s.keyText = none → Raises (.loadkey .des) s .encoding) ∧
    (s.err = none → s.klen = 48 → hexDec s.keyText = none → Raises (.loadkey .tdes) s .encoding)

/-- `KSCHED k` writes the sixteen subkeys of `KEY[k]` and sets `RKV[k]`, leaves the other slots and all else, and done again
writes the same; without a key it raises SequenceError; with `KS = 0` in the word IllegalCommand (`spec/41_key_schedule.md` R164). -/
def Obligations.KschedDerivesTheSchedule : Prop :=
  ∀ (s : State) (ks : BitVec 2) (k : Slot), (ks, k) ∈ slotFields →
    (s.kv.get k = true → ∃ t, exec (.ksched ks) s = .next t ∧ t.rk.get k = keySchedule (s.key.get k) ∧ t.rkv.get k = true ∧
      (∀ j, j ≠ k → t.rk.get j = s.rk.get j ∧ t.rkv.get j = s.rkv.get j) ∧ t = { s with rk := t.rk, rkv := t.rkv } ∧
      exec (.ksched ks) t = .next t) ∧
    (s.err = none → s.kv.get k = false → Raises (.ksched ks) s .sequence) ∧
    (s.err = none → issueCommand 0x00000011 s = .next
      { s with err := some .illegalCommand, ecmd := 0x00000011, obuf := [], olen := 0 })

/-- Subkey `i` is PC-2 of the two halves of PC-1 of the key, each rotated left by the sum of the first `i` rotation counts
(`spec/41_key_schedule.md` R162, `spec/40_bit_tables.md` R139). -/
def Obligations.KeyScheduleRotatesTheHalves : Prop :=
  ∀ (key : Block) (i : Fin 16),
    (keySchedule key)[i] = permute 48 pc2Table
      (((permute 56 pc1Table key).extractLsb' 28 28).rotateLeft ((shiftTable.take (i + 1)).sum) ++
       ((permute 56 pc1Table key).extractLsb' 0 28).rotateLeft ((shiftTable.take (i + 1)).sum))

/-- The schedule does not depend on the eight parity bits; after the sixteen rotations a half is where it began; the zero
key has sixteen zero subkeys and the all-ones key sixteen all-ones subkeys (`spec/41_key_schedule.md` R163, which the
spec derives). -/
def Obligations.KeyScheduleProperties : Prop :=
  (∀ key m : Block, m &&& 0xFEFEFEFEFEFEFEFE = 0 → keySchedule (key ^^^ m) = keySchedule key) ∧
  (∀ half : KeyHalf, shiftTable.foldl rol28 half = half) ∧
  keySchedule 0 = Vector.replicate 16 0 ∧
  keySchedule 0xFFFFFFFFFFFFFFFF = Vector.replicate 16 0xFFFFFFFFFFFF

/-- The key-schedule FSM, started from idle, makes one KS_LOAD, exactly sixteen KS_ROUND and one KS_DONE step, sets `RKV`
in the last only, and ends idle with the schedule of the key and its halves where they began
(`spec/41_key_schedule.md` R165). -/
def Obligations.KeyScheduleFsmComputesTheSchedule : Prop :=
  ∀ (e : KsEngine) (key : Block), e.phase = .idle →
    (KsEngine.run key 0 e.start).phase = .load ∧
    (∀ n, 1 ≤ n → n ≤ 16 → (KsEngine.run key n e.start).phase = .round ∧ (KsEngine.run key n e.start).i = n ∧
      (KsEngine.run key n e.start).rkv = e.rkv ∧
      ∀ j : Fin 16, (j : Nat) + 1 < n → (KsEngine.run key n e.start).rk[j] = (keySchedule key)[j]) ∧
    (KsEngine.run key 17 e.start).phase = .done ∧ (KsEngine.run key 17 e.start).rkv = e.rkv ∧
    KsEngine.run key 18 e.start =
      { phase := .idle, c := keyHalfC key, d := keyHalfD key, i := 16, rk := keySchedule key, rkv := true }

/-! ### Bits and blocks -/

/-- `permute`: output bit `j`, counted from 1 at the left, is input bit `T[j]`; `rol28` by 1 or 2 is the circular shift;
`sbox` looks up the row of the outer two bits and the column of the inner four
(`spec/00_scope.md` R13, R14; `spec/40_bit_tables.md` R136). -/
def Obligations.BitPrimitivesMoveBits : Prop :=
  (∀ (n : Nat) (t : List Nat) (v : BitVec n), (∀ x ∈ t, 1 ≤ x ∧ x ≤ n) →
    ∀ j, 1 ≤ j → j ≤ t.length → fipsBit (permute t.length t v) j = fipsBit v (t.getD (j - 1) 0)) ∧
  (∀ (x : KeyHalf) (s : Nat), s = 1 ∨ s = 2 → (rol28 x s).toNat = x.toNat * 2 ^ s % 2 ^ 28 + x.toNat / 2 ^ (28 - s)) ∧
  ∀ (n : Fin 8) (g : BitVec 6), (sbox (n + 1) g).toNat =
    ((sBoxes.getD n []).getD (2 * (g.getLsbD 5).toNat + (g.getLsbD 0).toNat) []).getD (g.toNat / 2 % 16) 0

/-- The tables pass the structural checks (a) to (g) of `spec/40_bit_tables.md` R140, and FP undoes IP on every block, both
ways (R132). -/
def Obligations.TablesPassTheirChecks : Prop :=
  (ipTable.Perm ((List.range 64).map (· + 1)) ∧ fpTable.Perm ((List.range 64).map (· + 1)) ∧
    ∀ j : Fin 64, fpTable.getD (ipTable.getD j 0 - 1) 0 = j + 1) ∧
  pTable.Perm ((List.range 32).map (· + 1)) ∧
  eTable = (List.range 8).flatMap (fun g => (List.range 6).map fun c => (4 * g + c + 31) % 32 + 1) ∧
  (sBoxes.length = 8 ∧ ∀ box ∈ sBoxes, box.length = 4 ∧ ∀ row ∈ box, row.Perm (List.range 16)) ∧
  (pc1Table.length = 56 ∧ pc1Table.Nodup ∧ ∀ x ∈ pc1Table, 1 ≤ x ∧ x ≤ 64 ∧ x % 8 ≠ 0) ∧
  (pc2Table.length = 48 ∧ pc2Table.Nodup ∧ ∀ x, 1 ≤ x → x ≤ 56 → (x ∉ pc2Table ↔ x ∈ [9, 18, 22, 25, 35, 38, 43, 54])) ∧
  shiftTable = [1, 1, 2, 2, 2, 2, 2, 2, 1, 2, 2, 2, 2, 2, 2, 1] ∧ shiftTable.sum = 28 ∧
  ∀ b : Block, permute 64 fpTable (permute 64 ipTable b) = b ∧ permute 64 ipTable (permute 64 fpTable b) = b

/-- The round engine, started from idle, makes one RE_IP, exactly sixteen RE_ROUND and one RE_FP step; after round `n` it
holds the pair `n` of the round trace; it ends idle with the block that `des_core` gives for the subkeys of its direction
(`spec/42_des_block.md` R184 to R188). -/
def Obligations.RoundEngineRunsTheNetwork : Prop :=
  ∀ (e : RoundEngine) (b : Block) (rk : Schedule) (dir : Direction), e.phase = .idle →
    (RoundEngine.run b rk 0 (e.start dir)).phase = .ip ∧
    (∀ n, n ≤ 16 → (RoundEngine.run b rk (n + 1) (e.start dir)).phase = (if n = 16 then .fp else .round) ∧
      (roundTrace b (passKeys rk dir))[n]? =
        some ((RoundEngine.run b rk (n + 1) (e.start dir)).l, (RoundEngine.run b rk (n + 1) (e.start dir)).r)) ∧
    (RoundEngine.run b rk 18 (e.start dir)).phase = .idle ∧
    (RoundEngine.run b rk 18 (e.start dir)).out = desCore b (passKeys rk dir)

/-- DES decryption undoes encryption and the other way round, for every block and every sixteen subkeys; where the sixteen
are equal the two are the same function and doing it twice gives the block back; the result does not depend on the key's
parity bits (`spec/42_des_block.md` R191, which the spec derives). -/
def Obligations.DesDecryptionUndoesEncryption : Prop :=
  (∀ (b : Block) (rk : Schedule), desDec (desEnc b rk) rk = b ∧ desEnc (desDec b rk) rk = b) ∧
  (∀ (b : Block) (k : Subkey),
    desEnc b (Vector.replicate 16 k) = desDec b (Vector.replicate 16 k) ∧
    desEnc (desEnc b (Vector.replicate 16 k)) (Vector.replicate 16 k) = b) ∧
  ∀ b key m : Block, m &&& 0xFEFEFEFEFEFEFEFE = 0 →
    desEnc b (keySchedule (key ^^^ m)) = desEnc b (keySchedule key) ∧
    desDec b (keySchedule (key ^^^ m)) = desDec b (keySchedule key)

/-- `DESENC k` and `DESDEC k`: the block of `IBUF` through DES with the schedule of slot `k`, subkeys 1 to 16 or 16 to 1, as 8
bytes of output and nothing else changed; SequenceError first, then FormatError (`spec/42_des_block.md` R189, R190,
R183). -/
def Obligations.DesCommandsRunOneBlock : Prop :=
  ∀ (s : State) (ks : BitVec 2) (k : Slot), (ks, k) ∈ slotFields →
    (s.rkv.get k = true → s.ilen = 8 →
      Produces (.desenc ks) s (bytes8 (desCore (be64 s.input) (s.rk.get k).toList)) ∧
      Produces (.desdec ks) s (bytes8 (desCore (be64 s.input) (s.rk.get k).toList.reverse))) ∧
    (s.err = none → s.rkv.get k = false → Raises (.desenc ks) s .sequence ∧ Raises (.desdec ks) s .sequence) ∧
    (s.err = none → s.rkv.get k = true → s.ilen ≠ 8 → Raises (.desenc ks) s .format ∧ Raises (.desdec ks) s .format)

/-! ### 3DES -/

/-- `TDESENC` and `TDESDEC`: the block of `IBUF` through EDE with the three schedules, or through its reverse, as 8 bytes of
output and nothing else changed; SequenceError first, then FormatError (`spec/43_tdes_block.md` R200 to R202). -/
def Obligations.TdesCommandsRunOneBlock : Prop :=
  ∀ s : State,
    (s.rkv.k1 = true → s.rkv.k2 = true → s.rkv.k3 = true → s.ilen = 8 →
      Produces .tdesenc s (bytes8 (desEnc (desDec (desEnc (be64 s.input) s.rk.k1) s.rk.k2) s.rk.k3)) ∧
      Produces .tdesdec s (bytes8 (desDec (desEnc (desDec (be64 s.input) s.rk.k3) s.rk.k2) s.rk.k1))) ∧
    (s.err = none → (s.rkv.k1 = false ∨ s.rkv.k2 = false ∨ s.rkv.k3 = false) →
      Raises .tdesenc s .sequence ∧ Raises .tdesdec s .sequence) ∧
    (s.err = none → s.rkv.k1 = true → s.rkv.k2 = true → s.rkv.k3 = true → s.ilen ≠ 8 →
      Raises .tdesenc s .format ∧ Raises .tdesdec s .format)

/-- A 3DES block is three complete runs of the round engine in the order and directions of the pass table, each on the
output of the one before; its trace is three lists of 17 pairs, labelled by pass (`spec/43_tdes_block.md` R203). -/
def Obligations.TdesPassesAreRoundEngineRuns : Prop :=
  ∀ (e : RoundEngine) (rk : Slots Schedule) (b : Block), e.phase = .idle →
    RoundEngine.passes rk e b (tdesPasses .encrypt) = tdesEnc b rk ∧
    RoundEngine.passes rk e b (tdesPasses .decrypt) = tdesDec b rk ∧
    ∀ dir, (tdesTrace rk b (tdesPasses dir)).map (fun p => (p.1, p.2.length)) = (tdesPasses dir).map fun p => (p, 17)

/-- 3DES decryption undoes encryption; with `rk1 = rk2` it is DES under `rk3`, with `rk2 = rk3` it is DES under `rk1`; and the
spec's vector with three equal keys (`spec/43_tdes_block.md` R204, which the spec derives). -/
def Obligations.TripleDesProperties : Prop :=
  (∀ (b : Block) (rk : Slots Schedule), tdesDec (tdesEnc b rk) rk = b ∧ tdesEnc (tdesDec b rk) rk = b) ∧
  (∀ (b : Block) (rk : Slots Schedule), rk.k1 = rk.k2 → tdesEnc b rk = desEnc b rk.k3) ∧
  (∀ (b : Block) (rk : Slots Schedule), rk.k2 = rk.k3 → tdesEnc b rk = desEnc b rk.k1) ∧
  tdesEnc 0x0123456789ABCDEF (Slots.same (keySchedule 0x133457799BBCDFF1)) = 0x85E813540F0AB405

/-! ### Padding -/

/-- `PAD` appends `N = 8 - ILEN mod 8` bytes of value `N`, never none; CapacityError when the result does not fit
(`spec/44_padding.md` R210, R211). -/
def Obligations.PadAppendsThePad : Prop :=
  ∀ s : State,
    (s.ilen + (8 - s.ilen % 8) ≤ s.cfg.nbuf →
      Produces .pad s (s.input ++ List.replicate (8 - s.ilen % 8) (BitVec.ofNat 8 (8 - s.ilen % 8)))) ∧
    (s.err = none → s.cfg.nbuf < s.ilen + (8 - s.ilen % 8) → Raises .pad s .capacity)

/-- `UNPAD` removes a well-formed pad, `N` bytes of value `N` with `N` in 1 to 8, and raises PaddingError exactly when the
input does not end in one (`spec/44_padding.md` R212, R213). -/
def Obligations.UnpadRemovesThePad : Prop :=
  ∀ s : State,
    (∀ (m : List Byte) (n : Nat), 1 ≤ n → n ≤ 8 → s.input = m ++ List.replicate n (BitVec.ofNat 8 n) →
      Produces .unpad s m) ∧
    (s.err = none →
      (¬ ∃ (m : List Byte) (n : Nat), 1 ≤ n ∧ n ≤ 8 ∧ s.input = m ++ List.replicate n (BitVec.ofNat 8 n)) →
      Raises .unpad s .padding)

/-- `unpad` undoes `pad`; `PAD; XFER; UNPAD` gives the input back whenever the padded input fits; `unpad` accepts every
sequence with a well-formed tail (`spec/44_padding.md` R214 (a) to (c), which the spec derives). -/
def Obligations.UnpadUndoesPad : Prop :=
  (∀ m : List Byte, unpad (pad m) = some m) ∧
  (∀ s : State, Inv s → s.ilen + (8 - s.ilen % 8) ≤ s.cfg.nbuf →
    ∃ t, runCommands [.pad, .xfer, .unpad] s = .next t ∧ t.output = s.input ∧ t.olen = s.ilen) ∧
  ∀ (m : List Byte) (n : Nat), 1 ≤ n → n ≤ 8 → unpad (m ++ List.replicate n (BitVec.ofNat 8 n)) = some m

/-! ### Chaining -/

/-- `ECBENC` and `ECBDEC`: each block of the input goes through the cipher by itself, nothing but the output changes, the IV
plays no part; SequenceError first, then FormatError when the length is no positive multiple of 8
(`spec/45_chaining.md` R220 to R224). -/
def Obligations.EcbRunsEachBlockAlone : Prop :=
  ∀ (s : State) (alg : Alg),
    (Scheduled s alg → 0 < s.ilen → s.ilen % 8 = 0 →
      (∃ out, Produces (.ecbenc alg) s out ∧ out.length = s.ilen ∧
        ∀ j, 8 * j < s.ilen → blockAt out j = encBlock alg s.rk (blockAt s.input j)) ∧
      ∃ out, Produces (.ecbdec alg) s out ∧ out.length = s.ilen ∧
        ∀ j, 8 * j < s.ilen → blockAt out j = decBlock alg s.rk (blockAt s.input j)) ∧
    (s.err = none → ¬ Scheduled s alg → Raises (.ecbenc alg) s .sequence ∧ Raises (.ecbdec alg) s .sequence) ∧
    (s.err = none → Scheduled s alg → ¬ (0 < s.ilen ∧ s.ilen % 8 = 0) →
      Raises (.ecbenc alg) s .format ∧ Raises (.ecbdec alg) s .format)

/-- `CBCENC` and `CBCDEC`: each plaintext block is xored with the ciphertext block before it, the first with the IV, which is
left as it was; SequenceError, then FormatError for the length, then FormatError for a missing IV
(`spec/45_chaining.md` R225 to R228). -/
def Obligations.CbcChainsTheBlocks : Prop :=
  ∀ (s : State) (alg : Alg),
    (Scheduled s alg → 0 < s.ilen → s.ilen % 8 = 0 → s.ivv = true →
      (∃ out, Produces (.cbcenc alg) s out ∧ out.length = s.ilen ∧ ∀ j, 8 * j < s.ilen →
        blockAt out j = encBlock alg s.rk (blockAt s.input j ^^^ if j = 0 then s.iv else blockAt out (j - 1))) ∧
      ∃ out, Produces (.cbcdec alg) s out ∧ out.length = s.ilen ∧ ∀ j, 8 * j < s.ilen →
        blockAt out j = decBlock alg s.rk (blockAt s.input j) ^^^ if j = 0 then s.iv else blockAt s.input (j - 1)) ∧
    (s.err = none → ¬ Scheduled s alg → Raises (.cbcenc alg) s .sequence ∧ Raises (.cbcdec alg) s .sequence) ∧
    (s.err = none → Scheduled s alg → (¬ (0 < s.ilen ∧ s.ilen % 8 = 0) ∨ s.ivv = false) →
      Raises (.cbcenc alg) s .format ∧ Raises (.cbcdec alg) s .format)

/-- Chaining decryption undoes encryption in both modes under both algorithms; a single block in ECB is the block command,
and in CBC with a zero IV it is ECB; a wrong IV changes only the first block of a CBC decryption
(`spec/45_chaining.md` R228, R230, which the spec derives). -/
def Obligations.ChainingProperties : Prop :=
  (∀ (alg : Alg) (mode : ChainMode) (m : List Byte) (rk : Slots Schedule) (iv : Block), m.length % 8 = 0 →
    chainDec alg mode (chainEnc alg mode m rk iv) rk iv = m) ∧
  (∀ s : State, s.ilen = 8 → s.rkv.k1 = true → exec (.ecbenc .des) s = exec (.desenc 1) s) ∧
  (∀ s : State, s.ilen = 8 → Scheduled s .tdes → exec (.ecbenc .tdes) s = exec .tdesenc s) ∧
  (∀ (s : State) (alg : Alg), s.ilen = 8 → Scheduled s alg → s.iv = 0 → s.ivv = true →
    exec (.cbcenc alg) s = exec (.ecbenc alg) s) ∧
  ∀ (alg : Alg) (c : List Byte) (rk : Slots Schedule) (iv iv' : Block),
    (chainDec alg .cbc c rk iv').drop 8 = (chainDec alg .cbc c rk iv).drop 8

/-- The block sequencer takes the blocks in index order, one block operation each: after any number `n` of them its output
is the first `n` blocks of what the chaining function gives and its index is `n`; after the last block it does nothing more
(`spec/45_chaining.md` R229, R223 to R225, R227). -/
def Obligations.SequencerChainsInOrder : Prop :=
  ∀ (f : Block → Block) (iv : Block) (blocks : List Block) (n : Nat),
    (∀ dir, (Sequencer.run f .ecb dir blocks n { j := 0, cv := iv, out := [] }).out = (blocks.map f).take n) ∧
    (Sequencer.run f .cbc .encrypt blocks n { j := 0, cv := iv, out := [] }).out = (cbcEnc f iv blocks).take n ∧
    (Sequencer.run f .cbc .decrypt blocks n { j := 0, cv := iv, out := [] }).out = (cbcDec f iv blocks).take n ∧
    ∀ mode dir, (Sequencer.run f mode dir blocks n { j := 0, cv := iv, out := [] }).j = min n blocks.length

/-! ### Codecs -/

/-- `HEXENC` writes two lower-case digits for each byte, the high nibble's first; CapacityError when they do not fit
(`spec/46_codec.md` R241, R242). -/
def Obligations.HexencWritesDigits : Prop :=
  ∀ s : State,
    (2 * s.ilen ≤ s.cfg.nbuf → ∃ out, Produces .hexenc s out ∧ out.length = 2 * s.ilen ∧
      ∀ j, j < s.ilen →
        out.getD (2 * j) 0 = ("0123456789abcdef".toList.map fun c => BitVec.ofNat 8 c.toNat).getD ((s.ibuf.read j).toNat / 16) 0 ∧
        out.getD (2 * j + 1) 0 =
          ("0123456789abcdef".toList.map fun c => BitVec.ofNat 8 c.toNat).getD ((s.ibuf.read j).toNat % 16) 0) ∧
    (s.err = none → s.cfg.nbuf < 2 * s.ilen → Raises .hexenc s .capacity)

/-- `HEXDEC` reads two digits of either case for each byte; EncodingError exactly on an odd length or a character that is no
hex digit (`spec/46_codec.md` R243, R244). -/
def Obligations.HexdecReadsDigits : Prop :=
  ∀ s : State,
    (s.ilen % 2 = 0 → (∀ j, j < s.ilen → hexVal (s.ibuf.read j) ≠ none) →
      ∃ out, Produces .hexdec s out ∧ out.length = s.ilen / 2 ∧
        ∀ j, 2 * j < s.ilen → ∃ x y, hexVal (s.ibuf.read (2 * j)) = some x ∧ hexVal (s.ibuf.read (2 * j + 1)) = some y ∧
          (out.getD j 0).toNat = 16 * x + y) ∧
    (s.err = none → (s.ilen % 2 = 1 ∨ ∃ j, j < s.ilen ∧ hexVal (s.ibuf.read j) = none) → Raises .hexdec s .encoding) ∧
    ∀ c : Byte, hexVal c =
      (("0123456789abcdef".toList.idxOf? (Char.ofNat c.toNat)).orElse fun _ =>
        "0123456789ABCDEF".toList.idxOf? (Char.ofNat c.toNat))

/-- `B64ENC` writes four characters for each three bytes, most significant six bits first, and ends a last group of one or
two bytes with two or one `=`; CapacityError when the text does not fit (`spec/46_codec.md` R245 to R247). -/
def Obligations.B64encWritesGroups : Prop :=
  ∀ s : State,
    (4 * ((s.ilen + 2) / 3) ≤ s.cfg.nbuf → ∃ out, Produces .b64enc s out ∧ out.length = 4 * ((s.ilen + 2) / 3) ∧
      ∀ q, 3 * q < s.ilen →
        let v := 65536 * (s.input.getD (3 * q) 0).toNat + 256 * (s.input.getD (3 * q + 1) 0).toNat +
          (s.input.getD (3 * q + 2) 0).toNat
        out.getD (4 * q) 0 = b64Char (v / 262144) ∧
        out.getD (4 * q + 1) 0 = b64Char (v / 4096 % 64) ∧
        out.getD (4 * q + 2) 0 = (if 3 * q + 1 < s.ilen then b64Char (v / 64 % 64) else 0x3D) ∧
        out.getD (4 * q + 3) 0 = (if 3 * q + 2 < s.ilen then b64Char (v % 64) else 0x3D)) ∧
    (s.err = none → s.cfg.nbuf < 4 * ((s.ilen + 2) / 3) → Raises .b64enc s .capacity) ∧
    (List.range 64).map b64Char =
      "ABCDEFGHIJKLMNOPQRSTUVWXYZabcdefghijklmnopqrstuvwxyz0123456789+/".toList.map fun c => BitVec.ofNat 8 c.toNat

/-- `B64DEC` accepts exactly the texts of a length that is a multiple of 4 whose characters are of the alphabet but for one
or two `=` at the end, gives three bytes for each four characters, less the pad, and ignores the unused low bits;
EncodingError on every other text (`spec/46_codec.md` R245, R248, R249). -/
def Obligations.B64decReadsGroups : Prop :=
  ∀ s : State,
    (s.ilen % 4 = 0 → (∀ j, j < s.ilen - padCount s.input → b64Val (s.ibuf.read j) ≠ none) →
      ∃ out, Produces .b64dec s out ∧ out.length = 3 * (s.ilen / 4) - padCount s.input ∧
        ∀ q, 4 * q < s.ilen →
          let v := 262144 * ((b64Val (s.ibuf.read (4 * q))).getD 0) + 4096 * ((b64Val (s.ibuf.read (4 * q + 1))).getD 0) +
            64 * ((b64Val (s.ibuf.read (4 * q + 2))).getD 0) + (b64Val (s.ibuf.read (4 * q + 3))).getD 0
          (out.getD (3 * q) 0).toNat = v / 65536 ∧
          (3 * q + 1 < out.length → (out.getD (3 * q + 1) 0).toNat = v / 256 % 256) ∧
          (3 * q + 2 < out.length → (out.getD (3 * q + 2) 0).toNat = v % 256)) ∧
    (s.err = none → (s.ilen % 4 ≠ 0 ∨ ∃ j, j < s.ilen - padCount s.input ∧ b64Val (s.ibuf.read j) = none) →
      Raises .b64dec s .encoding) ∧
    ∀ (c : Byte) (v : Nat), b64Val c = some v ↔ v < 64 ∧ b64Char v = c

/-- Codec round trip: decoding an encoded byte sequence gives it back, as functions and as commands
(`spec/46_codec.md` R250, which the spec derives). -/
def Obligations.CodecRoundTrip : Prop :=
  (∀ m : List Byte, hexDec (hexEnc m) = some m ∧ b64Dec (b64Enc m) = some m) ∧
  (∀ s : State, Inv s → 2 * s.ilen ≤ s.cfg.nbuf →
    ∃ t, runCommands [.hexenc, .xfer, .hexdec] s = .next t ∧ t.output = s.input ∧ t.olen = s.ilen) ∧
  ∀ s : State, Inv s → 4 * ((s.ilen + 2) / 3) ≤ s.cfg.nbuf →
    ∃ t, runCommands [.b64enc, .xfer, .b64dec] s = .next t ∧ t.output = s.input ∧ t.olen = s.ilen

/-! ### The service commands -/

/-- `ENCRYPT`: with a key text of the right length and digits and a result that fits, the keys and their schedules are in
the slots of `alg` and the other slots untouched, for CBC a drawn IV is in `IV`, and the output is the encoded chained
padded input; otherwise KeyLengthError, EncodingError or CapacityError, in that order
(`spec/47_service.md` R261 to R263, `spec/00_scope.md` R17). That the drawn bytes are the next 8 of the list `entropy`, then
those of the free value counted by `drawn`, and what `entropy` and `drawn` are after the draw, is log entry 5. -/
def Obligations.EncryptEncrypts : Prop :=
  ∀ (s : State) (alg : Alg) (mode : ChainMode) (enc : TextEnc),
    (∀ kb, s.klen = keyTextLength alg → hexDec s.keyText = some kb →
      textLength enc (8 * (s.ilen / 8 + 1)) ≤ s.cfg.nbuf →
      ∃ t, exec (.encrypt alg mode enc) s = .next t ∧
        (∀ k, (alg = .tdes ∨ k = .k1) → t.key.get k = (splitKeys alg kb).get k ∧ t.kv.get k = true ∧
          t.rk.get k = keySchedule ((splitKeys alg kb).get k) ∧ t.rkv.get k = true) ∧
        (∀ k, ¬ (alg = .tdes ∨ k = .k1) → t.key.get k = s.key.get k ∧ t.kv.get k = s.kv.get k ∧
          t.rk.get k = s.rk.get k ∧ t.rkv.get k = s.rkv.get k) ∧
        (mode = .ecb → t.iv = s.iv ∧ t.ivv = s.ivv ∧ t.entropy = s.entropy ∧ t.drawn = s.drawn) ∧
        (mode = .cbc → t.iv = be64 (s.randBytes 8) ∧ t.ivv = true ∧ t.entropy = s.entropy.drop 8 ∧
          t.drawn = s.drawn + (8 - s.entropy.length)) ∧
        t.output = encodeText enc (chainEnc alg mode (pad s.input) t.rk t.iv) ∧
        t.olen = textLength enc (8 * (s.ilen / 8 + 1)) ∧
        t = { s with
          key := t.key, kv := t.kv, rk := t.rk, rkv := t.rkv, iv := t.iv, ivv := t.ivv, entropy := t.entropy,
          drawn := t.drawn, obuf := t.obuf, olen := t.olen }) ∧
    (s.err = none → s.klen ≠ keyTextLength alg → Raises (.encrypt alg mode enc) s .keyLength) ∧
    (s.err = none → s.klen = keyTextLength alg → hexDec s.keyText = none → Raises (.encrypt alg mode enc) s .encoding) ∧
    (s.err = none → s.klen = keyTextLength alg → hexDec s.keyText ≠ none →
      s.cfg.nbuf < textLength enc (8 * (s.ilen / 8 + 1)) → Raises (.encrypt alg mode enc) s .capacity)

/-- When no command of it raises an error, the sequence `LOADKEY`, `KSCHED`s, `GENIV` for CBC, `PAD`, `XFER`, the chaining
command, `XFER`, the encoder leaves what the one command `ENCRYPT` leaves, but for `IBUF` and `ILEN`
(`spec/47_service.md` R264, which the spec derives). -/
def Obligations.EncryptEqualsTheUnitPipeline : Prop :=
  ∀ (s t : State) (alg : Alg) (mode : ChainMode) (enc : TextEnc), Inv s → s.err = none →
    runCommands (unitPipeline alg mode enc) s = .next t → t.err = none →
    ∃ u, exec (.encrypt alg mode enc) s = .next u ∧ t = { u with ibuf := t.ibuf, ilen := t.ilen }

/-- `DECRYPT`: decode, check the length and the IV, decrypt, unpad; on success the keys and schedules are in the slots of
`alg` and the output is the plaintext, `IV` untouched; the first stage that fails gives its error, in the order of the
spec, and nothing but the latch changes (`spec/47_service.md` R265, R266). -/
def Obligations.DecryptDecrypts : Prop :=
  ∀ (s : State) (alg : Alg) (mode : ChainMode) (enc : TextEnc),
    (∀ kb c r, s.klen = keyTextLength alg → hexDec s.keyText = some kb → decodeText enc s.input = some c →
      0 < c.length → c.length % 8 = 0 → (mode = .cbc → s.ivv = true) →
      unpad (chainDec alg mode c ((splitKeys alg kb).map keySchedule) s.iv) = some r →
      ∃ t, exec (.decrypt alg mode enc) s = .next t ∧
        (∀ k, (alg = .tdes ∨ k = .k1) → t.key.get k = (splitKeys alg kb).get k ∧ t.kv.get k = true ∧
          t.rk.get k = keySchedule ((splitKeys alg kb).get k) ∧ t.rkv.get k = true) ∧
        (∀ k, ¬ (alg = .tdes ∨ k = .k1) → t.key.get k = s.key.get k ∧ t.kv.get k = s.kv.get k ∧
          t.rk.get k = s.rk.get k ∧ t.rkv.get k = s.rkv.get k) ∧
        t.output = r ∧ t.olen = r.length ∧ t.olen < s.ilen ∧
        t = { s with key := t.key, kv := t.kv, rk := t.rk, rkv := t.rkv, obuf := t.obuf, olen := t.olen }) ∧
    (s.err = none →
      (s.klen ≠ keyTextLength alg → Raises (.decrypt alg mode enc) s .keyLength) ∧
      (s.klen = keyTextLength alg → hexDec s.keyText = none → Raises (.decrypt alg mode enc) s .encoding) ∧
      ∀ kb, s.klen = keyTextLength alg → hexDec s.keyText = some kb →
        (decodeText enc s.input = none → Raises (.decrypt alg mode enc) s .encoding) ∧
        ∀ c, decodeText enc s.input = some c →
          (¬ (0 < c.length ∧ c.length % 8 = 0) ∨ (mode = .cbc ∧ s.ivv = false) →
            Raises (.decrypt alg mode enc) s .format) ∧
          (0 < c.length → c.length % 8 = 0 → (mode = .cbc → s.ivv = true) →
            unpad (chainDec alg mode c ((splitKeys alg kb).map keySchedule) s.iv) = none →
            Raises (.decrypt alg mode enc) s .padding))

/-- Round trip: if `ENCRYPT` completes, `XFER` and `DECRYPT` with the same fields complete and give the plaintext back, for
every plaintext, key, mode, algorithm and encoding (`spec/47_service.md` R267). -/
def Obligations.ServiceRoundTrip : Prop :=
  ∀ (s t : State) (alg : Alg) (mode : ChainMode) (enc : TextEnc), Inv s →
    exec (.encrypt alg mode enc) s = .next t → t.err = none →
    ∃ u, runCommands [.xfer, .decrypt alg mode enc] t = .next u ∧ u.err = none ∧ u.output = s.input ∧ u.olen = s.ilen

/-- `GENKEY` answers the next 8 or 24 bytes of the entropy source as lower-case hex text of 16 or 48 characters, never fails,
and loads nothing; with a fixed sequence as the source they are its next bytes (`spec/47_service.md` R268,
`spec/00_scope.md` R17; the bytes after the sequence has run out are the free value of log entry 5). -/
def Obligations.GenkeyDrawsAKeyText : Prop :=
  ∀ (s : State) (alg : Alg) (n : Nat), (alg, n) ∈ [(Alg.des, 8), (Alg.tdes, 24)] →
    (∃ t, exec (.genkey alg) s = .next t ∧ t.olen = 2 * n ∧ t.output = hexEnc (s.randBytes n) ∧
      (s.randBytes n).length = n ∧
      t = { s with obuf := t.obuf, olen := t.olen, entropy := t.entropy, drawn := t.drawn }) ∧
    ∀ draw rest : List Byte, draw.length = n → s.entropy = draw ++ rest →
      ∃ t, exec (.genkey alg) s = .next t ∧ t.output = hexEnc draw ∧ t.entropy = rest ∧ t.drawn = s.drawn

/-- The service commands use no key, schedule or result left by an earlier command: from two states that agree on the key
text, the input, the entropy, the parameters, and for `DECRYPT` in CBC mode the IV, they end with the same output and the same latched error
(`spec/47_service.md` R269). -/
def Obligations.ServiceIgnoresLoadedKeys : Prop :=
  ∀ (s s' t : State) (i : Instr),
    (∃ alg mode enc, i = .encrypt alg mode enc ∨ i = .decrypt alg mode enc ∨ i = .genkey alg) →
    s'.klen = s.klen → s'.keyText = s.keyText → s'.ilen = s.ilen → s'.input = s.input →
    ((∃ alg enc, i = .decrypt alg .cbc enc) → s'.iv = s.iv ∧ s'.ivv = s.ivv) →
    s'.entropy = s.entropy → s'.drawn = s.drawn → s'.cfg = s.cfg → s.err = none → s'.err = none →
    exec i s = .next t → ∃ t', exec i s' = .next t' ∧ t'.output = t.output ∧ t'.olen = t.olen ∧ t'.err = t.err

/-! ### Frames and invariants -/

/-- The registers a command does not write keep their values: keys, schedules, IV and entropy by the lists of writers in
the spec, slot by slot for DES and `KSCHED`; parameters and the host's side always (`spec/10_state.md` R31, R32, R34;
`spec/60_exceptions.md` R317; `spec/30_encoding.md` R103, R104). -/
def Obligations.CommandsKeepOtherRegisters : Prop :=
  ∀ (i : Instr) (s t : State), exec i s = .next t →
    (writesKey i = false → t.key = s.key ∧ t.kv = s.kv) ∧
    (writesSchedule i = false → t.rk = s.rk ∧ t.rkv = s.rkv) ∧
    (writesIv i = false → t.iv = s.iv ∧ t.ivv = s.ivv) ∧
    (drawsEntropy i = false → t.entropy = s.entropy ∧ t.drawn = s.drawn) ∧
    (t.cfg = s.cfg ∧ t.pending = s.pending ∧ t.reply = s.reply) ∧
    (∀ k, k ≠ .k1 → (i = .loadkey .des ∨ ∃ mode enc, i = .encrypt .des mode enc ∨ i = .decrypt .des mode enc) →
      t.key.get k = s.key.get k ∧ t.kv.get k = s.kv.get k ∧ t.rk.get k = s.rk.get k ∧ t.rkv.get k = s.rkv.get k) ∧
    ∀ (ks : BitVec 2) (k j : Slot), (ks, k) ∈ slotFields → i = .ksched ks → j ≠ k →
      t.rk.get j = s.rk.get j ∧ t.rkv.get j = s.rkv.get j

/-- The memory a command does not write reads as before. `KBUF` and `KLEN` change by `ZEROIZE` only; `IBUF` and `ILEN` by
`ZEROIZE` and `XFER` only, and `XFER` changes no byte but `IBUF[0..OLEN-1]`; `OBUF` and `OLEN` by the commands that put
out data, by `ZEROIZE`, and by an error (`spec/10_state.md` R35 to R37, `spec/70_reset_and_hazards.md` R351). -/
def Obligations.CommandsKeepOtherMemory : Prop :=
  ∀ (i : Instr) (s t : State), Inv s → exec i s = .next t →
    (i ≠ .zeroize → t.kbuf = s.kbuf ∧ t.klen = s.klen) ∧
    (i ≠ .zeroize → i ≠ .xfer → t.ilen = s.ilen ∧ ∀ off, ¬ inObuf s.cfg off → t.readByte off = s.readByte off) ∧
    (i = .xfer → ∀ off, ¬ (0x10000 ≤ off ∧ off < 0x10000 + s.olen) → t.readByte off = s.readByte off) ∧
    (producesOutput i = false → i ≠ .zeroize → (t.err = none ∨ s.err ≠ none) →
      t.olen = s.olen ∧ ∀ off, inObuf s.cfg off → t.readByte off = s.readByte off)

/-- A step keeps the invariant of `spec/10_state.md` R49, whatever the host does, and whatever the entropy source answers:
lengths within capacity, a valid schedule is the schedule of its slot's key, what is not valid is zero, the latch and
its word agree, a latched error leaves no output, and the buffers stay in canonical form. -/
def Obligations.StepKeepsTheInvariant : Prop :=
  ∀ s t : State, Inv s → step s = .next t → Inv t

/-- The invariant holds after reset, with every value of the parameters the spec allows, and of the entropy source and the
host (`spec/10_state.md` R48, R49). -/
def Obligations.ResetSatisfiesTheInvariant : Prop :=
  Inv State.reset ∧
  ∀ (c : Config) (entropy : List Byte) (actions : List HostAction), c.Valid → Inv (State.initial c entropy actions)

/-- R49 in every reachable state: (a) to (f), in the spec's own terms (`spec/10_state.md` R49, which the spec derives). -/
def Obligations.ReachableStatesSatisfyR49 : Prop :=
  ∀ s : State, Reachable s →
    (s.ilen ≤ s.cfg.nbuf ∧ s.olen ≤ s.cfg.nbuf ∧ s.klen ≤ 64) ∧
    (∀ k, s.rkv.get k = true → s.kv.get k = true ∧ ∀ j : Fin 16, (s.rk.get k)[j] = (keySchedule (s.key.get k))[j]) ∧
    (∀ k, s.kv.get k = false → s.key.get k = 0) ∧
    (∀ k, s.rkv.get k = false → ∀ j : Fin 16, (s.rk.get k)[j] = 0) ∧ (s.ivv = false → s.iv = 0) ∧
    (errField s.err = 0 ↔ s.ecmd = 0) ∧ (errField s.err ≠ 0 → s.olen = 0) ∧ (errField s.err).toNat ≤ 7

/-! ### What the host reads -/

/-- The host's pseudo-instructions that read answer what they are for: `RDO` the bytes of the result, as many as `OLEN`,
`RDIV` the IV, `RDS` the status and `RDE` the recorded command word; the state is the same but for the bus's answer
(`spec/30_encoding.md` R114, by `spec/20_memory.md` R74 and R77). That the bus's last answer is a field is log entry 6. -/
def Obligations.PseudoInstructionsReadResults : Prop :=
  ∀ s : State, Inv s →
    (∃ r, runRdo s = some (s.output, { s with reply := r })) ∧
    runRdiv s = some (s.iv, { s with reply := .word (s.iv.extractLsb' 0 32) }) ∧
    runRds s = some (s.statusWord, { s with reply := .word s.statusWord }) ∧
    runRde s = some (s.ecmd, { s with reply := .word s.ecmd })

end
end

