-- ==== Sys2Proof/Laws/Memory.lean ====
section
/-! SUPPORT. The laws of the byte buffers: a read after a write, every operation keeps the canonical form, a byte sequence
stored is the one loaded, and equal reads of canonical buffers mean equal buffers. -/

namespace Sys2Proof.Machine

@[simp] theorem Memory.read_nil (i : Nat) : Memory.read [] i = 0 := rfl

theorem Memory.read_cons (a : Nat) (v : Byte) (rest : Memory) (i : Nat) :
    Memory.read ((a, v) :: rest) i = if a = i then v else Memory.read rest i := rfl

theorem Memory.wf_nil : Memory.wf [] := ⟨List.Pairwise.nil, by simp⟩

theorem Memory.below_nil (n : Nat) : Memory.below [] n := by simp [Memory.below]

theorem Memory.wf_tail {c : Host.Cell} {m : Memory} (h : Memory.wf (c :: m)) : Memory.wf m :=
  ⟨(List.pairwise_cons.mp h.1).2, fun d hd => h.2 d (List.mem_cons_of_mem _ hd)⟩

theorem Memory.wf_head_lt {c : Host.Cell} {m : Memory} (h : Memory.wf (c :: m)) : ∀ d ∈ m, c.1 < d.1 :=
  (List.pairwise_cons.mp h.1).1

/-- An index that no entry has reads as zero. -/
theorem Memory.read_unlisted {m : Memory} {i : Nat} (h : ∀ c ∈ m, c.1 ≠ i) : Memory.read m i = 0 := by
  induction m with
  | nil => rfl
  | cons c m ih =>
    obtain ⟨a, v⟩ := c
    have ha : a ≠ i := h (a, v) (by simp)
    simp only [Memory.read, if_neg ha]
    exact ih fun d hd => h d (List.mem_cons_of_mem _ hd)

/-- An index below the first entry of a canonical buffer reads as zero. -/
theorem Memory.read_before {c : Host.Cell} {m : Memory} {i : Nat} (h : Memory.wf (c :: m)) (hi : i < c.1) :
    Memory.read (c :: m) i = 0 := by
  refine Memory.read_unlisted fun d hd => ?_
  rcases List.mem_cons.mp hd with rfl | hd
  · omega
  · have := Memory.wf_head_lt h d hd
    omega

/-- A read after a write: the written byte at its index, the old byte everywhere else. -/
theorem Memory.read_write {m : Memory} (h : m.wf) (i : Nat) (b : Byte) (j : Nat) :
    (m.write i b).read j = if j = i then b else m.read j := by
  induction m with
  | nil =>
    rw [show Memory.write [] i b = if b = 0 then [] else [(i, b)] from rfl]
    by_cases hb : b = 0
    · rw [if_pos hb, hb, Memory.read_nil, ite_self]
    · rw [if_neg hb, Memory.read_cons, Memory.read_nil]
      by_cases hj : j = i
      · rw [if_pos hj, if_pos hj.symm]
      · rw [if_neg hj, if_neg (Ne.symm hj)]
  | cons c m ih =>
    obtain ⟨a, v⟩ := c
    have ht := Memory.wf_tail h
    simp only [Memory.write]
    by_cases hia : i < a
    · rw [if_pos hia]
      by_cases hb : b = 0
      · rw [if_pos hb]
        by_cases hj : j = i
        · subst hj; rw [if_pos rfl, hb]; exact Memory.read_before h hia
        · rw [if_neg hj]
      · rw [if_neg hb]
        by_cases hj : j = i
        · subst hj; simp [Memory.read]
        · rw [if_neg hj, Memory.read_cons, if_neg (Ne.symm hj)]
    · rw [if_neg hia]
      by_cases hai : a = i
      · subst hai
        rw [if_pos rfl]
        by_cases hb : b = 0
        · rw [if_pos hb]
          by_cases hj : j = a
          · subst hj
            rw [if_pos rfl, hb]
            refine Memory.read_unlisted fun d hd => ?_
            have := Memory.wf_head_lt h d hd
            simp only at this
            omega
          · rw [if_neg hj, Memory.read_cons, if_neg (Ne.symm hj)]
        · rw [if_neg hb]
          by_cases hj : j = a
          · subst hj; simp [Memory.read]
          · rw [if_neg hj, Memory.read_cons, Memory.read_cons, if_neg (Ne.symm hj), if_neg (Ne.symm hj)]
      · rw [if_neg hai, Memory.read_cons, ih ht, Memory.read_cons]
        by_cases haj : a = j
        · subst haj; rw [if_pos rfl, if_neg hai, if_pos rfl]
        · rw [if_neg haj, if_neg haj]

/-- An entry after a write is the written one or an old one at another index. -/
theorem Memory.mem_write {m : Memory} {i : Nat} {b : Byte} {c : Host.Cell} (h : c ∈ m.write i b) :
    (c = (i, b) ∧ b ≠ 0) ∨ c ∈ m := by
  induction m with
  | nil =>
    simp only [Memory.write] at h
    by_cases hb : b = 0 <;> simp_all
  | cons d m ih =>
    obtain ⟨a, v⟩ := d
    simp only [Memory.write] at h
    by_cases hia : i < a
    · rw [if_pos hia] at h
      by_cases hb : b = 0
      · rw [if_pos hb] at h
        exact .inr h
      · rw [if_neg hb] at h
        rcases List.mem_cons.mp h with h | h
        · exact .inl ⟨h, hb⟩
        · exact .inr h
    · rw [if_neg hia] at h
      by_cases hai : a = i
      · rw [if_pos hai] at h
        by_cases hb : b = 0
        · rw [if_pos hb] at h
          exact .inr (List.mem_cons_of_mem _ h)
        · rw [if_neg hb] at h
          rcases List.mem_cons.mp h with h | h
          · exact .inl ⟨h, hb⟩
          · exact .inr (List.mem_cons_of_mem _ h)
      · rw [if_neg hai] at h
        rcases List.mem_cons.mp h with h | h
        · exact .inr (h ▸ by simp)
        · rcases ih h with h | h
          · exact .inl h
          · exact .inr (List.mem_cons_of_mem _ h)

/-- A write keeps the canonical form. -/
theorem Memory.wf_write {m : Memory} (h : m.wf) (i : Nat) (b : Byte) : (m.write i b).wf := by
  induction m with
  | nil =>
    rw [show Memory.write [] i b = if b = 0 then [] else [(i, b)] from rfl]
    by_cases hb : b = 0
    · rw [if_pos hb]; exact h
    · rw [if_neg hb]
      exact ⟨List.pairwise_singleton _ _, fun c hc => by rw [List.mem_singleton.mp hc]; exact hb⟩
  | cons c m ih =>
    obtain ⟨a, v⟩ := c
    have ht := Memory.wf_tail h
    simp only [Memory.write]
    by_cases hia : i < a
    · rw [if_pos hia]
      by_cases hb : b = 0
      · rw [if_pos hb]; exact h
      · rw [if_neg hb]
        refine ⟨List.pairwise_cons.mpr ⟨fun d hd => ?_, h.1⟩, fun d hd => ?_⟩
        · rcases List.mem_cons.mp hd with rfl | hd
          · exact hia
          · exact lt_trans hia (Memory.wf_head_lt h d hd)
        · rcases List.mem_cons.mp hd with rfl | hd
          · exact hb
          · exact h.2 d hd
    · rw [if_neg hia]
      by_cases hai : a = i
      · subst hai
        rw [if_pos rfl]
        by_cases hb : b = 0
        · rw [if_pos hb]; exact ht
        · rw [if_neg hb]
          refine ⟨List.pairwise_cons.mpr ⟨fun d hd => Memory.wf_head_lt h d hd, ht.1⟩, fun d hd => ?_⟩
          rcases List.mem_cons.mp hd with rfl | hd
          · exact hb
          · exact ht.2 d hd
      · rw [if_neg hai]
        refine ⟨List.pairwise_cons.mpr ⟨fun d hd => ?_, (ih ht).1⟩, fun d hd => ?_⟩
        · rcases Memory.mem_write hd with ⟨rfl, -⟩ | hd
          · show a < i
            omega
          · exact Memory.wf_head_lt h d hd
        · rcases List.mem_cons.mp hd with rfl | hd
          · exact h.2 _ (by simp)
          · exact (ih ht).2 d hd

/-- A write below a bound keeps the buffer below it. -/
theorem Memory.below_write {m : Memory} {n : Nat} (h : m.below n) {i : Nat} (hi : i < n) (b : Byte) :
    (m.write i b).below n := fun c hc => by
  rcases Memory.mem_write hc with ⟨rfl, -⟩ | hc
  · exact hi
  · exact h c hc

theorem Memory.wf_store {m : Memory} (h : m.wf) (bytes : List Byte) : ∀ i, (m.store i bytes).wf := by
  induction bytes generalizing m with
  | nil => intro i; exact h
  | cons b bytes ih => intro i; exact ih (Memory.wf_write h i b) (i + 1)

theorem Memory.below_store {m : Memory} {n : Nat} (h : m.below n) (bytes : List Byte) :
    ∀ i, i + bytes.length ≤ n → (m.store i bytes).below n := by
  induction bytes generalizing m with
  | nil => intro i _; exact h
  | cons b bytes ih =>
    intro i hi
    simp only [List.length_cons] at hi
    exact ih (Memory.below_write h (by omega) b) (i + 1) (by omega)

/-- A read after a byte sequence was stored from index `i` up. -/
theorem Memory.read_store {m : Memory} (h : m.wf) (bytes : List Byte) :
    ∀ i j, (m.store i bytes).read j =
      if i ≤ j ∧ j < i + bytes.length then bytes.getD (j - i) 0 else m.read j := by
  induction bytes generalizing m with
  | nil =>
    intro i j
    rw [if_neg (by simp only [List.length_nil]; omega)]
    rfl
  | cons b bytes ih =>
    intro i j
    rw [show Memory.store m i (b :: bytes) = (m.write i b).store (i + 1) bytes from rfl,
      ih (Memory.wf_write h i b), Memory.read_write h]
    by_cases hj : i = j
    · subst hj
      rw [if_neg (by omega), if_pos rfl, if_pos (by simp), Nat.sub_self, List.getD_cons_zero]
    · rw [if_neg (Ne.symm hj)]
      by_cases hr : i + 1 ≤ j ∧ j < i + 1 + bytes.length
      · rw [if_pos hr, if_pos (by simp only [List.length_cons]; omega),
          show j - i = (j - (i + 1)) + 1 by omega, List.getD_cons_succ]
      · rw [if_neg hr, if_neg (by simp only [List.length_cons]; omega)]

theorem Memory.wf_ofBytes (bytes : List Byte) : (Memory.ofBytes bytes).wf := Memory.wf_store Memory.wf_nil bytes 0

theorem Memory.below_ofBytes (bytes : List Byte) : (Memory.ofBytes bytes).below bytes.length :=
  Memory.below_store (Memory.below_nil _) bytes 0 (by omega)

theorem Memory.read_ofBytes (bytes : List Byte) (j : Nat) : (Memory.ofBytes bytes).read j = bytes.getD j 0 := by
  rw [Memory.ofBytes, Memory.read_store Memory.wf_nil]
  by_cases h : j < bytes.length
  · rw [if_pos (by omega), Nat.sub_zero]
  · rw [if_neg (by omega), Memory.read_nil, List.getD_eq_default _ _ (by omega)]

@[simp] theorem Memory.length_load (m : Memory) (n : Nat) : ∀ i, (m.load i n).length = n := by
  induction n with
  | zero => intro i; rfl
  | succ n ih => intro i; simp [Memory.load, ih]

/-- Byte `j` of a loaded sequence. -/
theorem Memory.getElem_load (m : Memory) (n : Nat) :
    ∀ i j (h : j < (m.load i n).length), (m.load i n)[j] = m.read (i + j) := by
  induction n with
  | zero => intro i j h; simp [Memory.load] at h
  | succ n ih =>
    intro i j h
    cases j with
    | zero => rfl
    | succ j =>
      simp only [Memory.load, List.getElem_cons_succ]
      rw [ih (i + 1) j]
      congr 1
      omega

/-- The loaded sequence depends on the bytes read only. -/
theorem Memory.load_congr {m m' : Memory} {i i' n : Nat} (h : ∀ j < n, m.read (i + j) = m'.read (i' + j)) :
    m.load i n = m'.load i' n := by
  refine List.ext_getElem (by simp) fun j h1 h2 => ?_
  rw [Memory.getElem_load, Memory.getElem_load]
  exact h j (by simpa using h1)

/-- A sequence stored from index 0 is the sequence loaded. -/
theorem Memory.load_store {m : Memory} (h : m.wf) (bytes : List Byte) :
    (m.store 0 bytes).load 0 bytes.length = bytes := by
  refine List.ext_getElem (by simp) fun j h1 h2 => ?_
  rw [Memory.getElem_load, Memory.read_store h, if_pos (by omega)]
  simp [List.getD_eq_getElem?_getD, List.getElem?_eq_getElem h2]

theorem Memory.load_ofBytes (bytes : List Byte) : (Memory.ofBytes bytes).load 0 bytes.length = bytes :=
  Memory.load_store Memory.wf_nil bytes

/-- Canonical buffers that read alike are equal. -/
theorem Memory.ext_of_wf : ∀ {m m' : Memory}, m.wf → m'.wf → (∀ i, m.read i = m'.read i) → m = m' := by
  intro m
  induction m with
  | nil =>
    intro m' _ h' he
    cases m' with
    | nil => rfl
    | cons c m' =>
      have := he c.1
      rw [Memory.read_nil, show Memory.read (c :: m') c.1 = c.2 by simp [Memory.read]] at this
      exact absurd this.symm (h'.2 c (by simp))
  | cons c m ih =>
    intro m' h h' he
    cases m' with
    | nil =>
      have := he c.1
      rw [Memory.read_nil, show Memory.read (c :: m) c.1 = c.2 by simp [Memory.read]] at this
      exact absurd this (h.2 c (by simp))
    | cons d m' =>
      have hc : Memory.read (c :: m) c.1 = c.2 := by simp [Memory.read]
      have hd : Memory.read (d :: m') d.1 = d.2 := by simp [Memory.read]
      have hkey : c.1 = d.1 := by
        rcases lt_trichotomy c.1 d.1 with hlt | heq | hgt
        · have := he c.1
          rw [hc, Memory.read_before h' hlt] at this
          exact absurd this (h.2 c (by simp))
        · exact heq
        · have := he d.1
          rw [hd, Memory.read_before h hgt] at this
          exact absurd this.symm (h'.2 d (by simp))
      have hval : c.2 = d.2 := by rw [← hc, ← hd, ← hkey]; exact he c.1
      have hcd : c = d := Prod.ext hkey hval
      subst hcd
      congr 1
      refine ih (Memory.wf_tail h) (Memory.wf_tail h') fun i => ?_
      by_cases hi : c.1 = i
      · subst hi
        rw [Memory.read_unlisted fun e he => by have := Memory.wf_head_lt h e he; omega,
          Memory.read_unlisted fun e he => by have := Memory.wf_head_lt h' e he; omega]
      · have := he i
        rwa [show Memory.read (c :: m) i = Memory.read m i by simp [Memory.read, hi],
          show Memory.read (c :: m') i = Memory.read m' i by simp [Memory.read, hi]] at this

end Sys2Proof.Machine
end

