-- ==== Sys2Proof/Laws/State.lean ====
section
/-! SUPPORT. What each named update of State leaves in each field, true by definition, so that no later proof unfolds a
record update; and the laws of the three slots. -/

namespace Sys2Proof.Machine

section consume

variable (s : State) (n : Nat)

@[simp] theorem State.consume_key : (s.consume n).key = s.key := rfl
@[simp] theorem State.consume_kv : (s.consume n).kv = s.kv := rfl
@[simp] theorem State.consume_rk : (s.consume n).rk = s.rk := rfl
@[simp] theorem State.consume_rkv : (s.consume n).rkv = s.rkv := rfl
@[simp] theorem State.consume_iv : (s.consume n).iv = s.iv := rfl
@[simp] theorem State.consume_ivv : (s.consume n).ivv = s.ivv := rfl
@[simp] theorem State.consume_kbuf : (s.consume n).kbuf = s.kbuf := rfl
@[simp] theorem State.consume_klen : (s.consume n).klen = s.klen := rfl
@[simp] theorem State.consume_ibuf : (s.consume n).ibuf = s.ibuf := rfl
@[simp] theorem State.consume_ilen : (s.consume n).ilen = s.ilen := rfl
@[simp] theorem State.consume_obuf : (s.consume n).obuf = s.obuf := rfl
@[simp] theorem State.consume_olen : (s.consume n).olen = s.olen := rfl
@[simp] theorem State.consume_err : (s.consume n).err = s.err := rfl
@[simp] theorem State.consume_ecmd : (s.consume n).ecmd = s.ecmd := rfl
@[simp] theorem State.consume_cfg : (s.consume n).cfg = s.cfg := rfl
@[simp] theorem State.consume_entropy : (s.consume n).entropy = s.entropy.drop n := rfl
@[simp] theorem State.consume_drawn : (s.consume n).drawn = s.drawn + (n - s.entropy.length) := rfl
@[simp] theorem State.consume_pending : (s.consume n).pending = s.pending := rfl
@[simp] theorem State.consume_reply : (s.consume n).reply = s.reply := rfl

end consume

section drawIv

variable (s : State)

@[simp] theorem State.drawIv_key : (s.drawIv).key = s.key := rfl
@[simp] theorem State.drawIv_kv : (s.drawIv).kv = s.kv := rfl
@[simp] theorem State.drawIv_rk : (s.drawIv).rk = s.rk := rfl
@[simp] theorem State.drawIv_rkv : (s.drawIv).rkv = s.rkv := rfl
@[simp] theorem State.drawIv_iv : (s.drawIv).iv = be64 (s.randBytes 8) := rfl
@[simp] theorem State.drawIv_ivv : (s.drawIv).ivv = true := rfl
@[simp] theorem State.drawIv_kbuf : (s.drawIv).kbuf = s.kbuf := rfl
@[simp] theorem State.drawIv_klen : (s.drawIv).klen = s.klen := rfl
@[simp] theorem State.drawIv_ibuf : (s.drawIv).ibuf = s.ibuf := rfl
@[simp] theorem State.drawIv_ilen : (s.drawIv).ilen = s.ilen := rfl
@[simp] theorem State.drawIv_obuf : (s.drawIv).obuf = s.obuf := rfl
@[simp] theorem State.drawIv_olen : (s.drawIv).olen = s.olen := rfl
@[simp] theorem State.drawIv_err : (s.drawIv).err = s.err := rfl
@[simp] theorem State.drawIv_ecmd : (s.drawIv).ecmd = s.ecmd := rfl
@[simp] theorem State.drawIv_cfg : (s.drawIv).cfg = s.cfg := rfl
@[simp] theorem State.drawIv_entropy : (s.drawIv).entropy = s.entropy.drop 8 := rfl
@[simp] theorem State.drawIv_drawn : (s.drawIv).drawn = s.drawn + (8 - s.entropy.length) := rfl
@[simp] theorem State.drawIv_pending : (s.drawIv).pending = s.pending := rfl
@[simp] theorem State.drawIv_reply : (s.drawIv).reply = s.reply := rfl

end drawIv

section emit

variable (s : State) (out : List Byte)

@[simp] theorem State.emit_key : (s.emit out).key = s.key := rfl
@[simp] theorem State.emit_kv : (s.emit out).kv = s.kv := rfl
@[simp] theorem State.emit_rk : (s.emit out).rk = s.rk := rfl
@[simp] theorem State.emit_rkv : (s.emit out).rkv = s.rkv := rfl
@[simp] theorem State.emit_iv : (s.emit out).iv = s.iv := rfl
@[simp] theorem State.emit_ivv : (s.emit out).ivv = s.ivv := rfl
@[simp] theorem State.emit_kbuf : (s.emit out).kbuf = s.kbuf := rfl
@[simp] theorem State.emit_klen : (s.emit out).klen = s.klen := rfl
@[simp] theorem State.emit_ibuf : (s.emit out).ibuf = s.ibuf := rfl
@[simp] theorem State.emit_ilen : (s.emit out).ilen = s.ilen := rfl
@[simp] theorem State.emit_obuf : (s.emit out).obuf = Memory.ofBytes out := rfl
@[simp] theorem State.emit_olen : (s.emit out).olen = out.length := rfl
@[simp] theorem State.emit_err : (s.emit out).err = s.err := rfl
@[simp] theorem State.emit_ecmd : (s.emit out).ecmd = s.ecmd := rfl
@[simp] theorem State.emit_cfg : (s.emit out).cfg = s.cfg := rfl
@[simp] theorem State.emit_entropy : (s.emit out).entropy = s.entropy := rfl
@[simp] theorem State.emit_drawn : (s.emit out).drawn = s.drawn := rfl
@[simp] theorem State.emit_pending : (s.emit out).pending = s.pending := rfl
@[simp] theorem State.emit_reply : (s.emit out).reply = s.reply := rfl

end emit

section failed

variable (s : State) (e : ErrorKind) (w : Word)

@[simp] theorem State.failed_key : (s.failed e w).key = s.key := rfl
@[simp] theorem State.failed_kv : (s.failed e w).kv = s.kv := rfl
@[simp] theorem State.failed_rk : (s.failed e w).rk = s.rk := rfl
@[simp] theorem State.failed_rkv : (s.failed e w).rkv = s.rkv := rfl
@[simp] theorem State.failed_iv : (s.failed e w).iv = s.iv := rfl
@[simp] theorem State.failed_ivv : (s.failed e w).ivv = s.ivv := rfl
@[simp] theorem State.failed_kbuf : (s.failed e w).kbuf = s.kbuf := rfl
@[simp] theorem State.failed_klen : (s.failed e w).klen = s.klen := rfl
@[simp] theorem State.failed_ibuf : (s.failed e w).ibuf = s.ibuf := rfl
@[simp] theorem State.failed_ilen : (s.failed e w).ilen = s.ilen := rfl
@[simp] theorem State.failed_obuf : (s.failed e w).obuf = [] := rfl
@[simp] theorem State.failed_olen : (s.failed e w).olen = 0 := rfl
@[simp] theorem State.failed_err : (s.failed e w).err = some e := rfl
@[simp] theorem State.failed_ecmd : (s.failed e w).ecmd = w := rfl
@[simp] theorem State.failed_cfg : (s.failed e w).cfg = s.cfg := rfl
@[simp] theorem State.failed_entropy : (s.failed e w).entropy = s.entropy := rfl
@[simp] theorem State.failed_drawn : (s.failed e w).drawn = s.drawn := rfl
@[simp] theorem State.failed_pending : (s.failed e w).pending = s.pending := rfl
@[simp] theorem State.failed_reply : (s.failed e w).reply = s.reply := rfl

end failed

section clearError

variable (s : State)

@[simp] theorem State.clearError_key : (s.clearError).key = s.key := rfl
@[simp] theorem State.clearError_kv : (s.clearError).kv = s.kv := rfl
@[simp] theorem State.clearError_rk : (s.clearError).rk = s.rk := rfl
@[simp] theorem State.clearError_rkv : (s.clearError).rkv = s.rkv := rfl
@[simp] theorem State.clearError_iv : (s.clearError).iv = s.iv := rfl
@[simp] theorem State.clearError_ivv : (s.clearError).ivv = s.ivv := rfl
@[simp] theorem State.clearError_kbuf : (s.clearError).kbuf = s.kbuf := rfl
@[simp] theorem State.clearError_klen : (s.clearError).klen = s.klen := rfl
@[simp] theorem State.clearError_ibuf : (s.clearError).ibuf = s.ibuf := rfl
@[simp] theorem State.clearError_ilen : (s.clearError).ilen = s.ilen := rfl
@[simp] theorem State.clearError_obuf : (s.clearError).obuf = s.obuf := rfl
@[simp] theorem State.clearError_olen : (s.clearError).olen = s.olen := rfl
@[simp] theorem State.clearError_err : (s.clearError).err = none := rfl
@[simp] theorem State.clearError_ecmd : (s.clearError).ecmd = 0 := rfl
@[simp] theorem State.clearError_cfg : (s.clearError).cfg = s.cfg := rfl
@[simp] theorem State.clearError_entropy : (s.clearError).entropy = s.entropy := rfl
@[simp] theorem State.clearError_drawn : (s.clearError).drawn = s.drawn := rfl
@[simp] theorem State.clearError_pending : (s.clearError).pending = s.pending := rfl
@[simp] theorem State.clearError_reply : (s.clearError).reply = s.reply := rfl

end clearError

section clearAll

variable (s : State)

@[simp] theorem State.clearAll_key : (s.clearAll).key = State.reset.key := rfl
@[simp] theorem State.clearAll_kv : (s.clearAll).kv = State.reset.kv := rfl
@[simp] theorem State.clearAll_rk : (s.clearAll).rk = State.reset.rk := rfl
@[simp] theorem State.clearAll_rkv : (s.clearAll).rkv = State.reset.rkv := rfl
@[simp] theorem State.clearAll_iv : (s.clearAll).iv = State.reset.iv := rfl
@[simp] theorem State.clearAll_ivv : (s.clearAll).ivv = State.reset.ivv := rfl
@[simp] theorem State.clearAll_kbuf : (s.clearAll).kbuf = State.reset.kbuf := rfl
@[simp] theorem State.clearAll_klen : (s.clearAll).klen = State.reset.klen := rfl
@[simp] theorem State.clearAll_ibuf : (s.clearAll).ibuf = State.reset.ibuf := rfl
@[simp] theorem State.clearAll_ilen : (s.clearAll).ilen = State.reset.ilen := rfl
@[simp] theorem State.clearAll_obuf : (s.clearAll).obuf = State.reset.obuf := rfl
@[simp] theorem State.clearAll_olen : (s.clearAll).olen = State.reset.olen := rfl
@[simp] theorem State.clearAll_err : (s.clearAll).err = State.reset.err := rfl
@[simp] theorem State.clearAll_ecmd : (s.clearAll).ecmd = State.reset.ecmd := rfl
@[simp] theorem State.clearAll_cfg : (s.clearAll).cfg = s.cfg := rfl
@[simp] theorem State.clearAll_entropy : (s.clearAll).entropy = s.entropy := rfl
@[simp] theorem State.clearAll_drawn : (s.clearAll).drawn = s.drawn := rfl
@[simp] theorem State.clearAll_pending : (s.clearAll).pending = s.pending := rfl
@[simp] theorem State.clearAll_reply : (s.clearAll).reply = s.reply := rfl

end clearAll

section loadKeys

variable (s : State) (alg : Alg) (ks : Slots Block)

@[simp] theorem State.loadKeys_key : (s.loadKeys alg ks).key = s.key.overwrite alg ks := rfl
@[simp] theorem State.loadKeys_kv : (s.loadKeys alg ks).kv = s.kv.overwrite alg (Slots.same true) := rfl
@[simp] theorem State.loadKeys_rk : (s.loadKeys alg ks).rk = s.rk.overwrite alg (Slots.same zeroSchedule) := rfl
@[simp] theorem State.loadKeys_rkv : (s.loadKeys alg ks).rkv = s.rkv.overwrite alg (Slots.same false) := rfl
@[simp] theorem State.loadKeys_iv : (s.loadKeys alg ks).iv = s.iv := rfl
@[simp] theorem State.loadKeys_ivv : (s.loadKeys alg ks).ivv = s.ivv := rfl
@[simp] theorem State.loadKeys_kbuf : (s.loadKeys alg ks).kbuf = s.kbuf := rfl
@[simp] theorem State.loadKeys_klen : (s.loadKeys alg ks).klen = s.klen := rfl
@[simp] theorem State.loadKeys_ibuf : (s.loadKeys alg ks).ibuf = s.ibuf := rfl
@[simp] theorem State.loadKeys_ilen : (s.loadKeys alg ks).ilen = s.ilen := rfl
@[simp] theorem State.loadKeys_obuf : (s.loadKeys alg ks).obuf = s.obuf := rfl
@[simp] theorem State.loadKeys_olen : (s.loadKeys alg ks).olen = s.olen := rfl
@[simp] theorem State.loadKeys_err : (s.loadKeys alg ks).err = s.err := rfl
@[simp] theorem State.loadKeys_ecmd : (s.loadKeys alg ks).ecmd = s.ecmd := rfl
@[simp] theorem State.loadKeys_cfg : (s.loadKeys alg ks).cfg = s.cfg := rfl
@[simp] theorem State.loadKeys_entropy : (s.loadKeys alg ks).entropy = s.entropy := rfl
@[simp] theorem State.loadKeys_drawn : (s.loadKeys alg ks).drawn = s.drawn := rfl
@[simp] theorem State.loadKeys_pending : (s.loadKeys alg ks).pending = s.pending := rfl
@[simp] theorem State.loadKeys_reply : (s.loadKeys alg ks).reply = s.reply := rfl

end loadKeys

section installKeys

variable (s : State) (alg : Alg) (ks : Slots Block)

@[simp] theorem State.installKeys_key : (s.installKeys alg ks).key = s.key.overwrite alg ks := rfl
@[simp] theorem State.installKeys_kv : (s.installKeys alg ks).kv = s.kv.overwrite alg (Slots.same true) := rfl
@[simp] theorem State.installKeys_rk : (s.installKeys alg ks).rk = s.rk.overwrite alg (ks.map keySchedule) := rfl
@[simp] theorem State.installKeys_rkv : (s.installKeys alg ks).rkv = s.rkv.overwrite alg (Slots.same true) := rfl
@[simp] theorem State.installKeys_iv : (s.installKeys alg ks).iv = s.iv := rfl
@[simp] theorem State.installKeys_ivv : (s.installKeys alg ks).ivv = s.ivv := rfl
@[simp] theorem State.installKeys_kbuf : (s.installKeys alg ks).kbuf = s.kbuf := rfl
@[simp] theorem State.installKeys_klen : (s.installKeys alg ks).klen = s.klen := rfl
@[simp] theorem State.installKeys_ibuf : (s.installKeys alg ks).ibuf = s.ibuf := rfl
@[simp] theorem State.installKeys_ilen : (s.installKeys alg ks).ilen = s.ilen := rfl
@[simp] theorem State.installKeys_obuf : (s.installKeys alg ks).obuf = s.obuf := rfl
@[simp] theorem State.installKeys_olen : (s.installKeys alg ks).olen = s.olen := rfl
@[simp] theorem State.installKeys_err : (s.installKeys alg ks).err = s.err := rfl
@[simp] theorem State.installKeys_ecmd : (s.installKeys alg ks).ecmd = s.ecmd := rfl
@[simp] theorem State.installKeys_cfg : (s.installKeys alg ks).cfg = s.cfg := rfl
@[simp] theorem State.installKeys_entropy : (s.installKeys alg ks).entropy = s.entropy := rfl
@[simp] theorem State.installKeys_drawn : (s.installKeys alg ks).drawn = s.drawn := rfl
@[simp] theorem State.installKeys_pending : (s.installKeys alg ks).pending = s.pending := rfl
@[simp] theorem State.installKeys_reply : (s.installKeys alg ks).reply = s.reply := rfl

end installKeys

section deriveSchedule

variable (s : State) (k : Slot)

@[simp] theorem State.deriveSchedule_key : (s.deriveSchedule k).key = s.key := rfl
@[simp] theorem State.deriveSchedule_kv : (s.deriveSchedule k).kv = s.kv := rfl
@[simp] theorem State.deriveSchedule_rk : (s.deriveSchedule k).rk = s.rk.set k (keySchedule (s.key.get k)) := rfl
@[simp] theorem State.deriveSchedule_rkv : (s.deriveSchedule k).rkv = s.rkv.set k true := rfl
@[simp] theorem State.deriveSchedule_iv : (s.deriveSchedule k).iv = s.iv := rfl
@[simp] theorem State.deriveSchedule_ivv : (s.deriveSchedule k).ivv = s.ivv := rfl
@[simp] theorem State.deriveSchedule_kbuf : (s.deriveSchedule k).kbuf = s.kbuf := rfl
@[simp] theorem State.deriveSchedule_klen : (s.deriveSchedule k).klen = s.klen := rfl
@[simp] theorem State.deriveSchedule_ibuf : (s.deriveSchedule k).ibuf = s.ibuf := rfl
@[simp] theorem State.deriveSchedule_ilen : (s.deriveSchedule k).ilen = s.ilen := rfl
@[simp] theorem State.deriveSchedule_obuf : (s.deriveSchedule k).obuf = s.obuf := rfl
@[simp] theorem State.deriveSchedule_olen : (s.deriveSchedule k).olen = s.olen := rfl
@[simp] theorem State.deriveSchedule_err : (s.deriveSchedule k).err = s.err := rfl
@[simp] theorem State.deriveSchedule_ecmd : (s.deriveSchedule k).ecmd = s.ecmd := rfl
@[simp] theorem State.deriveSchedule_cfg : (s.deriveSchedule k).cfg = s.cfg := rfl
@[simp] theorem State.deriveSchedule_entropy : (s.deriveSchedule k).entropy = s.entropy := rfl
@[simp] theorem State.deriveSchedule_drawn : (s.deriveSchedule k).drawn = s.drawn := rfl
@[simp] theorem State.deriveSchedule_pending : (s.deriveSchedule k).pending = s.pending := rfl
@[simp] theorem State.deriveSchedule_reply : (s.deriveSchedule k).reply = s.reply := rfl

end deriveSchedule

section writeIvHigh

variable (s : State) (v : Word)

@[simp] theorem State.writeIvHigh_key : (s.writeIvHigh v).key = s.key := rfl
@[simp] theorem State.writeIvHigh_kv : (s.writeIvHigh v).kv = s.kv := rfl
@[simp] theorem State.writeIvHigh_rk : (s.writeIvHigh v).rk = s.rk := rfl
@[simp] theorem State.writeIvHigh_rkv : (s.writeIvHigh v).rkv = s.rkv := rfl
@[simp] theorem State.writeIvHigh_iv : (s.writeIvHigh v).iv = v ++ s.iv.extractLsb' 0 32 := rfl
@[simp] theorem State.writeIvHigh_ivv : (s.writeIvHigh v).ivv = true := rfl
@[simp] theorem State.writeIvHigh_kbuf : (s.writeIvHigh v).kbuf = s.kbuf := rfl
@[simp] theorem State.writeIvHigh_klen : (s.writeIvHigh v).klen = s.klen := rfl
@[simp] theorem State.writeIvHigh_ibuf : (s.writeIvHigh v).ibuf = s.ibuf := rfl
@[simp] theorem State.writeIvHigh_ilen : (s.writeIvHigh v).ilen = s.ilen := rfl
@[simp] theorem State.writeIvHigh_obuf : (s.writeIvHigh v).obuf = s.obuf := rfl
@[simp] theorem State.writeIvHigh_olen : (s.writeIvHigh v).olen = s.olen := rfl
@[simp] theorem State.writeIvHigh_err : (s.writeIvHigh v).err = s.err := rfl
@[simp] theorem State.writeIvHigh_ecmd : (s.writeIvHigh v).ecmd = s.ecmd := rfl
@[simp] theorem State.writeIvHigh_cfg : (s.writeIvHigh v).cfg = s.cfg := rfl
@[simp] theorem State.writeIvHigh_entropy : (s.writeIvHigh v).entropy = s.entropy := rfl
@[simp] theorem State.writeIvHigh_drawn : (s.writeIvHigh v).drawn = s.drawn := rfl
@[simp] theorem State.writeIvHigh_pending : (s.writeIvHigh v).pending = s.pending := rfl
@[simp] theorem State.writeIvHigh_reply : (s.writeIvHigh v).reply = s.reply := rfl

end writeIvHigh

section writeIvLow

variable (s : State) (v : Word)

@[simp] theorem State.writeIvLow_key : (s.writeIvLow v).key = s.key := rfl
@[simp] theorem State.writeIvLow_kv : (s.writeIvLow v).kv = s.kv := rfl
@[simp] theorem State.writeIvLow_rk : (s.writeIvLow v).rk = s.rk := rfl
@[simp] theorem State.writeIvLow_rkv : (s.writeIvLow v).rkv = s.rkv := rfl
@[simp] theorem State.writeIvLow_iv : (s.writeIvLow v).iv = s.iv.extractLsb' 32 32 ++ v := rfl
@[simp] theorem State.writeIvLow_ivv : (s.writeIvLow v).ivv = true := rfl
@[simp] theorem State.writeIvLow_kbuf : (s.writeIvLow v).kbuf = s.kbuf := rfl
@[simp] theorem State.writeIvLow_klen : (s.writeIvLow v).klen = s.klen := rfl
@[simp] theorem State.writeIvLow_ibuf : (s.writeIvLow v).ibuf = s.ibuf := rfl
@[simp] theorem State.writeIvLow_ilen : (s.writeIvLow v).ilen = s.ilen := rfl
@[simp] theorem State.writeIvLow_obuf : (s.writeIvLow v).obuf = s.obuf := rfl
@[simp] theorem State.writeIvLow_olen : (s.writeIvLow v).olen = s.olen := rfl
@[simp] theorem State.writeIvLow_err : (s.writeIvLow v).err = s.err := rfl
@[simp] theorem State.writeIvLow_ecmd : (s.writeIvLow v).ecmd = s.ecmd := rfl
@[simp] theorem State.writeIvLow_cfg : (s.writeIvLow v).cfg = s.cfg := rfl
@[simp] theorem State.writeIvLow_entropy : (s.writeIvLow v).entropy = s.entropy := rfl
@[simp] theorem State.writeIvLow_drawn : (s.writeIvLow v).drawn = s.drawn := rfl
@[simp] theorem State.writeIvLow_pending : (s.writeIvLow v).pending = s.pending := rfl
@[simp] theorem State.writeIvLow_reply : (s.writeIvLow v).reply = s.reply := rfl

end writeIvLow

section clearIv

variable (s : State)

@[simp] theorem State.clearIv_key : (s.clearIv).key = s.key := rfl
@[simp] theorem State.clearIv_kv : (s.clearIv).kv = s.kv := rfl
@[simp] theorem State.clearIv_rk : (s.clearIv).rk = s.rk := rfl
@[simp] theorem State.clearIv_rkv : (s.clearIv).rkv = s.rkv := rfl
@[simp] theorem State.clearIv_iv : (s.clearIv).iv = 0 := rfl
@[simp] theorem State.clearIv_ivv : (s.clearIv).ivv = false := rfl
@[simp] theorem State.clearIv_kbuf : (s.clearIv).kbuf = s.kbuf := rfl
@[simp] theorem State.clearIv_klen : (s.clearIv).klen = s.klen := rfl
@[simp] theorem State.clearIv_ibuf : (s.clearIv).ibuf = s.ibuf := rfl
@[simp] theorem State.clearIv_ilen : (s.clearIv).ilen = s.ilen := rfl
@[simp] theorem State.clearIv_obuf : (s.clearIv).obuf = s.obuf := rfl
@[simp] theorem State.clearIv_olen : (s.clearIv).olen = s.olen := rfl
@[simp] theorem State.clearIv_err : (s.clearIv).err = s.err := rfl
@[simp] theorem State.clearIv_ecmd : (s.clearIv).ecmd = s.ecmd := rfl
@[simp] theorem State.clearIv_cfg : (s.clearIv).cfg = s.cfg := rfl
@[simp] theorem State.clearIv_entropy : (s.clearIv).entropy = s.entropy := rfl
@[simp] theorem State.clearIv_drawn : (s.clearIv).drawn = s.drawn := rfl
@[simp] theorem State.clearIv_pending : (s.clearIv).pending = s.pending := rfl
@[simp] theorem State.clearIv_reply : (s.clearIv).reply = s.reply := rfl

end clearIv

section refuseAccess

variable (s : State)

@[simp] theorem State.refuseAccess_key : (s.refuseAccess).key = s.key := rfl
@[simp] theorem State.refuseAccess_kv : (s.refuseAccess).kv = s.kv := rfl
@[simp] theorem State.refuseAccess_rk : (s.refuseAccess).rk = s.rk := rfl
@[simp] theorem State.refuseAccess_rkv : (s.refuseAccess).rkv = s.rkv := rfl
@[simp] theorem State.refuseAccess_iv : (s.refuseAccess).iv = s.iv := rfl
@[simp] theorem State.refuseAccess_ivv : (s.refuseAccess).ivv = s.ivv := rfl
@[simp] theorem State.refuseAccess_kbuf : (s.refuseAccess).kbuf = s.kbuf := rfl
@[simp] theorem State.refuseAccess_klen : (s.refuseAccess).klen = s.klen := rfl
@[simp] theorem State.refuseAccess_ibuf : (s.refuseAccess).ibuf = s.ibuf := rfl
@[simp] theorem State.refuseAccess_ilen : (s.refuseAccess).ilen = s.ilen := rfl
@[simp] theorem State.refuseAccess_obuf : (s.refuseAccess).obuf = s.obuf := rfl
@[simp] theorem State.refuseAccess_olen : (s.refuseAccess).olen = s.olen := rfl
@[simp] theorem State.refuseAccess_err : (s.refuseAccess).err = s.err := rfl
@[simp] theorem State.refuseAccess_ecmd : (s.refuseAccess).ecmd = s.ecmd := rfl
@[simp] theorem State.refuseAccess_cfg : (s.refuseAccess).cfg = s.cfg := rfl
@[simp] theorem State.refuseAccess_entropy : (s.refuseAccess).entropy = s.entropy := rfl
@[simp] theorem State.refuseAccess_drawn : (s.refuseAccess).drawn = s.drawn := rfl
@[simp] theorem State.refuseAccess_pending : (s.refuseAccess).pending = s.pending := rfl
@[simp] theorem State.refuseAccess_reply : (s.refuseAccess).reply = .error := rfl

end refuseAccess

/-- Taking an error when none is latched (`spec/60_exceptions.md` R305). -/
theorem State.latch_of_none {s : State} (h : s.err = none) (e : ErrorKind) (w : Word) : s.latch e w = s.failed e w :=
  if_pos h

/-- Taking an error when one is latched: the first one is kept. -/
theorem State.latch_of_some {s : State} (h : s.err ≠ none) (e : ErrorKind) (w : Word) : s.latch e w = s :=
  if_neg h

/-- Everything a latch can do. -/
theorem State.latch_cases (s : State) (e : ErrorKind) (w : Word) :
    (s.err = none ∧ s.latch e w = s.failed e w) ∨ (s.err ≠ none ∧ s.latch e w = s) := by
  by_cases h : s.err = none
  · exact .inl ⟨h, State.latch_of_none h e w⟩
  · exact .inr ⟨h, State.latch_of_some h e w⟩

@[simp] theorem State.prepareIv_ecb (s : State) : s.prepareIv .ecb = s := rfl
@[simp] theorem State.prepareIv_cbc (s : State) : s.prepareIv .cbc = s.drawIv := rfl

section slots

variable {α β : Type} (x y : Slots α) (v : α)

@[simp] theorem Slots.get_k1 : x.get .k1 = x.k1 := rfl
@[simp] theorem Slots.get_k2 : x.get .k2 = x.k2 := rfl
@[simp] theorem Slots.get_k3 : x.get .k3 = x.k3 := rfl
@[simp] theorem Slots.overwrite_tdes : x.overwrite .tdes y = y := rfl
@[simp] theorem Slots.overwrite_des : x.overwrite .des y = { x with k1 := y.k1 } := rfl

/-- A slot reads what was set there last. -/
@[simp] theorem Slots.get_set_same (k : Slot) : (x.set k v).get k = v := by cases k <;> rfl

/-- Setting one slot leaves the others. -/
theorem Slots.get_set_other {j k : Slot} (h : j ≠ k) : (x.set k v).get j = x.get j := by
  cases j <;> cases k <;> first | rfl | exact absurd rfl h

@[simp] theorem Slots.get_same (k : Slot) : (Slots.same v).get k = v := by cases k <;> rfl
@[simp] theorem Slots.get_map (f : α → β) (k : Slot) : (x.map f).get k = f (x.get k) := by cases k <;> rfl

/-- A slot after the slots of `alg` were replaced: the new value, or for DES in slots 2 and 3 the old one. -/
theorem Slots.get_overwrite (alg : Alg) (k : Slot) :
    (x.overwrite alg y).get k = if alg = .tdes ∨ k = .k1 then y.get k else x.get k := by
  cases alg <;> cases k <;> rfl

end slots

end Sys2Proof.Machine
end

