-- ==== Sys2Proof/Laws/Bytes.lean ====
section
/-! SUPPORT. The laws of byte sequences and blocks (`spec/00_scope.md` R11, `spec/20_memory.md` R72): `bytes8` and `be64`
undo each other, and so do the two ways between a byte sequence and its blocks. -/

namespace Sys2Proof.Machine

@[simp] theorem length_bytes8 (v : Block) : (bytes8 v).length = 8 := rfl

/-- `be64` undoes `bytes8`. -/
@[simp] theorem be64_bytes8 (v : Block) : be64 (bytes8 v) = v := by
  apply BitVec.eq_of_toNat_eq
  have hv := v.isLt
  simp only [be64, bytes8, List.foldl, BitVec.toNat_ofNat, BitVec.extractLsb'_toNat, Nat.shiftRight_eq_div_pow]
  omega

/-- `bytes8` undoes `be64` on 8 bytes. -/
theorem bytes8_be64 (b0 b1 b2 b3 b4 b5 b6 b7 : Byte) :
    bytes8 (be64 [b0, b1, b2, b3, b4, b5, b6, b7]) = [b0, b1, b2, b3, b4, b5, b6, b7] := by
  have h0 := b0.isLt
  have h1 := b1.isLt
  have h2 := b2.isLt
  have h3 := b3.isLt
  have h4 := b4.isLt
  have h5 := b5.isLt
  have h6 := b6.isLt
  have h7 := b7.isLt
  simp only [bytes8, List.cons.injEq, and_true]
  refine ⟨?_, ?_, ?_, ?_, ?_, ?_, ?_, ?_⟩ <;>
  · apply BitVec.eq_of_toNat_eq
    simp only [be64, List.foldl, BitVec.toNat_ofNat, BitVec.extractLsb'_toNat, Nat.shiftRight_eq_div_pow]
    omega

/-- `bytes8` undoes `be64` on a sequence of length 8. -/
theorem bytes8_be64_of_length {m : List Byte} (h : m.length = 8) : bytes8 (be64 m) = m := by
  match m, h with
  | [b0, b1, b2, b3, b4, b5, b6, b7], _ => exact bytes8_be64 ..

@[simp] theorem toBlocks_nil : toBlocks [] = [] := rfl

/-- One block in front. -/
@[simp] theorem toBlocks_bytes8_append (v : Block) (m : List Byte) : toBlocks (bytes8 v ++ m) = v :: toBlocks m := by
  show be64 (bytes8 v) :: toBlocks m = _
  rw [be64_bytes8]

@[simp] theorem ofBlocks_nil : ofBlocks [] = [] := rfl

@[simp] theorem ofBlocks_cons (v : Block) (bs : List Block) : ofBlocks (v :: bs) = bytes8 v ++ ofBlocks bs := rfl

/-- The blocks of the bytes of a sequence of blocks. -/
@[simp] theorem toBlocks_ofBlocks (bs : List Block) : toBlocks (ofBlocks bs) = bs := by
  induction bs with
  | nil => rfl
  | cons v bs ih => rw [ofBlocks_cons, toBlocks_bytes8_append, ih]

@[simp] theorem length_ofBlocks (bs : List Block) : (ofBlocks bs).length = 8 * bs.length := by
  induction bs with
  | nil => rfl
  | cons v bs ih => simp only [ofBlocks_cons, List.length_append, length_bytes8, List.length_cons, ih]; omega

/-- A sequence of at least 8 bytes is one block and a rest. -/
theorem exists_block_append {m : List Byte} (h : 8 ≤ m.length) : ∃ v rest, m = bytes8 v ++ rest := by
  match m, h with
  | b0 :: b1 :: b2 :: b3 :: b4 :: b5 :: b6 :: b7 :: rest, _ =>
    exact ⟨be64 [b0, b1, b2, b3, b4, b5, b6, b7], rest, by rw [bytes8_be64]; rfl⟩

/-- A whole number of blocks is the bytes of some blocks. -/
theorem exists_ofBlocks : ∀ (n : Nat) {m : List Byte}, m.length = 8 * n → ∃ bs : List Block, bs.length = n ∧ m = ofBlocks bs := by
  intro n
  induction n with
  | zero => intro m h; exact ⟨[], rfl, List.eq_nil_of_length_eq_zero (by omega)⟩
  | succ n ih =>
    intro m h
    obtain ⟨v, rest, rfl⟩ := exists_block_append (m := m) (by omega)
    simp only [List.length_append, length_bytes8] at h
    obtain ⟨bs, hl, rfl⟩ := ih (m := rest) (by omega)
    exact ⟨v :: bs, by simp [hl], rfl⟩

/-- The bytes of the blocks of a whole number of blocks. -/
theorem ofBlocks_toBlocks {m : List Byte} (h : m.length % 8 = 0) : ofBlocks (toBlocks m) = m := by
  obtain ⟨bs, -, rfl⟩ := exists_ofBlocks (m.length / 8) (m := m) (by omega)
  rw [toBlocks_ofBlocks]

theorem length_toBlocks {m : List Byte} (h : m.length % 8 = 0) : (toBlocks m).length = m.length / 8 := by
  obtain ⟨bs, hl, rfl⟩ := exists_ofBlocks (m.length / 8) (m := m) (by omega)
  rw [toBlocks_ofBlocks, length_ofBlocks]
  omega

@[simp] theorem length_freeBytes (c n : Nat) : (freeBytes c n).length = n := by
  induction n generalizing c with
  | zero => rfl
  | succ n ih => simp [freeBytes, ih]

/-- `Rand(n)` answers `n` bytes (`spec/00_scope.md` R17). -/
@[simp] theorem State.length_randBytes (s : State) (n : Nat) : (s.randBytes n).length = n := by
  simp only [State.randBytes, List.length_append, List.length_take, length_freeBytes]
  omega

@[simp] theorem State.length_input (s : State) : s.input.length = s.ilen := Memory.length_load _ _ _
@[simp] theorem State.length_keyText (s : State) : s.keyText.length = s.klen := Memory.length_load _ _ _
@[simp] theorem State.length_output (s : State) : s.output.length = s.olen := Memory.length_load _ _ _

/-- What a data command put out is what `OBUF` holds (`spec/10_state.md` R37). -/
@[simp] theorem State.output_emit (s : State) (out : List Byte) : (s.emit out).output = out :=
  Memory.load_ofBytes out

end Sys2Proof.Machine
end

