-- ==== Sys2Proof/Laws/Ops.lean ====
section
/-! SUPPORT. One lemma for each shared operation of the commands that says once everything it can do, and one for all
commands together: a command completes with a named update, or raises. Later proofs cite these and unfold nothing. -/

namespace Sys2Proof.Machine

/-- A checked command answers its effect, or takes the error it raised. -/
theorem settle_ok (i : Instr) (s t : State) : settle i s (.ok t) = .next t := rfl

theorem settle_error (i : Instr) (s : State) (e : ErrorKind) :
    settle i s (.error e) = .next (s.latch e (encode i)) := rfl

/-- `parsekey` (`spec/41_key_schedule.md` R166): the keys of a text of the right length that is hexadecimal, or the first
of its two errors. -/
theorem State.parseKey_cases (s : State) (alg : Alg) :
    (s.klen ≠ keyTextLength alg ∧ s.parseKey alg = .error .keyLength) ∨
    (s.klen = keyTextLength alg ∧ hexDec s.keyText = none ∧ s.parseKey alg = .error .encoding) ∨
    ∃ kb, s.klen = keyTextLength alg ∧ hexDec s.keyText = some kb ∧ s.parseKey alg = .ok (splitKeys alg kb) := by
  unfold State.parseKey
  by_cases h : s.klen = keyTextLength alg
  · rw [if_neg (not_not.mpr h)]
    cases hd : hexDec s.keyText with
    | none => exact .inr (.inl ⟨h, rfl, rfl⟩)
    | some kb => exact .inr (.inr ⟨kb, h, rfl, rfl⟩)
  · exact .inl ⟨h, if_pos h⟩

/-- `parsekey` raises KeyLengthError or EncodingError only. -/
theorem State.parseKey_error {s : State} {alg : Alg} {e : ErrorKind} (h : s.parseKey alg = .error e) :
    e = .keyLength ∨ e = .encoding := by
  rcases s.parseKey_cases alg with ⟨-, h'⟩ | ⟨-, -, h'⟩ | ⟨kb, -, -, h'⟩ <;> rw [h'] at h <;> cases h
  · exact .inl rfl
  · exact .inr rfl

theorem loadkeyEffect_cases (alg : Alg) (s : State) :
    (∃ e, s.parseKey alg = .error e ∧ loadkeyEffect alg s = .error e) ∨
    ∃ ks, s.parseKey alg = .ok ks ∧ loadkeyEffect alg s = .ok (s.loadKeys alg ks) := by
  unfold loadkeyEffect
  cases h : s.parseKey alg with
  | error e => exact .inl ⟨e, rfl, rfl⟩
  | ok ks => exact .inr ⟨ks, rfl, rfl⟩

theorem kschedEffect_cases (ks : BitVec 2) (s : State) :
    (slotOf ks = none ∧ kschedEffect ks s = .error .illegalCommand) ∨
    (∃ k, slotOf ks = some k ∧ s.kv.get k = false ∧ kschedEffect ks s = .error .sequence) ∨
    ∃ k, slotOf ks = some k ∧ s.kv.get k = true ∧ kschedEffect ks s = .ok (s.deriveSchedule k) := by
  unfold kschedEffect
  cases h : slotOf ks with
  | none => exact .inl ⟨rfl, rfl⟩
  | some k =>
    cases hv : s.kv.get k with
    | false => exact .inr (.inl ⟨k, rfl, hv, if_pos hv⟩)
    | true => exact .inr (.inr ⟨k, rfl, hv, if_neg (by simp [hv])⟩)

theorem desBlockEffect_cases (f : Block → Schedule → Block) (ks : BitVec 2) (s : State) :
    (slotOf ks = none ∧ desBlockEffect f ks s = .error .illegalCommand) ∨
    (∃ k, slotOf ks = some k ∧ s.rkv.get k = false ∧ desBlockEffect f ks s = .error .sequence) ∨
    (∃ k, slotOf ks = some k ∧ s.rkv.get k = true ∧ s.ilen ≠ 8 ∧ desBlockEffect f ks s = .error .format) ∨
    ∃ k, slotOf ks = some k ∧ s.rkv.get k = true ∧ s.ilen = 8 ∧
      desBlockEffect f ks s = .ok (s.emit (bytes8 (f s.inputBlock (s.rk.get k)))) := by
  unfold desBlockEffect
  cases h : slotOf ks with
  | none => exact .inl ⟨rfl, rfl⟩
  | some k =>
    cases hv : s.rkv.get k with
    | false => exact .inr (.inl ⟨k, rfl, hv, if_pos hv⟩)
    | true =>
      have hn : ¬ s.rkv.get k = false := by simp [hv]
      by_cases hl : s.ilen = 8
      · exact .inr (.inr (.inr ⟨k, rfl, hv, hl, by simp only [if_neg hn, if_neg (not_not.mpr hl)]⟩))
      · exact .inr (.inr (.inl ⟨k, rfl, hv, hl, by simp only [if_neg hn, if_pos hl]⟩))

theorem tdesBlockEffect_cases (f : Block → Slots Schedule → Block) (s : State) :
    (s.schedulesValid .tdes = false ∧ tdesBlockEffect f s = .error .sequence) ∨
    (s.schedulesValid .tdes = true ∧ s.ilen ≠ 8 ∧ tdesBlockEffect f s = .error .format) ∨
    (s.schedulesValid .tdes = true ∧ s.ilen = 8 ∧ tdesBlockEffect f s = .ok (s.emit (bytes8 (f s.inputBlock s.rk)))) := by
  unfold tdesBlockEffect
  cases hv : s.schedulesValid .tdes with
  | false => exact .inl ⟨rfl, if_pos rfl⟩
  | true =>
    rw [if_neg (by decide)]
    by_cases hl : s.ilen = 8
    · exact .inr (.inr ⟨rfl, hl, if_neg (not_not.mpr hl)⟩)
    · exact .inr (.inl ⟨rfl, hl, if_pos hl⟩)

theorem padEffect_cases (s : State) :
    (s.cfg.nbuf < s.ilen + padLength s.ilen ∧ padEffect s = .error .capacity) ∨
    (s.ilen + padLength s.ilen ≤ s.cfg.nbuf ∧ padEffect s = .ok (s.emit (pad s.input))) := by
  unfold padEffect
  by_cases h : s.cfg.nbuf < s.ilen + padLength s.ilen
  · exact .inl ⟨h, if_pos h⟩
  · exact .inr ⟨not_lt.mp h, if_neg h⟩

theorem unpadEffect_cases (s : State) :
    (unpad s.input = none ∧ unpadEffect s = .error .padding) ∨
    ∃ r, unpad s.input = some r ∧ unpadEffect s = .ok (s.emit r) := by
  unfold unpadEffect
  cases h : unpad s.input with
  | none => exact .inl ⟨rfl, rfl⟩
  | some r => exact .inr ⟨r, rfl, rfl⟩

theorem chainEffect_cases (f : Alg → ChainMode → List Byte → Slots Schedule → Block → List Byte) (alg : Alg)
    (mode : ChainMode) (s : State) :
    (s.schedulesValid alg = false ∧ chainEffect f alg mode s = .error .sequence) ∨
    (s.schedulesValid alg = true ∧ (wholeBlocks s.ilen = false ∨ (mode = .cbc ∧ s.ivv = false)) ∧
      chainEffect f alg mode s = .error .format) ∨
    (s.schedulesValid alg = true ∧ wholeBlocks s.ilen = true ∧ (mode = .cbc → s.ivv = true) ∧
      chainEffect f alg mode s = .ok (s.emit (f alg mode s.input s.rk s.iv))) := by
  unfold chainEffect
  cases hv : s.schedulesValid alg with
  | false => exact .inl ⟨rfl, if_pos rfl⟩
  | true =>
    rw [if_neg (by decide)]
    cases hw : wholeBlocks s.ilen with
    | false => exact .inr (.inl ⟨rfl, .inl rfl, if_pos rfl⟩)
    | true =>
      rw [if_neg (by decide)]
      by_cases hm : mode = .cbc ∧ s.ivv = false
      · exact .inr (.inl ⟨rfl, .inr hm, if_pos hm⟩)
      · exact .inr (.inr ⟨rfl, rfl, fun h => by by_contra hn; exact hm ⟨h, by simpa using hn⟩, if_neg hm⟩)

theorem encodeEffect_cases (enc : TextEnc) (s : State) :
    (s.cfg.nbuf < textLength enc s.ilen ∧ encodeEffect enc s = .error .capacity) ∨
    (textLength enc s.ilen ≤ s.cfg.nbuf ∧ encodeEffect enc s = .ok (s.emit (encodeText enc s.input))) := by
  unfold encodeEffect
  by_cases h : s.cfg.nbuf < textLength enc s.ilen
  · exact .inl ⟨h, if_pos h⟩
  · exact .inr ⟨not_lt.mp h, if_neg h⟩

theorem decodeEffect_cases (enc : TextEnc) (s : State) :
    (decodeText enc s.input = none ∧ decodeEffect enc s = .error .encoding) ∨
    ∃ m, decodeText enc s.input = some m ∧ decodeEffect enc s = .ok (s.emit m) := by
  unfold decodeEffect
  cases h : decodeText enc s.input with
  | none => exact .inl ⟨rfl, rfl⟩
  | some m => exact .inr ⟨m, rfl, rfl⟩

/-- `ENCRYPT` (`spec/47_service.md` R262): the key's error, CapacityError, or the one success. -/
theorem encryptEffect_cases (alg : Alg) (mode : ChainMode) (enc : TextEnc) (s : State) :
    (∃ e, s.parseKey alg = .error e ∧ encryptEffect alg mode enc s = .error e) ∨
    (∃ ks, s.parseKey alg = .ok ks ∧ s.cfg.nbuf < textLength enc (s.ilen + padLength s.ilen) ∧
      encryptEffect alg mode enc s = .error .capacity) ∨
    ∃ ks, s.parseKey alg = .ok ks ∧ textLength enc (s.ilen + padLength s.ilen) ≤ s.cfg.nbuf ∧
      encryptEffect alg mode enc s = .ok ((s.prepareEncrypt alg mode ks).emit
        (encodeText enc (chainEnc alg mode (pad s.input) (s.prepareEncrypt alg mode ks).rk
          (s.prepareEncrypt alg mode ks).iv))) := by
  unfold encryptEffect
  cases hk : s.parseKey alg with
  | error e => exact .inl ⟨e, rfl, rfl⟩
  | ok ks =>
    by_cases h : s.cfg.nbuf < textLength enc (s.ilen + padLength s.ilen)
    · exact .inr (.inl ⟨ks, rfl, h, if_pos h⟩)
    · exact .inr (.inr ⟨ks, rfl, not_lt.mp h, if_neg h⟩)

/-- `DECRYPT` (`spec/47_service.md` R265): the error of the first stage that fails, or the one success. -/
theorem decryptEffect_cases (alg : Alg) (mode : ChainMode) (enc : TextEnc) (s : State) :
    (∃ e, s.parseKey alg = .error e ∧ decryptEffect alg mode enc s = .error e) ∨
    (∃ ks, s.parseKey alg = .ok ks ∧ decodeText enc s.input = none ∧
      decryptEffect alg mode enc s = .error .encoding) ∨
    (∃ ks c, s.parseKey alg = .ok ks ∧ decodeText enc s.input = some c ∧
      (wholeBlocks c.length = false ∨ (mode = .cbc ∧ s.ivv = false)) ∧
      decryptEffect alg mode enc s = .error .format) ∨
    (∃ ks c, s.parseKey alg = .ok ks ∧ decodeText enc s.input = some c ∧ wholeBlocks c.length = true ∧
      (mode = .cbc → s.ivv = true) ∧ unpad (chainDec alg mode c (ks.map keySchedule) s.iv) = none ∧
      decryptEffect alg mode enc s = .error .padding) ∨
    ∃ ks c r, s.parseKey alg = .ok ks ∧ decodeText enc s.input = some c ∧ wholeBlocks c.length = true ∧
      (mode = .cbc → s.ivv = true) ∧ unpad (chainDec alg mode c (ks.map keySchedule) s.iv) = some r ∧
      decryptEffect alg mode enc s = .ok ((s.installKeys alg ks).emit r) := by
  unfold decryptEffect
  cases hk : s.parseKey alg with
  | error e => exact .inl ⟨e, rfl, rfl⟩
  | ok ks =>
    cases hd : decodeText enc s.input with
    | none => exact .inr (.inl ⟨ks, rfl, rfl, rfl⟩)
    | some c =>
      simp only
      cases hw : wholeBlocks c.length with
      | false => exact .inr (.inr (.inl ⟨ks, c, rfl, rfl, .inl hw, if_pos rfl⟩))
      | true =>
        rw [if_neg (by decide)]
        by_cases hm : mode = .cbc ∧ s.ivv = false
        · exact .inr (.inr (.inl ⟨ks, c, rfl, rfl, .inr hm, if_pos hm⟩))
        · rw [if_neg hm]
          have hi : mode = .cbc → s.ivv = true := fun h => by by_contra hn; exact hm ⟨h, by simpa using hn⟩
          cases hu : unpad (chainDec alg mode c (ks.map keySchedule) s.iv) with
          | none => exact .inr (.inr (.inr (.inl ⟨ks, c, rfl, rfl, hw, hi, hu, rfl⟩)))
          | some r => exact .inr (.inr (.inr (.inr ⟨ks, c, r, rfl, rfl, hw, hi, hu, rfl⟩)))

/-- How a command that raises nothing ends: the named update of each command, with the checks it passed. -/
inductive Completed (s : State) : Instr → State → Prop where
  | nop : Completed s .nop s
  | clrerr : Completed s .clrerr s.clearError
  | zeroize : Completed s .zeroize s.clearAll
  | xfer : Completed s .xfer { s with ibuf := s.ibuf.store 0 s.output, ilen := s.olen }
  | ivclr : Completed s .ivclr s.clearIv
  | geniv : Completed s .geniv s.drawIv
  | loadkey (alg : Alg) (ks : Slots Block) (hk : s.parseKey alg = .ok ks) :
      Completed s (.loadkey alg) (s.loadKeys alg ks)
  | ksched (ks : BitVec 2) (k : Slot) (hs : slotOf ks = some k) (hv : s.kv.get k = true) :
      Completed s (.ksched ks) (s.deriveSchedule k)
  | desenc (ks : BitVec 2) (k : Slot) (hs : slotOf ks = some k) (hv : s.rkv.get k = true) (hl : s.ilen = 8) :
      Completed s (.desenc ks) (s.emit (bytes8 (desEnc s.inputBlock (s.rk.get k))))
  | desdec (ks : BitVec 2) (k : Slot) (hs : slotOf ks = some k) (hv : s.rkv.get k = true) (hl : s.ilen = 8) :
      Completed s (.desdec ks) (s.emit (bytes8 (desDec s.inputBlock (s.rk.get k))))
  | tdesenc (hv : s.schedulesValid .tdes = true) (hl : s.ilen = 8) :
      Completed s .tdesenc (s.emit (bytes8 (tdesEnc s.inputBlock s.rk)))
  | tdesdec (hv : s.schedulesValid .tdes = true) (hl : s.ilen = 8) :
      Completed s .tdesdec (s.emit (bytes8 (tdesDec s.inputBlock s.rk)))
  | pad (hl : s.ilen + padLength s.ilen ≤ s.cfg.nbuf) : Completed s .pad (s.emit (Machine.pad s.input))
  | unpad (r : List Byte) (hu : Machine.unpad s.input = some r) : Completed s .unpad (s.emit r)
  | ecbenc (alg : Alg) (hv : s.schedulesValid alg = true) (hw : wholeBlocks s.ilen = true) :
      Completed s (.ecbenc alg) (s.emit (chainEnc alg .ecb s.input s.rk s.iv))
  | ecbdec (alg : Alg) (hv : s.schedulesValid alg = true) (hw : wholeBlocks s.ilen = true) :
      Completed s (.ecbdec alg) (s.emit (chainDec alg .ecb s.input s.rk s.iv))
  | cbcenc (alg : Alg) (hv : s.schedulesValid alg = true) (hw : wholeBlocks s.ilen = true) (hi : s.ivv = true) :
      Completed s (.cbcenc alg) (s.emit (chainEnc alg .cbc s.input s.rk s.iv))
  | cbcdec (alg : Alg) (hv : s.schedulesValid alg = true) (hw : wholeBlocks s.ilen = true) (hi : s.ivv = true) :
      Completed s (.cbcdec alg) (s.emit (chainDec alg .cbc s.input s.rk s.iv))
  | hexenc (hl : textLength .hex s.ilen ≤ s.cfg.nbuf) : Completed s .hexenc (s.emit (encodeText .hex s.input))
  | hexdec (m : List Byte) (hd : decodeText .hex s.input = some m) : Completed s .hexdec (s.emit m)
  | b64enc (hl : textLength .b64 s.ilen ≤ s.cfg.nbuf) : Completed s .b64enc (s.emit (encodeText .b64 s.input))
  | b64dec (m : List Byte) (hd : decodeText .b64 s.input = some m) : Completed s .b64dec (s.emit m)
  | encrypt (alg : Alg) (mode : ChainMode) (enc : TextEnc) (ks : Slots Block) (hk : s.parseKey alg = .ok ks)
      (hl : textLength enc (s.ilen + padLength s.ilen) ≤ s.cfg.nbuf) :
      Completed s (.encrypt alg mode enc) ((s.prepareEncrypt alg mode ks).emit
        (encodeText enc (chainEnc alg mode (Machine.pad s.input) (s.prepareEncrypt alg mode ks).rk
          (s.prepareEncrypt alg mode ks).iv)))
  | decrypt (alg : Alg) (mode : ChainMode) (enc : TextEnc) (ks : Slots Block) (c r : List Byte)
      (hk : s.parseKey alg = .ok ks) (hd : decodeText enc s.input = some c) (hw : wholeBlocks c.length = true)
      (hi : mode = .cbc → s.ivv = true)
      (hu : Machine.unpad (chainDec alg mode c (ks.map keySchedule) s.iv) = some r) :
      Completed s (.decrypt alg mode enc) ((s.installKeys alg ks).emit r)
  | genkey (alg : Alg) :
      Completed s (.genkey alg) ((s.consume (keyBytes alg)).emit (hexEnc (s.randBytes (keyBytes alg))))

/-- Everything a command can do: raise an error of its own, which is taken, or complete. An ill-formed term, `KS = 0`
in format K, raises IllegalCommand. -/
theorem exec_cases (i : Instr) (s : State) :
    (∃ e, (e ∈ mayRaise i ∨ (e = .illegalCommand ∧ i.wellFormed = false)) ∧
      exec i s = .next (s.latch e (encode i))) ∨
    ∃ t, Completed s i t ∧ exec i s = .next t := by
  have bad : ∀ ks, slotOf ks = none → slotField ks = false := by decide
  cases i with
  | nop => exact .inr ⟨_, .nop, rfl⟩
  | clrerr => exact .inr ⟨_, .clrerr, rfl⟩
  | zeroize => exact .inr ⟨_, .zeroize, rfl⟩
  | xfer => exact .inr ⟨_, .xfer, rfl⟩
  | ivclr => exact .inr ⟨_, .ivclr, rfl⟩
  | geniv => exact .inr ⟨_, .geniv, rfl⟩
  | genkey alg => exact .inr ⟨_, .genkey alg, rfl⟩
  | loadkey alg =>
    show (∃ e, _ ∧ settle _ s (loadkeyEffect alg s) = _) ∨ ∃ t, _ ∧ settle _ s (loadkeyEffect alg s) = _
    rcases loadkeyEffect_cases alg s with ⟨e, hk, h⟩ | ⟨ks, hk, h⟩ <;> rw [h]
    · refine .inl ⟨e, .inl ?_, rfl⟩
      rcases State.parseKey_error hk with rfl | rfl <;> simp [mayRaise]
    · exact .inr ⟨_, .loadkey alg ks hk, rfl⟩
  | ksched ks =>
    show (∃ e, _ ∧ settle _ s (kschedEffect ks s) = _) ∨ ∃ t, _ ∧ settle _ s (kschedEffect ks s) = _
    rcases kschedEffect_cases ks s with ⟨hs, h⟩ | ⟨k, hs, hv, h⟩ | ⟨k, hs, hv, h⟩ <;> rw [h]
    · exact .inl ⟨_, .inr ⟨rfl, bad ks hs⟩, rfl⟩
    · exact .inl ⟨.sequence, .inl (by simp [mayRaise]), rfl⟩
    · exact .inr ⟨_, .ksched ks k hs hv, rfl⟩
  | desenc ks =>
    show (∃ e, _ ∧ settle _ s (desBlockEffect desEnc ks s) = _) ∨ ∃ t, _ ∧ settle _ s (desBlockEffect desEnc ks s) = _
    rcases desBlockEffect_cases desEnc ks s with ⟨hs, h⟩ | ⟨k, hs, hv, h⟩ | ⟨k, hs, hv, hl, h⟩ | ⟨k, hs, hv, hl, h⟩ <;>
      rw [h]
    · exact .inl ⟨_, .inr ⟨rfl, bad ks hs⟩, rfl⟩
    · exact .inl ⟨.sequence, .inl (by simp [mayRaise]), rfl⟩
    · exact .inl ⟨.format, .inl (by simp [mayRaise]), rfl⟩
    · exact .inr ⟨_, .desenc ks k hs hv hl, rfl⟩
  | desdec ks =>
    show (∃ e, _ ∧ settle _ s (desBlockEffect desDec ks s) = _) ∨ ∃ t, _ ∧ settle _ s (desBlockEffect desDec ks s) = _
    rcases desBlockEffect_cases desDec ks s with ⟨hs, h⟩ | ⟨k, hs, hv, h⟩ | ⟨k, hs, hv, hl, h⟩ | ⟨k, hs, hv, hl, h⟩ <;>
      rw [h]
    · exact .inl ⟨_, .inr ⟨rfl, bad ks hs⟩, rfl⟩
    · exact .inl ⟨.sequence, .inl (by simp [mayRaise]), rfl⟩
    · exact .inl ⟨.format, .inl (by simp [mayRaise]), rfl⟩
    · exact .inr ⟨_, .desdec ks k hs hv hl, rfl⟩
  | tdesenc =>
    show (∃ e, _ ∧ settle _ s (tdesBlockEffect tdesEnc s) = _) ∨ ∃ t, _ ∧ settle _ s (tdesBlockEffect tdesEnc s) = _
    rcases tdesBlockEffect_cases tdesEnc s with ⟨hv, h⟩ | ⟨hv, hl, h⟩ | ⟨hv, hl, h⟩ <;> rw [h]
    · exact .inl ⟨.sequence, .inl (by simp [mayRaise]), rfl⟩
    · exact .inl ⟨.format, .inl (by simp [mayRaise]), rfl⟩
    · exact .inr ⟨_, .tdesenc hv hl, rfl⟩
  | tdesdec =>
    show (∃ e, _ ∧ settle _ s (tdesBlockEffect tdesDec s) = _) ∨ ∃ t, _ ∧ settle _ s (tdesBlockEffect tdesDec s) = _
    rcases tdesBlockEffect_cases tdesDec s with ⟨hv, h⟩ | ⟨hv, hl, h⟩ | ⟨hv, hl, h⟩ <;> rw [h]
    · exact .inl ⟨.sequence, .inl (by simp [mayRaise]), rfl⟩
    · exact .inl ⟨.format, .inl (by simp [mayRaise]), rfl⟩
    · exact .inr ⟨_, .tdesdec hv hl, rfl⟩
  | pad =>
    show (∃ e, _ ∧ settle _ s (padEffect s) = _) ∨ ∃ t, _ ∧ settle _ s (padEffect s) = _
    rcases padEffect_cases s with ⟨hl, h⟩ | ⟨hl, h⟩ <;> rw [h]
    · exact .inl ⟨.capacity, .inl (by simp [mayRaise]), rfl⟩
    · exact .inr ⟨_, .pad hl, rfl⟩
  | unpad =>
    show (∃ e, _ ∧ settle _ s (unpadEffect s) = _) ∨ ∃ t, _ ∧ settle _ s (unpadEffect s) = _
    rcases unpadEffect_cases s with ⟨-, h⟩ | ⟨r, hu, h⟩ <;> rw [h]
    · exact .inl ⟨.padding, .inl (by simp [mayRaise]), rfl⟩
    · exact .inr ⟨_, .unpad r hu, rfl⟩
  | ecbenc alg =>
    show (∃ e, _ ∧ settle _ s (chainEffect chainEnc alg .ecb s) = _) ∨ ∃ t, _ ∧ settle _ s (chainEffect chainEnc alg .ecb s) = _
    rcases chainEffect_cases chainEnc alg .ecb s with ⟨hv, h⟩ | ⟨hv, -, h⟩ | ⟨hv, hw, -, h⟩ <;> rw [h]
    · exact .inl ⟨.sequence, .inl (by simp [mayRaise]), rfl⟩
    · exact .inl ⟨.format, .inl (by simp [mayRaise]), rfl⟩
    · exact .inr ⟨_, .ecbenc alg hv hw, rfl⟩
  | ecbdec alg =>
    show (∃ e, _ ∧ settle _ s (chainEffect chainDec alg .ecb s) = _) ∨ ∃ t, _ ∧ settle _ s (chainEffect chainDec alg .ecb s) = _
    rcases chainEffect_cases chainDec alg .ecb s with ⟨hv, h⟩ | ⟨hv, -, h⟩ | ⟨hv, hw, -, h⟩ <;> rw [h]
    · exact .inl ⟨.sequence, .inl (by simp [mayRaise]), rfl⟩
    · exact .inl ⟨.format, .inl (by simp [mayRaise]), rfl⟩
    · exact .inr ⟨_, .ecbdec alg hv hw, rfl⟩
  | cbcenc alg =>
    show (∃ e, _ ∧ settle _ s (chainEffect chainEnc alg .cbc s) = _) ∨ ∃ t, _ ∧ settle _ s (chainEffect chainEnc alg .cbc s) = _
    rcases chainEffect_cases chainEnc alg .cbc s with ⟨hv, h⟩ | ⟨hv, -, h⟩ | ⟨hv, hw, hi, h⟩ <;> rw [h]
    · exact .inl ⟨.sequence, .inl (by simp [mayRaise]), rfl⟩
    · exact .inl ⟨.format, .inl (by simp [mayRaise]), rfl⟩
    · exact .inr ⟨_, .cbcenc alg hv hw (hi rfl), rfl⟩
  | cbcdec alg =>
    show (∃ e, _ ∧ settle _ s (chainEffect chainDec alg .cbc s) = _) ∨ ∃ t, _ ∧ settle _ s (chainEffect chainDec alg .cbc s) = _
    rcases chainEffect_cases chainDec alg .cbc s with ⟨hv, h⟩ | ⟨hv, -, h⟩ | ⟨hv, hw, hi, h⟩ <;> rw [h]
    · exact .inl ⟨.sequence, .inl (by simp [mayRaise]), rfl⟩
    · exact .inl ⟨.format, .inl (by simp [mayRaise]), rfl⟩
    · exact .inr ⟨_, .cbcdec alg hv hw (hi rfl), rfl⟩
  | hexenc =>
    show (∃ e, _ ∧ settle _ s (encodeEffect .hex s) = _) ∨ ∃ t, _ ∧ settle _ s (encodeEffect .hex s) = _
    rcases encodeEffect_cases .hex s with ⟨hl, h⟩ | ⟨hl, h⟩ <;> rw [h]
    · exact .inl ⟨.capacity, .inl (by simp [mayRaise]), rfl⟩
    · exact .inr ⟨_, .hexenc hl, rfl⟩
  | hexdec =>
    show (∃ e, _ ∧ settle _ s (decodeEffect .hex s) = _) ∨ ∃ t, _ ∧ settle _ s (decodeEffect .hex s) = _
    rcases decodeEffect_cases .hex s with ⟨-, h⟩ | ⟨m, hd, h⟩ <;> rw [h]
    · exact .inl ⟨.encoding, .inl (by simp [mayRaise]), rfl⟩
    · exact .inr ⟨_, .hexdec m hd, rfl⟩
  | b64enc =>
    show (∃ e, _ ∧ settle _ s (encodeEffect .b64 s) = _) ∨ ∃ t, _ ∧ settle _ s (encodeEffect .b64 s) = _
    rcases encodeEffect_cases .b64 s with ⟨hl, h⟩ | ⟨hl, h⟩ <;> rw [h]
    · exact .inl ⟨.capacity, .inl (by simp [mayRaise]), rfl⟩
    · exact .inr ⟨_, .b64enc hl, rfl⟩
  | b64dec =>
    show (∃ e, _ ∧ settle _ s (decodeEffect .b64 s) = _) ∨ ∃ t, _ ∧ settle _ s (decodeEffect .b64 s) = _
    rcases decodeEffect_cases .b64 s with ⟨-, h⟩ | ⟨m, hd, h⟩ <;> rw [h]
    · exact .inl ⟨.encoding, .inl (by simp [mayRaise]), rfl⟩
    · exact .inr ⟨_, .b64dec m hd, rfl⟩
  | encrypt alg mode enc =>
    show (∃ e, _ ∧ settle _ s (encryptEffect alg mode enc s) = _) ∨ ∃ t, _ ∧ settle _ s (encryptEffect alg mode enc s) = _
    rcases encryptEffect_cases alg mode enc s with ⟨e, hk, h⟩ | ⟨ks, -, -, h⟩ | ⟨ks, hk, hl, h⟩ <;> rw [h]
    · refine .inl ⟨e, .inl ?_, rfl⟩
      rcases State.parseKey_error hk with rfl | rfl <;> simp [mayRaise]
    · exact .inl ⟨.capacity, .inl (by simp [mayRaise]), rfl⟩
    · exact .inr ⟨_, .encrypt alg mode enc ks hk hl, rfl⟩
  | decrypt alg mode enc =>
    show (∃ e, _ ∧ settle _ s (decryptEffect alg mode enc s) = _) ∨ ∃ t, _ ∧ settle _ s (decryptEffect alg mode enc s) = _
    rcases decryptEffect_cases alg mode enc s with ⟨e, hk, h⟩ | ⟨ks, -, -, h⟩ | ⟨ks, c, -, -, -, h⟩ |
      ⟨ks, c, -, -, -, -, -, h⟩ | ⟨ks, c, r, hk, hd, hw, hi, hu, h⟩ <;> rw [h]
    · refine .inl ⟨e, .inl ?_, rfl⟩
      rcases State.parseKey_error hk with rfl | rfl <;> simp [mayRaise]
    · exact .inl ⟨.encoding, .inl (by simp [mayRaise]), rfl⟩
    · exact .inl ⟨.format, .inl (by simp [mayRaise]), rfl⟩
    · exact .inl ⟨.padding, .inl (by simp [mayRaise]), rfl⟩
    · exact .inr ⟨_, .decrypt alg mode enc ks c r hk hd hw hi hu, rfl⟩

end Sys2Proof.Machine
end

