-- ==== Sys2Proof/Laws/Step.lean ====
section
/-! SUPPORT. The laws of the bus, of a word written to `CMD` and of a step: each operation's cases, each once; and that
every buffer of the state after reset, and after every host access, is in canonical form. -/

namespace Sys2Proof.Machine

/-- With no action left CORE holds its state. -/
theorem step_idle {s : State} (h : s.pending = []) : step s = .next s := by
  unfold step
  rw [h]

/-- A step performs the host's next action. -/
theorem step_cons {s : State} {a : HostAction} {rest : List HostAction} (h : s.pending = a :: rest) :
    step s = perform a { s with pending := rest } := by
  unfold step
  rw [h]

@[simp] theorem busOffset_base (c : Config) (off : Nat) : busOffset c (c.base + off) = some off := by
  simp [busOffset]

@[simp] theorem busOffset_zero (c : Config) : busOffset c c.base = some 0 := by
  simp [busOffset]

/-- The gate discards a word whose opcode does not pass while an error is latched (`spec/60_exceptions.md` R306). -/
theorem issueCommand_gated {w : Word} {s : State} (he : s.err ≠ none) (hw : passesGate w = false) :
    issueCommand w s = .next s := if_pos ⟨he, hw⟩

/-- A word that reaches the decoder and is no command. -/
theorem issueCommand_illegal {w : Word} {s : State} {d : DecodeError} (hg : s.err = none ∨ passesGate w = true)
    (hd : decode w = .error d) : issueCommand w s = .next (s.latch .illegalCommand w) := by
  unfold issueCommand
  rw [if_neg (by rintro ⟨he, hp⟩; rcases hg with hg | hg; exacts [he hg, by simp [hp] at hg]), hd]

/-- A word that reaches the decoder and is a command. -/
theorem issueCommand_ok {w : Word} {s : State} {i : Instr} (hg : s.err = none ∨ passesGate w = true)
    (hd : decode w = .ok i) : issueCommand w s = exec i s := by
  unfold issueCommand
  rw [if_neg (by rintro ⟨he, hp⟩; rcases hg with hg | hg; exacts [he hg, by simp [hp] at hg]), hd]

/-- A 32-bit write at offset 0 issues a command (`spec/10_state.md` R38). -/
theorem perform_command (v : BitVec 64) (s : State) :
    perform (.write s.cfg.base .b32 v) s = issueCommand (v.setWidth 32) { s with reply := .ack } := by
  simp only [perform, busOffset_zero, busWrite, if_true]

/-- A step that issues a command. -/
theorem step_command {s : State} {v : BitVec 64} {rest : List HostAction}
    (h : s.pending = .write s.cfg.base .b32 v :: rest) :
    step s = issueCommand (v.setWidth 32) { s with pending := rest, reply := .ack } :=
  (step_cons h).trans (perform_command v { s with pending := rest })

/-- A read changes nothing but the answer (`spec/20_memory.md` R80). -/
theorem perform_read (addr : Nat) (width : BusWidth) (s : State) :
    ∃ r, perform (.read addr width) s = .next { s with reply := r } := by
  cases ho : busOffset s.cfg addr with
  | none => exact ⟨.error, by simp only [perform, ho, State.refuseAccess]⟩
  | some off =>
    cases width with
    | b16 => exact ⟨.error, by simp only [perform, ho, busRead, State.refuseAccess]⟩
    | b64 => exact ⟨.error, by simp only [perform, ho, busRead, State.refuseAccess]⟩
    | b8 =>
      cases hr : s.readByte off with
      | none => exact ⟨.error, by simp only [perform, ho, busRead, hr, State.refuseAccess]⟩
      | some v => exact ⟨.byte v, by simp only [perform, ho, busRead, hr]⟩
    | b32 =>
      cases hr : s.readRegister off with
      | none => exact ⟨.error, by simp only [perform, ho, busRead, hr, State.refuseAccess]⟩
      | some v => exact ⟨.word v, by simp only [perform, ho, busRead, hr]⟩

/-- Everything a write away from offset 0 can do: it is refused, or it is one of the register and buffer writes. -/
theorem busWrite_cases (off : Nat) (width : BusWidth) (value : BitVec 64) (s : State) (h : ¬ (width = .b32 ∧ off = 0)) :
    busWrite off width value s = .next s.refuseAccess ∨
    (∃ t, width = .b32 ∧ s.writeRegister off (value.setWidth 32) = some t ∧
      busWrite off width value s = .next { t with reply := .ack }) ∨
    ∃ t, width = .b8 ∧ s.writeByte off (value.setWidth 8) = some t ∧
      busWrite off width value s = .next { t with reply := .ack } := by
  cases width with
  | b16 => exact .inl rfl
  | b64 => exact .inl rfl
  | b8 =>
    cases hw : s.writeByte off (value.setWidth 8) with
    | none => exact .inl (by simp only [busWrite, hw])
    | some t => exact .inr (.inr ⟨t, rfl, rfl, by simp only [busWrite, hw]⟩)
  | b32 =>
    have h0 : off ≠ 0 := fun h0 => h ⟨rfl, h0⟩
    cases hw : s.writeRegister off (value.setWidth 32) with
    | none => exact .inl (by simp only [busWrite, if_neg h0, hw])
    | some t => exact .inr (.inl ⟨t, rfl, rfl, by simp only [busWrite, if_neg h0, hw]⟩)

/-- Everything a register write other than one to `CMD` can do (`spec/20_memory.md` R76). -/
theorem State.writeRegister_cases {s t : State} {off : Nat} {v : Word} (h : s.writeRegister off v = some t) :
    t = s ∨ (v.toNat ≤ s.cfg.nbuf ∧ t = { s with ilen := v.toNat }) ∨
    (v.toNat ≤ Config.kcap ∧ t = { s with klen := v.toNat }) ∨ t = s.writeIvHigh v ∨ t = s.writeIvLow v := by
  unfold State.writeRegister at h
  split at h
  · exact .inl (Option.some.inj h).symm
  · split at h
    · exact .inr (.inl ⟨‹_›, (Option.some.inj h).symm⟩)
    · cases h
  · exact .inl (Option.some.inj h).symm
  · split at h
    · exact .inr (.inr (.inl ⟨‹_›, (Option.some.inj h).symm⟩))
    · cases h
  · exact .inr (.inr (.inr (.inl (Option.some.inj h).symm)))
  · exact .inr (.inr (.inr (.inr (Option.some.inj h).symm)))
  · exact .inl (Option.some.inj h).symm
  · cases h

/-- Everything a buffer write can do (`spec/20_memory.md` R78). -/
theorem State.writeByte_cases {s t : State} {off : Nat} {v : Byte} (h : s.writeByte off v = some t) :
    (inKbuf off ∧ t = { s with kbuf := s.kbuf.write (off - 0x40) v }) ∨
    (inIbuf s.cfg off ∧ t = { s with ibuf := s.ibuf.write (off - 0x10000) v }) ∨ t = s := by
  unfold State.writeByte at h
  split at h
  · exact .inl ⟨‹_›, (Option.some.inj h).symm⟩
  · split at h
    · exact .inr (.inl ⟨‹_›, (Option.some.inj h).symm⟩)
    · split at h
      · exact .inr (.inr (Option.some.inj h).symm)
      · cases h

/-- Everything a step can do. -/
theorem perform_cases (a : HostAction) (s : State) :
    (∃ r, perform a s = .next { s with reply := r }) ∨
    (∃ off v t, s.writeRegister off v = some t ∧ perform a s = .next { t with reply := .ack }) ∨
    (∃ off v t, s.writeByte off v = some t ∧ perform a s = .next { t with reply := .ack }) ∨
    (∃ w, perform a s = issueCommand w { s with reply := .ack }) ∨
    perform a s = .next { s.clearAll with reply := .idle } := by
  cases a with
  | read addr width => exact .inl (perform_read addr width s)
  | reset => exact .inr (.inr (.inr (.inr rfl)))
  | write addr width value =>
    cases ho : busOffset s.cfg addr with
    | none => exact .inl ⟨.error, by simp only [perform, ho, State.refuseAccess]⟩
    | some off =>
      have hp : perform (.write addr width value) s = busWrite off width value s := by simp only [perform, ho]
      rw [hp]
      by_cases h : width = .b32 ∧ off = 0
      · obtain ⟨rfl, rfl⟩ := h
        exact .inr (.inr (.inr (.inl ⟨_, rfl⟩)))
      · rcases busWrite_cases off width value s h with h | ⟨t, -, hw, h⟩ | ⟨t, -, hw, h⟩
        · exact .inl ⟨.error, h⟩
        · exact .inr (.inl ⟨_, _, t, hw, h⟩)
        · exact .inr (.inr (.inl ⟨_, _, t, hw, h⟩))

/-- `KBUF[i]` on the bus. -/
theorem State.readByte_kbuf (s : State) {i : Nat} (h : i < Config.kcap) :
    s.readByte (0x40 + i) = some (s.kbuf.read i) := by
  unfold State.readByte
  rw [if_pos ⟨by omega, by omega⟩, Nat.add_sub_cancel_left]

/-- `IBUF[i]` on the bus. -/
theorem State.readByte_ibuf (s : State) {i : Nat} (h : i < s.cfg.nbuf) :
    s.readByte (0x10000 + i) = some (s.ibuf.read i) := by
  unfold State.readByte
  rw [if_neg (by rintro ⟨-, h2⟩; simp only [Config.kcap] at h2; omega), if_pos ⟨by omega, by omega⟩,
    Nat.add_sub_cancel_left]

/-- `OBUF[i]` on the bus. -/
theorem State.readByte_obuf (s : State) (hn : s.cfg.nbuf ≤ 65536) {i : Nat} (h : i < s.cfg.nbuf) :
    s.readByte (0x20000 + i) = some (s.outputByte i) := by
  unfold State.readByte
  rw [if_neg (by rintro ⟨-, h2⟩; simp only [Config.kcap] at h2; omega), if_neg (by rintro ⟨-, h2⟩; omega),
    if_pos ⟨by omega, by omega⟩, Nat.add_sub_cancel_left]

/-- After reset each buffer is in canonical form. -/
theorem State.reset_wf : State.reset.kbuf.wf ∧ State.reset.ibuf.wf ∧ State.reset.obuf.wf :=
  ⟨Memory.wf_nil, Memory.wf_nil, Memory.wf_nil⟩

/-- A buffer write of the host keeps each buffer in canonical form. -/
theorem State.writeByte_wf {s t : State} {off : Nat} {v : Byte} (h : s.writeByte off v = some t)
    (hs : s.kbuf.wf ∧ s.ibuf.wf ∧ s.obuf.wf) : t.kbuf.wf ∧ t.ibuf.wf ∧ t.obuf.wf := by
  rcases State.writeByte_cases h with ⟨-, rfl⟩ | ⟨-, rfl⟩ | rfl
  · exact ⟨Memory.wf_write hs.1 _ _, hs.2⟩
  · exact ⟨hs.1, Memory.wf_write hs.2.1 _ _, hs.2.2⟩
  · exact hs

end Sys2Proof.Machine
end

