-- ==== Sys2Proof/Laws/Bits.lean ====
section
/-! SUPPORT. The laws of the bit primitives: a bit of a permuted value, and rotation of a key half. -/

namespace Sys2Proof.Machine

/-- Bit `k` of the number whose binary digits are listed, most significant first. -/
theorem testBit_foldl (f : Nat → Bool) (t : List Nat) : ∀ k, k < t.length →
    (t.foldl (fun acc i => 2 * acc + (f i).toNat) 0).testBit k = f (t.getD (t.length - 1 - k) 0) := by
  induction t using List.reverseRecOn with
  | nil => intro k h; simp at h
  | append_singleton t x ih =>
    intro k h
    rw [List.foldl_append]
    simp only [List.foldl_cons, List.foldl_nil, List.length_append, List.length_singleton] at *
    cases k with
    | zero =>
      have : (t ++ [x]).getD (t.length + 1 - 1 - 0) 0 = x := by simp
      rw [this]
      cases f x <;> simp [Nat.testBit_zero, Bool.toNat]
    | succ k =>
      rw [Nat.testBit_succ]
      have e : (2 * List.foldl (fun acc i => 2 * acc + (f i).toNat) 0 t + (f x).toNat) / 2 = List.foldl (fun acc i => 2 * acc + (f i).toNat) 0 t := by
        have : (f x).toNat ≤ 1 := by cases f x <;> simp
        omega
      rw [e, ih k (by omega)]
      congr 1
      have : t.length + 1 - 1 - (k + 1) = t.length - 1 - k := by omega
      rw [this, List.getD_append _ _ _ _ (by omega)]

/-- Bit `k` of a permuted value, counted from the right (`spec/00_scope.md` R13). -/
theorem permute_getLsbD {n : Nat} (m : Nat) (t : List Nat) (v : BitVec n) (h : t.length = m) (k : Nat) (hk : k < m) :
    (permute m t v).getLsbD k = fipsBit v (t.getD (m - 1 - k) 0) := by
  subst h
  unfold permute
  rw [BitVec.getLsbD_ofNat, testBit_foldl _ _ _ hk]
  simp [hk]

/-- A permutation reads the bits its table lists, and no other. -/
theorem permute_congr {n : Nat} (m : Nat) (t : List Nat) (v w : BitVec n) (h : ∀ x ∈ t, fipsBit v x = fipsBit w x) :
    permute m t v = permute m t w := by
  unfold permute
  congr 1
  have : ∀ acc, t.foldl (fun acc i => 2 * acc + (fipsBit v i).toNat) acc = t.foldl (fun acc i => 2 * acc + (fipsBit w i).toNat) acc := by
    induction t with
    | nil => intro acc; rfl
    | cons x t ih =>
      intro acc
      simp only [List.foldl_cons]
      rw [h x (by simp), ih (fun y hy => h y (by simp [hy]))]
  exact this 0

/-- `rol28` is the circular rotation. -/
theorem rol28_eq_rotateLeft (x : KeyHalf) (s : Nat) (hs : s = 1 ∨ s = 2) : rol28 x s = x.rotateLeft s := by
  rcases hs with rfl | rfl <;> rfl

/-- Rotations add up. -/
theorem rotateLeft_rotateLeft (x : KeyHalf) (a b : Nat) : (x.rotateLeft a).rotateLeft b = x.rotateLeft (a + b) := by
  apply BitVec.eq_of_getLsbD_eq
  intro i hi
  simp only [BitVec.getLsbD_rotateLeft]
  have h3 : i < 28 := hi
  have ha : a % 28 < 28 := Nat.mod_lt _ (by omega)
  have hb : b % 28 < 28 := Nat.mod_lt _ (by omega)
  have hab : (a + b) % 28 = (a % 28 + b % 28) % 28 := Nat.add_mod _ _ _
  generalize a % 28 = p at *
  generalize b % 28 = q at *
  rw [hab]
  have cut : ∀ (P : Prop) [Decidable P] (u v : Bool), (bif decide P then u else v) = if P then u else v := by
    intro P _ u v; by_cases h : P <;> simp [h]
  have red : ∀ k (r : Bool), k < 28 → (decide (k < 28) && r) = r := by intro k r hk; simp [hk]
  have hm : (p + q < 28 ∧ (p + q) % 28 = p + q) ∨ (28 ≤ p + q ∧ (p + q) % 28 = p + q - 28) := by omega
  simp only [cut]
  rcases hm with ⟨h, e⟩ | ⟨h, e⟩ <;> rw [e] <;> by_cases h1 : i < q
  · rw [if_pos h1, if_neg (by omega), if_pos (by omega), red _ _ (by omega)]; congr 1; omega
  · rw [if_neg h1]
    by_cases h2 : i - q < p
    · rw [if_pos h2, if_pos (by omega)]; simp only [h3, decide_true, Bool.true_and]; congr 1; omega
    · rw [if_neg h2, if_neg (by omega)]; simp only [red i _ h3, red (i - q) _ (by omega)]; congr 1; omega
  · rw [if_pos h1]
    by_cases h2 : 28 - q + i < p
    · rw [if_pos h2, if_pos (by omega)]; congr 1; omega
    · rw [if_neg h2, if_neg (by omega), red _ _ (by omega)]; simp only [h3, decide_true, Bool.true_and]; congr 1; omega
  · rw [if_neg h1, if_pos (by omega), if_neg (by omega)]; congr 2; omega

/-- A rotation by the whole width. -/
theorem rotateLeft_28 (x : KeyHalf) : x.rotateLeft 28 = x := by
  apply BitVec.eq_of_getLsbD_eq
  intro i hi
  rw [BitVec.getLsbD_rotateLeft]
  simp; exact fun _ => hi

/-- A rotation by nothing. -/
theorem rotateLeft_zero28 (x : KeyHalf) : x.rotateLeft 0 = x := by
  apply BitVec.eq_of_getLsbD_eq
  intro i hi
  rw [BitVec.getLsbD_rotateLeft]
  simp; exact fun _ => hi

end Sys2Proof.Machine
end

