-- ==== Sys2Proof/Laws/Text.lean ====
section
/-! SUPPORT. The laws of texts and pads: lengths, one group of a text, and what `unpad` accepts. -/

namespace Sys2Proof.Machine

/-- The length of a hexadecimal text. -/
theorem hexEnc_length (m : List Byte) : (hexEnc m).length = 2 * m.length := by
  unfold hexEnc; induction m with
  | nil => rfl
  | cons b m ih => rw [List.flatMap_cons, List.length_append, ih]; simp; omega

/-- One byte of a hexadecimal text. -/
theorem hexDec_cons (a b : Byte) (rest : List Byte) : hexDec (a :: b :: rest) =
    (hexVal a).bind fun x => (hexVal b).bind fun y => (hexDec rest).map fun m => BitVec.ofNat 8 (x * 16 + y) :: m := by
  simp only [hexDec]
  cases hexVal a <;> cases hexVal b <;> cases hexDec rest <;> rfl

/-- The length of the bytes of a hexadecimal text. -/
theorem hexDec_length : ∀ {t m : List Byte}, hexDec t = some m → t.length = 2 * m.length
  | [], m, h => by simp [hexDec] at h; subst h; rfl
  | [_], m, h => by simp [hexDec] at h
  | a :: b :: rest, m, h => by
    rw [hexDec_cons] at h
    simp only [Option.bind_eq_some_iff, Option.map_eq_some_iff] at h
    obtain ⟨x, -, y, -, m', hm, rfl⟩ := h
    have := hexDec_length hm
    simp [this]; omega

/-- A digit value is below 16. -/
theorem hexVal_lt : ∀ c : Byte, ∀ v, hexVal c = some v → v < 16 := by
  intro c v h
  unfold hexVal at h
  split at h
  · have := Option.some.inj h; omega
  · split at h
    · have := Option.some.inj h; omega
    · split at h
      · have := Option.some.inj h; omega
      · cases h

/-- The value of a digit the encoder writes. -/
theorem hexVal_hexDigit (v : Nat) (h : v < 16) : hexVal (hexDigit v) = some v := by
  have : ∀ v : Fin 16, hexVal (hexDigit v) = some v.val := by decide
  exact this ⟨v, h⟩

/-- The value of a character of the base64 alphabet. -/
theorem b64Val_b64Char (v : Nat) (h : v < 64) : b64Val (b64Char v) = some v := by
  have : ∀ v : Fin 64, b64Val (b64Char v) = some v.val := by decide
  exact this ⟨v, h⟩

/-- The length of a base64 text. -/
theorem b64Enc_length : ∀ m : List Byte, (b64Enc m).length = 4 * ((m.length + 2) / 3)
  | [] => rfl
  | [a] => by simp [b64Enc]
  | [a, b] => by simp [b64Enc]
  | a :: b :: c :: rest => by
    simp only [b64Enc, List.length_cons, b64Enc_length rest]; omega

/-- The last group of a base64 text. -/
theorem b64Dec_last (a b c d : Byte) : b64Dec [a, b, c, d] = lastGroup a b c d := by simp only [b64Dec]

/-- A group of a base64 text that is not the last. -/
theorem b64Dec_more (a b c d : Byte) (rest : List Byte) (h : rest ≠ []) : b64Dec (a :: b :: c :: d :: rest) =
    match fullGroup a b c d, b64Dec rest with
    | some g, some m => some (g ++ m)
    | _, _ => none := by
  cases rest with
  | nil => exact absurd rfl h
  | cons e rest => rfl

/-- The length of a ciphertext text. -/
theorem encodeText_length (enc : TextEnc) (m) : (encodeText enc m).length = textLength enc m.length := by cases enc; exacts [hexEnc_length m, b64Enc_length m]

/-- The padded length is the next multiple of 8. -/
theorem add_padLength (n : Nat) : n + padLength n = 8 * (n / 8 + 1) := by unfold padLength; omega

/-- The length of a padded sequence. -/
theorem pad_length (m : List Byte) : (pad m).length = 8 * (m.length / 8 + 1) := by
  unfold pad; rw [List.length_append, List.length_replicate, add_padLength]

/-- What `unpad` accepts ends in a pad (`spec/44_padding.md` R212). -/
theorem unpad_some {m r : List Byte} (h : unpad m = some r) : ∃ n, 1 ≤ n ∧ n ≤ 8 ∧ m = r ++ List.replicate n (BitVec.ofNat 8 n) := by
  unfold unpad at h
  split at h
  · cases h
  · rename_i b hb
    split at h
    · cases h
    · rename_i h1
      split at h
      · cases h
      · rename_i h2
        split at h
        · rename_i h3
          have := Option.some.inj h
          subst this
          refine ⟨b.toNat, by omega, by omega, ?_⟩
          have hd : m.drop (m.length - b.toNat) = List.replicate b.toNat (BitVec.ofNat 8 b.toNat) := by
            rw [List.eq_replicate_iff]
            refine ⟨by rw [List.length_drop]; omega, fun x hx => ?_⟩
            have := List.all_eq_true.mp h3 x hx
            simp only [beq_iff_eq] at this
            rw [this]; simp
          rw [← hd, List.take_append_drop]
        · cases h

/-- Byte `j` of the input. -/
theorem State.input_getD (s : State) {j : Nat} (h : j < s.ilen) : s.input.getD j 0 = s.ibuf.read j := by
  have := Memory.getElem_load s.ibuf s.ilen 0 j (by rwa [Memory.length_load])
  rw [Nat.zero_add] at this
  rw [List.getD_eq_getElem?_getD]
  unfold State.input
  rw [List.getElem?_eq_getElem (by rwa [Memory.length_load])]; exact this

end Sys2Proof.Machine
end

