-- ==== Sys2Proof/Laws/Cipher.lean ====
section
/-! SUPPORT. The laws of the ciphers, the chaining modes and the engines' runs: lengths, one block of a sequence, one more
micro-step; and how a command that puts out data, or raises, answers. -/

namespace Sys2Proof.Machine

/-- CBC keeps the number of blocks. -/
theorem cbcEnc_length (f) : ∀ (bs : List Block) cv, (cbcEnc f cv bs).length = bs.length := by
  intro bs; induction bs with
  | nil => intro cv; rfl
  | cons b bs ih => intro cv; simp only [cbcEnc, List.length_cons, ih]

/-- CBC keeps the number of blocks. -/
theorem cbcDec_length (f) : ∀ (bs : List Block) cv, (cbcDec f cv bs).length = bs.length := by
  intro bs; induction bs with
  | nil => intro cv; rfl
  | cons b bs ih => intro cv; simp only [cbcDec, List.length_cons, ih]

/-- Chaining keeps the length. -/
theorem chainEnc_length (alg mode) (m : List Byte) (rk iv) (h : m.length % 8 = 0) : (chainEnc alg mode m rk iv).length = m.length := by
  cases mode
  · simp only [chainEnc, length_ofBlocks, List.length_map, length_toBlocks h]; omega
  · simp only [chainEnc, length_ofBlocks, cbcEnc_length, length_toBlocks h]; omega

/-- Chaining keeps the length. -/
theorem chainDec_length (alg mode) (m : List Byte) (rk iv) (h : m.length % 8 = 0) : (chainDec alg mode m rk iv).length = m.length := by
  cases mode
  · simp only [chainDec, length_ofBlocks, List.length_map, length_toBlocks h]; omega
  · simp only [chainDec, length_ofBlocks, cbcDec_length, length_toBlocks h]; omega

/-- Block `j` of the bytes of a sequence of blocks. -/
theorem blockAt_ofBlocks (bs : List Block) : ∀ j, j < bs.length → blockAt (ofBlocks bs) j = bs.getD j 0 := by
  unfold blockAt
  induction bs with
  | nil => intro j h; simp at h
  | cons b bs ih =>
    intro j h
    cases j with
    | zero => rw [ofBlocks_cons]; simp [List.take_left' (length_bytes8 b)]
    | succ j =>
      rw [ofBlocks_cons, show 8 * (j + 1) = 8 + 8 * j by omega, ← List.drop_drop, List.drop_left' (length_bytes8 b)]
      simpa using ih j (by simpa using h)

/-- A pass uses sixteen subkeys. -/
theorem passKeys_length (rk dir) : (passKeys rk dir).length = 16 := by cases dir <;> simp [passKeys]

/-- One more micro-step. -/
theorem RoundEngine.run_succ (b rk) (n) (e : RoundEngine) : RoundEngine.run b rk (n + 1) e = (RoundEngine.run b rk n e).tick b rk := by
  induction n generalizing e with
  | zero => rfl
  | succ n ih => show RoundEngine.run b rk (n + 1) (e.tick b rk) = _; rw [ih]; rfl

/-- A round of the engine (`spec/42_des_block.md` R184). -/
theorem RoundEngine.tick_round (b : Block) (rk) (e : RoundEngine) (n : Nat) (hp : e.phase = .round) (hi : e.i = n) : e.tick b rk =
    { e with
      l := e.r
      r := updateHalf e.l (substitute (mixKey (expandHalf e.r) (rk.toList.getD (subkeyIndex e.dir n - 1) 0)))
      i := if n = 16 then n else n + 1
      phase := if n = 16 then .fp else .round } := by
  subst hi; unfold RoundEngine.tick; rw [hp]

/-- The engine's last micro-step. -/
theorem RoundEngine.tick_fp (b : Block) (rk) (e : RoundEngine) (hp : e.phase = .fp) : e.tick b rk =
    { e with out := permute 64 fpTable (e.r ++ e.l), phase := .idle } := by
  unfold RoundEngine.tick; rw [hp]

/-- One more micro-step. -/
theorem KsEngine.run_succ (key) (n) (e : KsEngine) : KsEngine.run key (n + 1) e = (KsEngine.run key n e).tick key := by
  induction n generalizing e with
  | zero => rfl
  | succ n ih => show KsEngine.run key (n + 1) (e.tick key) = _; rw [ih]; rfl

/-- A round of the key-schedule FSM (`spec/41_key_schedule.md` R165). -/
theorem KsEngine.tick_round (key : Block) (e : KsEngine) (n : Nat) (hp : e.phase = .round) (hi : e.i = n) : e.tick key =
    { phase := if n = 16 then .done else .round, c := rol28 e.c (shiftAt n), d := rol28 e.d (shiftAt n),
      i := if n = 16 then n else n + 1,
      rk := e.rk.setIfInBounds (n - 1) (permute 48 pc2Table (rol28 e.c (shiftAt n) ++ rol28 e.d (shiftAt n))),
      rkv := e.rkv } := by
  subst hi
  unfold KsEngine.tick
  rw [hp]

/-- The FSM's last micro-step. -/
theorem KsEngine.tick_done (key : Block) (e : KsEngine) (hp : e.phase = .done) : e.tick key = { e with rkv := true, phase := .idle } := by
  unfold KsEngine.tick
  rw [hp]

/-- `need_sched` (`spec/45_chaining.md` R221). -/
theorem scheduled_iff (s : State) (alg) : Scheduled s alg ↔ s.schedulesValid alg = true := by
  unfold Scheduled State.schedulesValid
  cases alg
  · constructor
    · intro h; exact h .k1 (.inr rfl)
    · rintro h k (hk | rfl)
      · cases hk
      · exact h
  · simp only [Bool.and_eq_true]
    constructor
    · intro h; exact ⟨⟨h .k1 (by simp), h .k2 (by simp)⟩, h .k3 (by simp)⟩
    · rintro ⟨⟨h1, h2⟩, h3⟩ k -
      cases k <;> assumption

/-- `need_blocks` (`spec/45_chaining.md` R222). -/
theorem wholeBlocks_iff (n : Nat) : wholeBlocks n = true ↔ 0 < n ∧ n % 8 = 0 := by
  unfold wholeBlocks; simp [Nat.pos_iff_ne_zero]

/-- The slot of a `KS` field (`spec/30_encoding.md` R103). -/
theorem slotOf_of_mem {ks : BitVec 2} {k : Slot} (h : (ks, k) ∈ slotFields) : slotOf ks = some k := by
  simp only [slotFields, List.mem_cons, Prod.mk.injEq, List.not_mem_nil, or_false] at h
  rcases h with ⟨rfl, rfl⟩ | ⟨rfl, rfl⟩ | ⟨rfl, rfl⟩ <;> rfl

/-- A command that answers with an output produces it. -/
theorem produces_emit {i : Instr} {s : State} {out : List Byte} (h : exec i s = .next (s.emit out)) : Produces i s out :=
  ⟨_, h, rfl, State.output_emit s out, rfl⟩

/-- A command whose effect is an error raises it. -/
theorem settle_raises {i : Instr} {s : State} {e} {r : Except ErrorKind State} (he : s.err = none) (h : r = .error e) : settle i s r = .next (s.failed e (encode i)) := by
  rw [h, settle_error, State.latch_of_none he]

/-- `XFER` of what a command put out makes it the input. -/
theorem exec_xfer_emit (s : State) (hs : s.ibuf.wf) (out : List Byte) : ∃ t, exec .xfer (s.emit out) = .next t ∧ t.input = out ∧ t.ilen = out.length ∧ t.cfg = s.cfg ∧
    t = { s.emit out with ibuf := t.ibuf, ilen := t.ilen } ∧ t.ibuf.wf := by
  refine ⟨_, rfl, ?_, rfl, rfl, rfl, Memory.wf_store hs _ _⟩
  show Memory.load (Memory.store s.ibuf 0 (s.emit out).output) 0 out.length = out
  rw [State.output_emit, Memory.load_store hs]

end Sys2Proof.Machine
end

