-- ==== Sys2Proof/Laws/PerInstr.lean ====
section
/-! SUPPORT. What holds of each command as syntax, one lemma for each constructor. `FixedFields`: bits 31:13 of a
command's word are zero and bits 7:0 are its opcode (`spec/30_encoding.md` R101, R107). -/

namespace Sys2Proof.Laws.FixedFields

/-- Bits 31:13 of the word are zero, bits 7:0 are the opcode. -/
@[reducible] def Statement (i : Instr) : Prop := (encode i).extractLsb' 13 19 = 0 ∧ opField (encode i) = i.opcode

theorem nop : Statement .nop := by decide
theorem clrerr : Statement .clrerr := by decide
theorem zeroize : Statement .zeroize := by decide
theorem xfer : Statement .xfer := by decide
theorem ivclr : Statement .ivclr := by decide
theorem geniv : Statement .geniv := by decide
theorem loadkey (alg : Alg) : Statement (.loadkey alg) := by cases alg <;> decide
theorem ksched (ks : BitVec 2) : Statement (.ksched ks) := by revert ks; decide
theorem desenc (ks : BitVec 2) : Statement (.desenc ks) := by revert ks; decide
theorem desdec (ks : BitVec 2) : Statement (.desdec ks) := by revert ks; decide
theorem tdesenc : Statement .tdesenc := by decide
theorem tdesdec : Statement .tdesdec := by decide
theorem pad : Statement .pad := by decide
theorem unpad : Statement .unpad := by decide
theorem ecbenc (alg : Alg) : Statement (.ecbenc alg) := by cases alg <;> decide
theorem ecbdec (alg : Alg) : Statement (.ecbdec alg) := by cases alg <;> decide
theorem cbcenc (alg : Alg) : Statement (.cbcenc alg) := by cases alg <;> decide
theorem cbcdec (alg : Alg) : Statement (.cbcdec alg) := by cases alg <;> decide
theorem hexenc : Statement .hexenc := by decide
theorem hexdec : Statement .hexdec := by decide
theorem b64enc : Statement .b64enc := by decide
theorem b64dec : Statement .b64dec := by decide
theorem encrypt (alg : Alg) (mode : ChainMode) (enc : TextEnc) : Statement (.encrypt alg mode enc) := by
  cases alg <;> cases mode <;> cases enc <;> decide
theorem decrypt (alg : Alg) (mode : ChainMode) (enc : TextEnc) : Statement (.decrypt alg mode enc) := by
  cases alg <;> cases mode <;> cases enc <;> decide
theorem genkey (alg : Alg) : Statement (.genkey alg) := by cases alg <;> decide

end Sys2Proof.Laws.FixedFields
end

