-- ==== Sys2Proof/Laws/Pseudo.lean ====
section
/-! SUPPORT. What the bus accesses of the pseudo-instructions do: one access, and runs of them over a buffer
(`spec/30_encoding.md` R114). -/

namespace Sys2Proof.Machine

@[simp] theorem performAll_singleton (a : HostAction) (s : State) : performAll [a] s = perform a s := by
  unfold performAll
  cases perform a s <;> rfl

theorem performAll_append {l : List HostAction} (m : List HostAction) :
    ∀ {s t : State}, performAll l s = .next t → performAll (l ++ m) s = performAll m t := by
  induction l with
  | nil => intro s t h; cases h; rfl
  | cons a l ih =>
    intro s t h
    rw [performAll] at h
    rw [List.cons_append, performAll]
    cases hp : perform a s with
    | next u => rw [hp] at h; exact ih h
    | fault r => rw [hp] at h; cases h
    | refused r => rw [hp] at h; cases h

theorem performAll_next {a : HostAction} {rest : List HostAction} {s t : State} (h : perform a s = .next t) :
    performAll (a :: rest) s = performAll rest t := by
  rw [performAll, h]

theorem collect_next {a : HostAction} {rest : List HostAction} {s t : State} (h : perform a s = .next t) :
    collect (a :: rest) s = (collect rest t).map fun p => (t.reply :: p.1, p.2) := by
  rw [collect, h]

/-- A 32-bit read of a register answers its value. -/
theorem perform_memRead32 {c : Config} {s : State} (hc : s.cfg = c) {off : Nat} {v : Word}
    (h : s.readRegister off = some v) : perform (memRead32 c off) s = .next { s with reply := .word v } := by
  subst hc
  unfold memRead32 perform
  simp only [busOffset_base, busRead, h]

/-- An 8-bit read of a buffer answers the byte. -/
theorem perform_memRead8 {c : Config} {s : State} (hc : s.cfg = c) {off : Nat} {v : Byte}
    (h : s.readByte off = some v) : perform (memRead8 c off) s = .next { s with reply := .byte v } := by
  subst hc
  unfold memRead8 perform
  simp only [busOffset_base, busRead, h]

/-- A 32-bit write of a register other than `CMD` updates it. -/
theorem perform_memWrite32 {c : Config} {s t : State} (hc : s.cfg = c) {off : Nat} (ho : off ≠ 0) {v : Word}
    (h : s.writeRegister off v = some t) : perform (memWrite32 c off v) s = .next { t with reply := .ack } := by
  subst hc
  unfold memWrite32 perform
  simp only [busOffset_base, busWrite]
  rw [show (v.setWidth 64).setWidth 32 = v by simp, if_neg ho, h]

/-- An 8-bit write of a buffer updates it. -/
theorem perform_memWrite8 {c : Config} {s t : State} (hc : s.cfg = c) {off : Nat} {v : Byte}
    (h : s.writeByte off v = some t) : perform (memWrite8 c off v) s = .next { t with reply := .ack } := by
  subst hc
  unfold memWrite8 perform
  simp only [busOffset_base, busWrite]
  rw [show (v.setWidth 64).setWidth 8 = v by simp, h]

/-- A pseudo-instruction that reads one register answers its value. -/
theorem oneWord_memRead32 {c : Config} {s : State} (hc : s.cfg = c) {off : Nat} {v : Word}
    (h : s.readRegister off = some v) : oneWord [memRead32 c off] s = some (v, { s with reply := .word v }) := by
  unfold oneWord
  rw [collect_next (perform_memRead32 hc h)]
  rfl

/-- Byte writes to `KBUF` store the bytes. -/
theorem performAll_writeBytes_kbuf (c : Config) (text : List Byte) :
    ∀ (i : Nat) (s : State), s.cfg = c → i + text.length ≤ 64 →
      ∃ r, performAll (writeBytes c (0x40 + i) text) s = .next { s with kbuf := s.kbuf.store i text, reply := r } := by
  induction text with
  | nil => intro i s _ _; exact ⟨s.reply, rfl⟩
  | cons b text ih =>
    intro i s hc h
    rw [List.length_cons] at h
    have hw : s.writeByte (0x40 + i) b = some { s with kbuf := s.kbuf.write i b } := by
      unfold State.writeByte
      rw [if_pos ⟨by omega, by unfold Config.kcap; omega⟩, Nat.add_sub_cancel_left]
    obtain ⟨r, hr⟩ := ih (i + 1) { s with kbuf := s.kbuf.write i b, reply := .ack } hc (by omega)
    exact ⟨r, by rw [writeBytes, performAll_next (perform_memWrite8 hc hw)]; exact hr⟩

/-- Byte writes to `IBUF` store the bytes. -/
theorem performAll_writeBytes_ibuf (c : Config) (bytes : List Byte) :
    ∀ (i : Nat) (s : State), s.cfg = c → i + bytes.length ≤ c.nbuf →
      ∃ r, performAll (writeBytes c (0x10000 + i) bytes) s =
        .next { s with ibuf := s.ibuf.store i bytes, reply := r } := by
  induction bytes with
  | nil => intro i s _ _; exact ⟨s.reply, rfl⟩
  | cons b bytes ih =>
    intro i s hc h
    rw [List.length_cons] at h
    have hw : s.writeByte (0x10000 + i) b = some { s with ibuf := s.ibuf.write i b } := by
      unfold State.writeByte
      rw [if_neg (by rintro ⟨-, h⟩; unfold Config.kcap at h; omega), if_pos ⟨by omega, by rw [hc]; omega⟩,
        Nat.add_sub_cancel_left]
    obtain ⟨r, hr⟩ := ih (i + 1) { s with ibuf := s.ibuf.write i b, reply := .ack } hc (by omega)
    exact ⟨r, by rw [writeBytes, performAll_next (perform_memWrite8 hc hw)]; exact hr⟩

/-- Byte reads of `OBUF` below `OLEN` answer the bytes and change nothing. -/
theorem collect_readBytes_obuf {c : Config} {m : Memory} {len : Nat} (hv : c.Valid) (hl : len ≤ c.nbuf) :
    ∀ (n i : Nat) (s : State), s.cfg = c → s.obuf = m → s.olen = len → i + n ≤ len →
      ∃ rs r, collect (readBytes c (0x20000 + i) n) s = some (rs, { s with reply := r }) ∧
        bytesOf rs = some (m.load i n) := by
  intro n
  induction n with
  | zero => intro i s _ _ _ _; exact ⟨[], s.reply, rfl, rfl⟩
  | succ n ih =>
    intro i s hc hm hs h
    have hr : s.readByte (0x20000 + i) = some (m.read i) := by
      rw [State.readByte_obuf s (by rw [hc]; exact hv.2) (by rw [hc]; omega)]
      unfold State.outputByte
      rw [if_pos (by omega), hm]
    obtain ⟨rs, r, h1, h2⟩ := ih (i + 1) { s with reply := .byte (m.read i) } hc hm hs (by omega)
    refine ⟨.byte (m.read i) :: rs, r, ?_, ?_⟩
    · rw [readBytes, collect_next (perform_memRead8 hc hr), Nat.add_assoc, h1]
      rfl
    · rw [bytesOf, h2]
      rfl

end Sys2Proof.Machine
end

