-- ==== Sys2Proof/Tests/Slice0.lean ====
section
/-! SUPPORT. Tests: terms the well-formedness check refuses, words written out from the spec's encodings, one-step tests
against the worked examples and vectors of the spec (`spec/95_test_vectors.md` and the worked examples of the rules), and a
concrete state for the hypotheses of every statement that has any. -/

namespace Sys2Proof.Tests

open Sys2Proof Sys2Proof.Machine

/-! ### Helpers -/

/-- ASCII bytes. -/
def ascii (s : String) : List Byte := s.toList.map fun c => BitVec.ofNat 8 c.toNat

/-- After reset, with a key text in `KBUF` and an input in `IBUF`. -/
def given (text input : List Byte) : State :=
  { State.reset with
    kbuf := Memory.ofBytes text, klen := text.length, ibuf := Memory.ofBytes input, ilen := input.length }

/-- With keys and their schedules in the slots of `alg`, and an IV. -/
def withKeys (alg : Alg) (k1 k2 k3 iv : Block) (s : State) : State :=
  { s.installKeys alg { k1 := k1, k2 := k2, k3 := k3 } with iv := iv, ivv := true }

/-- The key of the known-answer vector, in slot 1. -/
def desKey (s : State) : State := withKeys .des 0x133457799BBCDFF1 0 0 0x0102030405060708 s

/-- The three keys of `spec/43_tdes_block.md` R201. -/
def tdesKeys (s : State) : State :=
  withKeys .tdes 0x0123456789ABCDEF 0x23456789ABCDEF01 0x456789ABCDEF0123 0x0102030405060708 s

/-- What is read off a next state. -/
def look {α : Type} (o : Outcome) (f : State → α) : Option α :=
  match o with
  | .next t => some (f t)
  | .fault _ => none
  | .refused _ => none

/-- The output, and what `STATUS` and `ECMD` read. -/
def seen (o : Outcome) : Option (List Byte × Word × Word) := look o fun t => (t.output, t.statusWord, t.ecmd)

/-- The outcome is a next state that passes a check. -/
def nextWith (o : Outcome) (p : State → Bool) : Bool :=
  match o with
  | .next t => p t
  | .fault _ => false
  | .refused _ => false

/-- A next state that passes a check exists. -/
theorem exists_next {o : Outcome} {p : State → Bool} (h : nextWith o p = true) : ∃ t, o = .next t ∧ p t = true := by
  cases o with
  | next t => exact ⟨t, rfl, h⟩
  | fault r => cases h
  | refused r => cases h

/-- A state in which no register is at its reset value but the error latch: the keys of R201, an IV, a key text, an input of
one block, an output of one byte, and a host with actions left. -/
def busy (actions : List HostAction) : State :=
  { tdesKeys (given (ascii "133457799BBCDFF1") [0x85, 0xE8, 0x13, 0x54, 0x0F, 0x0A, 0xB4, 0x05]) with
    obuf := [(0, 0x78)], olen := 1, entropy := [0xA1, 0xA2, 0xA3, 0xA4, 0xA5, 0xA6, 0xA7, 0xA8],
    cfg := { nbuf := 64, base := 0x1000 }, pending := actions }

/-- The same with KeyLengthError latched by the word 0x00000060. -/
def stuck (actions : List HostAction) : State :=
  { busy actions with err := some .keyLength, ecmd := 0x00000060, obuf := [], olen := 0 }

/-! ### Well-formedness: the one check, and the terms it refuses -/

theorem test_ksched_slot_zero_ill_formed : Instr.wellFormed (.ksched 0) = false := by decide
theorem test_desenc_slot_zero_ill_formed : Instr.wellFormed (.desenc 0) = false := by decide
theorem test_desdec_slot_zero_ill_formed : Instr.wellFormed (.desdec 0) = false := by decide
theorem test_ksched_slots_well_formed : ([1, 2, 3].map fun ks => Instr.wellFormed (.ksched ks)) = [true, true, true] := by decide

/-! ### Decoding: words written out from `spec/30_encoding.md` R101, R102, R108

Each word is written field by field: bits 31:13, `ENC`, `MODE`, `ALG`, `KS`, `OP`. -/

theorem test_decode_nop : decode (0b0000000000000000000_0_0_0_00_00000000 : BitVec 32) = .ok .nop := by rfl
theorem test_decode_clrerr : decode (0b0000000000000000000_0_0_0_00_00000001 : BitVec 32) = .ok .clrerr := by rfl
theorem test_decode_zeroize : decode (0b0000000000000000000_0_0_0_00_00000010 : BitVec 32) = .ok .zeroize := by rfl
theorem test_decode_xfer : decode (0b0000000000000000000_0_0_0_00_00000011 : BitVec 32) = .ok .xfer := by rfl
theorem test_decode_ivclr : decode (0b0000000000000000000_0_0_0_00_00000100 : BitVec 32) = .ok .ivclr := by rfl
theorem test_decode_geniv : decode (0b0000000000000000000_0_0_0_00_00000101 : BitVec 32) = .ok .geniv := by rfl
theorem test_decode_loadkey : decode (0b0000000000000000000_0_0_1_00_00010000 : BitVec 32) = .ok (.loadkey .tdes) := by rfl
theorem test_decode_ksched : decode (0b0000000000000000000_0_0_0_11_00010001 : BitVec 32) = .ok (.ksched 3) := by rfl
theorem test_decode_desenc : decode (0b0000000000000000000_0_0_0_01_00100000 : BitVec 32) = .ok (.desenc 1) := by rfl
theorem test_decode_desdec : decode (0b0000000000000000000_0_0_0_10_00100001 : BitVec 32) = .ok (.desdec 2) := by rfl
theorem test_decode_tdesenc : decode (0b0000000000000000000_0_0_0_00_00101000 : BitVec 32) = .ok .tdesenc := by rfl
theorem test_decode_tdesdec : decode (0b0000000000000000000_0_0_0_00_00101001 : BitVec 32) = .ok .tdesdec := by rfl
theorem test_decode_pad : decode (0b0000000000000000000_0_0_0_00_00110000 : BitVec 32) = .ok .pad := by rfl
theorem test_decode_unpad : decode (0b0000000000000000000_0_0_0_00_00110001 : BitVec 32) = .ok .unpad := by rfl
theorem test_decode_ecbenc : decode (0b0000000000000000000_0_0_1_00_01000000 : BitVec 32) = .ok (.ecbenc .tdes) := by rfl
theorem test_decode_ecbdec : decode (0b0000000000000000000_0_0_0_00_01000001 : BitVec 32) = .ok (.ecbdec .des) := by rfl
theorem test_decode_cbcenc : decode (0b0000000000000000000_0_0_1_00_01000010 : BitVec 32) = .ok (.cbcenc .tdes) := by rfl
theorem test_decode_cbcdec : decode (0b0000000000000000000_0_0_1_00_01000011 : BitVec 32) = .ok (.cbcdec .tdes) := by rfl
theorem test_decode_hexenc : decode (0b0000000000000000000_0_0_0_00_01010000 : BitVec 32) = .ok .hexenc := by rfl
theorem test_decode_hexdec : decode (0b0000000000000000000_0_0_0_00_01010001 : BitVec 32) = .ok .hexdec := by rfl
theorem test_decode_b64enc : decode (0b0000000000000000000_0_0_0_00_01010010 : BitVec 32) = .ok .b64enc := by rfl
theorem test_decode_b64dec : decode (0b0000000000000000000_0_0_0_00_01010011 : BitVec 32) = .ok .b64dec := by rfl
theorem test_decode_encrypt : decode (0b0000000000000000000_1_1_0_00_01100000 : BitVec 32) = .ok (.encrypt .des .cbc .b64) := by rfl
theorem test_decode_decrypt : decode (0b0000000000000000000_1_0_1_00_01100001 : BitVec 32) = .ok (.decrypt .tdes .ecb .b64) := by rfl
theorem test_decode_genkey : decode (0b0000000000000000000_0_0_1_00_01100010 : BitVec 32) = .ok (.genkey .tdes) := by rfl

theorem test_decode_reserved_bit : decode 0x00002000 = .error .reservedBits := by rfl
theorem test_decode_unlisted : decode 0x00000063 = .error .unlistedOpcode := by rfl
theorem test_decode_unused_field : decode 0x00001043 = .error .unusedField := by rfl
theorem test_table_word : decodeTableWord 32 0x00000C60 = some (.encrypt .tdes .cbc .hex) := by decide
theorem test_table_word_illegal : decodeTableWord 32 0x00000C64 = none := by decide

/-- The step fetches the word: from reset, `KSCHED 1` raises SequenceError (`spec/95_test_vectors.md`). -/
theorem test_fetch_word_runs :
    seen (step (State.reset.withFetchWord 32 0x00000111)) = some ([], 0x00000007, 0x00000111) := by decide

/-! ### Reset -/

theorem test_reset_registers :
    (State.reset.statusWord, State.reset.ilen, State.reset.olen, State.reset.klen, State.reset.iv, State.reset.ecmd) =
      (0, 0, 0, 0, 0, 0) := by decide
theorem test_reset_buffers :
    ([0x40, 0x7F, 0x10000, 0x1003F, 0x20000, 0x2003F].map State.reset.readByte).all (fun b => b == some 0) = true := by decide

/-! ### One step of each command, against the spec's worked examples -/

/-- R281: `NOP` leaves an output that a data command would replace. -/
theorem test_nop_keeps_output : look (exec .nop (busy [])) (fun t => (t.output, t.statusWord)) = some ([0x78], 0x000007F0) := by
  decide

/-- R282. -/
theorem test_clrerr : look (exec .clrerr (stuck [])) (fun t => (t.statusWord, t.ecmd, t.olen, t.klen)) = some (0x000007F0, 0, 0, 16) := by
  decide

/-- R283. -/
theorem test_zeroize :
    look (exec .zeroize (stuck [])) (fun t => (t.statusWord, t.klen, t.ilen, t.olen, t.kbuf.read 0, t.ibuf.read 0)) =
      some (0, 0, 0, 0, 0, 0) := by decide

/-- R284: the output becomes the input; bytes beyond `OLEN` keep their values. -/
theorem test_xfer :
    look (exec .xfer (busy [])) (fun t => (t.ilen, t.ibuf.load 0 3, t.output)) = some (1, [0x78, 0xE8, 0x13], [0x78]) := by
  decide

/-- R285. -/
theorem test_ivclr : look (exec .ivclr (busy [])) (fun t => (t.iv, t.statusWord)) = some (0, 0x000007E0) := by decide

/-- R286. -/
theorem test_geniv :
    look (exec .geniv (busy [])) (fun t => (t.iv, t.ivv, t.olen, t.entropy)) = some (0xA1A2A3A4A5A6A7A8, true, 1, []) := by
  decide

/-- R161. -/
theorem test_loadkey_des :
    look (exec (.loadkey .des) (given (ascii "133457799BBCDFF1") [])) (fun t => (t.key.k1, t.statusWord, t.rk.k1[0])) =
      some (0x133457799BBCDFF1, 0x00000020, 0) := by decide
theorem test_loadkey_tdes :
    look (exec (.loadkey .tdes) (given (ascii "0123456789abcdef23456789ABCDEF01456789ABCDEF0123") []))
      (fun t => (t.key, t.statusWord)) =
      some ({ k1 := 0x0123456789ABCDEF, k2 := 0x23456789ABCDEF01, k3 := 0x456789ABCDEF0123 }, 0x000000E0) := by decide

/-- R164, V2. -/
theorem test_ksched :
    look (exec (.ksched 1) (State.reset.loadKeys .des { k1 := 0x133457799BBCDFF1, k2 := 0, k3 := 0 }))
      (fun t => (t.rk.k1[0], t.rk.k1[1], t.rk.k1[15], t.statusWord)) =
      some (0x1B02EFFC7072, 0x79AED9DBC9E5, 0xCB3D8B0E17F5, 0x00000120) := by decide +kernel

/-- R189, V1. -/
theorem test_desenc :
    seen (exec (.desenc 1) (desKey (given [] [0x01, 0x23, 0x45, 0x67, 0x89, 0xAB, 0xCD, 0xEF]))) =
      some ([0x85, 0xE8, 0x13, 0x54, 0x0F, 0x0A, 0xB4, 0x05], 0x00000130, 0) := by decide +kernel

/-- `spec/95_test_vectors.md`, command level: slot 2 has no schedule. -/
theorem test_desenc_no_schedule :
    look (exec (.desenc 2) (desKey (given [] [0x01]))) (fun t => (t.err, t.ecmd, t.olen)) =
      some (some .sequence, 0x00000220, 0) := by decide

/-- R190. -/
theorem test_desdec :
    seen (exec (.desdec 1) (desKey (given [] [0x85, 0xE8, 0x13, 0x54, 0x0F, 0x0A, 0xB4, 0x05]))) =
      some ([0x01, 0x23, 0x45, 0x67, 0x89, 0xAB, 0xCD, 0xEF], 0x00000130, 0) := by decide +kernel
theorem test_desdec_two_blocks :
    look (exec (.desdec 1) (desKey (given [] (List.replicate 16 0)))) (fun t => (t.err, t.ecmd)) =
      some (some .format, 0x00000121) := by decide

/-- R201. -/
theorem test_tdesenc :
    seen (exec .tdesenc (tdesKeys (given [] (ascii "The quic")))) =
      some ([0x1C, 0xCF, 0x23, 0x86, 0x9D, 0x09, 0x33, 0x3E], 0x000007F0, 0) := by decide +kernel

/-- R202. -/
theorem test_tdesdec :
    seen (exec .tdesdec (tdesKeys (given [] [0x1C, 0xCF, 0x23, 0x86, 0x9D, 0x09, 0x33, 0x3E]))) =
      some (ascii "The quic", 0x000007F0, 0) := by decide +kernel

/-- R211. -/
theorem test_pad : seen (exec .pad (given [] (ascii "x"))) = some ([0x78, 7, 7, 7, 7, 7, 7, 7], 0, 0) := by decide
theorem test_pad_full :
    seen (exec .pad (given [] (List.replicate 64 0x41))) = some ([], 0x00000005, 0x00000030) := by decide

/-- R213, V6. -/
theorem test_unpad : seen (exec .unpad (given [] [0x78, 7, 7, 7, 7, 7, 7, 7])) = some (ascii "x", 0, 0) := by decide
theorem test_unpad_unequal :
    seen (exec .unpad (given [] [0x41, 0x41, 0x41, 0x41, 0x41, 2, 3, 3])) = some ([], 0x00000003, 0x00000031) := by decide

/-- R223, V5. -/
theorem test_ecbenc :
    seen (exec (.ecbenc .des) (desKey (given [] (List.replicate 16 0x41)))) =
      some ([0x3A, 0x65, 0xEA, 0x91, 0xFA, 0x24, 0xA7, 0xF9, 0x3A, 0x65, 0xEA, 0x91, 0xFA, 0x24, 0xA7, 0xF9], 0x00000130, 0) := by
  decide +kernel
theorem test_ecbenc_tdes_one_schedule :
    look (exec (.ecbenc .tdes) (desKey (given [] (List.replicate 8 0x41)))) (fun t => (t.err, t.ecmd)) =
      some (some .sequence, 0x00000440) := by decide

/-- R224. -/
theorem test_ecbdec :
    seen (exec (.ecbdec .des) (desKey (given [] [0x3A, 0x65, 0xEA, 0x91, 0xFA, 0x24, 0xA7, 0xF9]))) =
      some (List.replicate 8 0x41, 0x00000130, 0) := by decide +kernel

/-- R226, V5. -/
theorem test_cbcenc :
    seen (exec (.cbcenc .des) (desKey (given [] (List.replicate 16 0x41)))) =
      some ([0x76, 0xAF, 0x10, 0x06, 0xAC, 0xF4, 0xC7, 0x29, 0x4A, 0x42, 0x63, 0x36, 0x12, 0xF8, 0x74, 0xDF], 0x00000130, 0) := by
  decide +kernel
theorem test_cbcenc_no_iv :
    seen (exec (.cbcenc .des) (desKey (given [] (List.replicate 16 0x41))).clearIv) = some ([], 0x00000122, 0x00000042) := by
  decide

/-- R228. -/
theorem test_cbcdec :
    seen (exec (.cbcdec .des) (desKey (given []
      [0x76, 0xAF, 0x10, 0x06, 0xAC, 0xF4, 0xC7, 0x29, 0x4A, 0x42, 0x63, 0x36, 0x12, 0xF8, 0x74, 0xDF]))) =
      some (List.replicate 16 0x41, 0x00000130, 0) := by decide +kernel

/-- R242. -/
theorem test_hexenc : seen (exec .hexenc (given [] [0x00, 0xFF, 0x10])) = some (ascii "00ff10", 0, 0) := by decide
theorem test_hexenc_too_long :
    seen (exec .hexenc (given [] (List.replicate 33 0))) = some ([], 0x00000005, 0x00000050) := by decide

/-- R244. -/
theorem test_hexdec :
    seen (exec .hexdec (given [] (ascii "85E813540f0ab405"))) =
      some ([0x85, 0xE8, 0x13, 0x54, 0x0F, 0x0A, 0xB4, 0x05], 0, 0) := by decide
theorem test_hexdec_bad_digit : seen (exec .hexdec (given [] (ascii "0g"))) = some ([], 0x00000004, 0x00000051) := by decide

/-- R247. -/
theorem test_b64enc : seen (exec .b64enc (given [] (ascii "foob"))) = some (ascii "Zm9vYg==", 0, 0) := by decide
theorem test_b64enc_plus_slash : seen (exec .b64enc (given [] [0xFB, 0xFF])) = some (ascii "+/8=", 0, 0) := by decide

/-- R249. -/
theorem test_b64dec :
    seen (exec .b64dec (given [] (ascii "fW6lfojWZUE="))) =
      some ([0x7D, 0x6E, 0xA5, 0x7E, 0x88, 0xD6, 0x65, 0x41], 0, 0) := by decide
theorem test_b64dec_three_pads : seen (exec .b64dec (given [] (ascii "Z==="))) = some ([], 0x00000004, 0x00000053) := by decide

/-- R262. -/
theorem test_encrypt_ecb :
    seen (exec (.encrypt .des .ecb .b64) (given (ascii "133457799BBCDFF1") (ascii "x"))) =
      some (ascii "fW6lfojWZUE=", 0x00000120, 0) := by decide +kernel

/-- Program P2, step 3. -/
theorem test_encrypt_cbc :
    seen (exec (.encrypt .des .cbc .hex) { given (ascii "133457799BBCDFF1") (ascii "hello world") with
      entropy := [0xA1, 0xA2, 0xA3, 0xA4, 0xA5, 0xA6, 0xA7, 0xA8] }) =
      some (ascii "42b70294ce74939294b2964c7751fc8f", 0x00000130, 0) := by decide +kernel

/-- Program P2, step 6. -/
theorem test_decrypt_cbc :
    seen (exec (.decrypt .des .cbc .hex) { given (ascii "133457799BBCDFF1") (ascii "42b70294ce74939294b2964c7751fc8f") with
      iv := 0xA1A2A3A4A5A6A7A8, ivv := true }) = some (ascii "hello world", 0x00000130, 0) := by decide +kernel

/-- R265: a wrong key. -/
theorem test_decrypt_wrong_key :
    seen (exec (.decrypt .des .ecb .hex) (given (ascii "0123456789ABCDEF") (ascii "7d6ea57e88d66541"))) =
      some ([], 0x00000003, 0x00000061) := by decide +kernel

/-- R268. -/
theorem test_genkey :
    seen (exec (.genkey .des) { State.reset with entropy := [0x10, 0x11, 0x12, 0x13, 0x14, 0x15, 0x16, 0x17] }) =
      some (ascii "1011121314151617", 0, 0) := by decide

/-! ### The bus -/

/-- A read of `STATUS` (R74), of a byte beyond `OLEN` (R77), of an unmapped offset (R79). -/
theorem test_bus_reads :
    ([HostAction.read 0x1004 .b32, .read 0x21000 .b8, .read 0x21001 .b8, .read 0x1020 .b32, .read 0x1005 .b8].map fun a =>
      look (step (busy [a])) fun t => t.reply) =
      [some (.word 0x000007F0), some (.byte 0x78), some (.byte 0), some .error, some .error] := by decide

/-- Writes of `ILEN` at and above the capacity (R40), and of `IVL` (R43). -/
theorem test_bus_writes :
    ([HostAction.write 0x1008 .b32 64, .write 0x1008 .b32 65, .write 0x1018 .b32 0xDEADBEEF, .write 0x100C .b32 9].map fun a =>
      look (step (busy [a])) fun t => (t.reply, t.ilen, t.iv)) =
      [some (.ack, 64, 0x0102030405060708), some (.error, 8, 0x0102030405060708), some (.ack, 8, 0x01020304DEADBEEF),
       some (.ack, 8, 0x0102030405060708)] := by decide

/-- P4, steps 4 and 5: discarded words while an error is latched. -/
theorem test_gate :
    ([0x00000060, 0x00000101, 0x80000000].map fun v => seen (step (stuck [.write 0x1000 .b32 v]))) =
      List.replicate 3 (some ([], 0x000007F1, 0x00000060)) := by decide


/-! ### Witnesses: a state and operands that meet the hypotheses of each statement

Named after the statement. The boundary values of each clause's range are among them. -/

/-- `busy` and `stuck` meet the invariant. -/
theorem witness_busy_inv (actions : List HostAction) : Inv (busy actions) where
  cfg_valid := (by decide : (busy []).cfg.Valid)
  kbuf_wf := (by decide : (busy []).kbuf.wf)
  ibuf_wf := (by decide : (busy []).ibuf.wf)
  obuf_wf := (by decide : (busy []).obuf.wf)
  kbuf_below := (by decide : (busy []).kbuf.below 64)
  ibuf_below := (by decide : (busy []).ibuf.below 64)
  obuf_below := (by decide : (busy []).obuf.below 1)
  ilen_le := (by decide : (busy []).ilen ≤ 64)
  olen_le := (by decide : (busy []).olen ≤ 64)
  klen_le := (by decide : (busy []).klen ≤ 64)
  schedule_of_key := by intro k _; cases k <;> exact ⟨rfl, rfl⟩
  key_zero := by intro k h; cases k <;> cases h
  schedule_zero := by intro k h; cases k <;> cases h
  iv_zero := by intro h; cases h
  err_iff_ecmd := ⟨fun _ => rfl, fun _ => rfl⟩
  err_olen := fun h => absurd rfl h

/-- `stuck` meets it as well, so the latched case of each statement is met. -/
theorem witness_stuck_inv (actions : List HostAction) : Inv (stuck actions) where
  cfg_valid := (by decide : (stuck []).cfg.Valid)
  kbuf_wf := (by decide : (stuck []).kbuf.wf)
  ibuf_wf := (by decide : (stuck []).ibuf.wf)
  obuf_wf := (by decide : (stuck []).obuf.wf)
  kbuf_below := (by decide : (stuck []).kbuf.below 64)
  ibuf_below := (by decide : (stuck []).ibuf.below 64)
  obuf_below := (by decide : (stuck []).obuf.below 0)
  ilen_le := (by decide : (stuck []).ilen ≤ 64)
  olen_le := (by decide : (stuck []).olen ≤ 64)
  klen_le := (by decide : (stuck []).klen ≤ 64)
  schedule_of_key := by intro k _; cases k <;> exact ⟨rfl, rfl⟩
  key_zero := by intro k h; cases k <;> cases h
  schedule_zero := by intro k h; cases k <;> cases h
  iv_zero := by intro h; cases h
  err_iff_ecmd := ⟨(by intro h; cases h), (by intro h; cases h)⟩
  err_olen := fun _ => rfl

theorem witness_DecodeOfEncodeIsTheCommand : (Instr.desdec 3).wellFormed = true := by decide

theorem witness_DecodedWordsAreTheirEncodings : decode 0x00001C61 = .ok (.decrypt .tdes .cbc .b64) := by rfl

theorem witness_StepRunsTheDecodedCommand :
    (busy [.write 0x1000 .b32 3, .reset]).pending = .write (busy []).cfg.base .b32 3 :: [.reset] ∧
    decode ((3 : BitVec 64).setWidth 32) = .ok .xfer ∧ (busy [.write 0x1000 .b32 3, .reset]).err = none := ⟨rfl, rfl, rfl⟩

theorem witness_StepRunsTheDecodedCommand_latched :
    (stuck [.write 0x1000 .b32 1]).pending = .write (stuck []).cfg.base .b32 1 :: [] ∧
    decode ((1 : BitVec 64).setWidth 32) = .ok .clrerr ∧ (stuck [.write 0x1000 .b32 1]).err ≠ none := ⟨rfl, rfl, by decide⟩

theorem witness_IllegalWordsRaiseIllegalCommand :
    (busy [.write 0x1000 .b32 0x11]).pending = .write (busy []).cfg.base .b32 0x11 :: [] ∧
    ¬ matchesRow ((0x11 : BitVec 64).setWidth 32) ∧ (busy [.write 0x1000 .b32 0x11]).err = none ∧
    (stuck [.write 0x1000 .b32 0x11]).err ≠ none ∧ Instr.wellFormed (.ksched 0) = false := by
  refine ⟨rfl, by decide, rfl, by decide, by decide⟩

theorem witness_LatchedErrorDiscardsCommands :
    (stuck [.write 0x1000 .b32 0x60]).pending = .write (stuck []).cfg.base .b32 0x60 :: [] ∧
    (stuck [.write 0x1000 .b32 0x60]).err ≠ none ∧ (0x60 : BitVec 64).extractLsb' 0 8 ≠ 0x01 ∧
    (0x60 : BitVec 64).extractLsb' 0 8 ≠ 0x02 := by
  refine ⟨rfl, by decide, by decide, by decide⟩

/-- The accesses that are not gated: a write elsewhere, a write at `CMD` of another width, a read of the word beside
`STATUS`, and a read at `STATUS` of another width. -/
theorem witness_LatchedErrorDiscardsCommands_ungated :
    ¬ (0x1008 = (stuck []).cfg.base ∧ BusWidth.b32 = .b32) ∧ ¬ ((stuck []).cfg.base = (stuck []).cfg.base ∧ BusWidth.b8 = .b32) ∧
    ¬ (BusWidth.b32 = .b32 ∧ (0x1008 = (stuck []).cfg.base + 0x04 ∨ 0x1008 = (stuck []).cfg.base + 0x1C)) ∧
    ¬ (BusWidth.b8 = .b32 ∧ (0x1004 = (stuck []).cfg.base + 0x04 ∨ 0x1004 = (stuck []).cfg.base + 0x1C)) := by decide

theorem witness_LatchLastsUntilCleared :
    (stuck [.write 0x1008 .b32 5]).err ≠ none ∧ ∃ t, step (stuck [.write 0x1008 .b32 5]) = .next t := ⟨by decide, _, rfl⟩

theorem witness_CommandsCompleteOrLatch : (busy []).err = none := rfl

theorem witness_RegisterReadsAnswerTheRegisters :
    Inv (busy [.read 0x101C .b32]) ∧
    (0x1C, (busy [.read 0x101C .b32]).ecmd) ∈ [((0x00 : Nat), (0 : Word)), (0x1C, (busy [.read 0x101C .b32]).ecmd)] ∧
    (busy [.read 0x101C .b32]).pending = .read ((busy []).cfg.base + 0x1C) .b32 :: [] ∧
    (busy [.read 0x1000 .b32]).pending = .read ((busy []).cfg.base + 0x00) .b32 :: [] :=
  ⟨witness_busy_inv _, by decide, rfl, rfl⟩

theorem witness_StatusShowsTheFlags :
    (busy [.read 0x1004 .b32]).pending = .read ((busy []).cfg.base + 0x04) .b32 :: [] ∧
    (busy [.write 0x1004 .b32 7]).pending = .write ((busy []).cfg.base + 0x04) .b32 7 :: [] := ⟨rfl, rfl⟩

theorem witness_RegisterWritesSetTheRegisters :
    ([(0x00, 3), (0x04, 7), (0x08, 64), (0x0C, 7), (0x10, 64), (0x14, 7), (0x18, 7), (0x1C, 7)] : List (Nat × BitVec 64)).all
      (fun p => (busy [.write (0x1000 + p.1) .b32 p.2]).pending == [.write ((busy []).cfg.base + p.1) .b32 p.2]) = true ∧
    ((64 : BitVec 64).setWidth 32).toNat ≤ (busy []).cfg.nbuf ∧ ((64 : BitVec 64).setWidth 32).toNat ≤ 64 := by decide

theorem witness_BufferReadsAnswerTheByte :
    (busy []).cfg.Valid ∧ 63 < 64 ∧ (busy [.read 0x107F .b8]).pending = .read ((busy []).cfg.base + (0x40 + 63)) .b8 :: [] ∧
    63 < (busy []).cfg.nbuf ∧ (busy [.read 0x1103F .b8]).pending = .read ((busy []).cfg.base + (0x10000 + 63)) .b8 :: [] ∧
    (busy [.read 0x21001 .b8]).pending = .read ((busy []).cfg.base + (0x20000 + (busy []).olen)) .b8 :: [] := by
  refine ⟨by decide, by decide, rfl, by decide, rfl, rfl⟩

theorem witness_BufferWritesChangeOneByte :
    Inv (busy [.write 0x107F .b8 0]) ∧
    (busy [.write 0x107F .b8 0]).pending = .write ((busy []).cfg.base + (0x40 + 63)) .b8 0 :: [] ∧
    (busy [.write 0x1103F .b8 9]).pending = .write ((busy []).cfg.base + (0x10000 + 63)) .b8 9 :: [] ∧
    (busy [.write 0x21000 .b8 9]).pending = .write ((busy []).cfg.base + (0x20000 + 0)) .b8 9 :: [] ∧
    63 < (busy []).cfg.nbuf := ⟨witness_busy_inv _, rfl, rfl, rfl, by decide⟩

/-- Each kind of refused access, and accesses beside them that are not refused. -/
theorem witness_RefusedAccessesChangeNothing :
    refusedAction (busy []).cfg (.read 0xFFF .b32) ∧ refusedAction (busy []).cfg (.read 0x1020 .b32) ∧
    refusedAction (busy []).cfg (.read 0x1002 .b32) ∧ refusedAction (busy []).cfg (.read 0x1004 .b8) ∧
    refusedAction (busy []).cfg (.read 0x1040 .b32) ∧ refusedAction (busy []).cfg (.read 0x1080 .b8) ∧
    refusedAction (busy []).cfg (.read 0x11040 .b8) ∧ refusedAction (busy []).cfg (.read 0x21040 .b8) ∧
    refusedAction (busy []).cfg (.read 0x1000 .b16) ∧ refusedAction (busy []).cfg (.read 0x1000 .b64) ∧
    refusedAction (busy []).cfg (.write 0x1008 .b32 65) ∧ refusedAction (busy []).cfg (.write 0x1010 .b32 65) ∧
    refusedAction (busy []).cfg (.write 0x1080 .b8 1) := by
  refine ⟨?_, ?_, ?_, ?_, ?_, ?_, ?_, ?_, ?_, ?_, ?_, ?_, ?_⟩ <;> decide

theorem witness_RefusedAccessesChangeNothing_accepted :
    ¬ refusedAction (busy []).cfg (.read 0x101C .b32) ∧ ¬ refusedAction (busy []).cfg (.read 0x107F .b8) ∧
    ¬ refusedAction (busy []).cfg (.read 0x1103F .b8) ∧ ¬ refusedAction (busy []).cfg (.read 0x2103F .b8) ∧
    ¬ refusedAction (busy []).cfg (.write 0x1008 .b32 64) ∧ ¬ refusedAction (busy []).cfg (.write 0x1010 .b32 64) ∧
    ¬ refusedAction (busy []).cfg (.write 0x1000 .b32 0x60) := by
  refine ⟨?_, ?_, ?_, ?_, ?_, ?_, ?_⟩ <;> decide

theorem witness_ResetClearsEverything :
    (stuck [.reset, .reset]).cfg.Valid ∧ (stuck [.reset, .reset]).pending = .reset :: [.reset] := ⟨by decide, rfl⟩

theorem witness_KeysNeverReachTheBus :
    (∀ v, HostAction.write 0x1008 .b32 5 ≠ .write (busy []).cfg.base .b32 v) ∧ HostAction.write 0x1008 .b32 5 ≠ .reset := by
  constructor
  · intro v h; injection h with h; revert h; decide
  · decide

theorem witness_PseudoInstructionsLoadOperands :
    Inv (busy []) ∧ (List.replicate 64 (0x30 : Byte)).length ≤ 64 ∧
    (List.replicate 64 (0x41 : Byte)).length ≤ (busy []).cfg.nbuf := ⟨witness_busy_inv _, by decide, by decide⟩

theorem witness_NopAndClrerrTouchOnlyTheLatch : (busy []).err = none ∧ (stuck []).err ≠ none := by decide

theorem witness_ZeroizeGivesTheResetState : (stuck []).cfg.Valid ∧ bufferOffset (stuck []).cfg 0x2003F := by decide

theorem witness_XferCopiesTheOutput : Inv (busy []) ∧ (busy []).olen = 1 := ⟨witness_busy_inv _, rfl⟩

theorem witness_IvclrAndGenivWriteTheIv :
    ([0xA1, 0xA2, 0xA3, 0xA4, 0xA5, 0xA6, 0xA7, 0xA8] : List Byte).length = 8 ∧
    (busy []).entropy = [0xA1, 0xA2, 0xA3, 0xA4, 0xA5, 0xA6, 0xA7, 0xA8] ++ [] := ⟨rfl, rfl⟩

theorem witness_LoadkeyLoadsTheKeys :
    ((given (ascii "133457799BBCDFF1") []).klen = 16 ∧
      hexDec (given (ascii "133457799BBCDFF1") []).keyText = some [0x13, 0x34, 0x57, 0x79, 0x9B, 0xBC, 0xDF, 0xF1]) ∧
    ((given (List.replicate 48 0x30) []).klen = 48 ∧
      hexDec (given (List.replicate 48 0x30) []).keyText =
        some (List.replicate 8 0 ++ List.replicate 8 0 ++ List.replicate 8 0)) ∧
    ((given (ascii "133457799BBCDFF") []).err = none ∧ (given (ascii "133457799BBCDFF") []).klen ≠ 16 ∧
      (given (ascii "133457799BBCDFF") []).klen ≠ 48) ∧
    ((given (ascii "133457799BBCDFFg") []).klen = 16 ∧ hexDec (given (ascii "133457799BBCDFFg") []).keyText = none) ∧
    ((given (List.replicate 48 0x47) []).klen = 48 ∧ hexDec (given (List.replicate 48 0x47) []).keyText = none) := by
  decide

theorem witness_KschedDerivesTheSchedule :
    (3, Slot.k3) ∈ slotFields ∧ (busy []).kv.get .k3 = true ∧ (1, Slot.k1) ∈ slotFields ∧
    State.reset.err = none ∧ State.reset.kv.get .k1 = false ∧ Slot.k1 ≠ .k3 := by decide

theorem witness_KeyScheduleProperties : (0x0101010101010101 : Block) &&& 0xFEFEFEFEFEFEFEFE = 0 := by decide

theorem witness_KeyScheduleFsmComputesTheSchedule :
    (KsEngine.mk .idle 0 0 0 (Vector.replicate 16 0) false).phase = .idle ∧ (1 ≤ 16 ∧ 16 ≤ 16) ∧ (14 : Nat) + 1 < 16 := by
  decide

theorem witness_BitPrimitivesMoveBits :
    (∀ x ∈ pc2Table, 1 ≤ x ∧ x ≤ 56) ∧ 1 ≤ 48 ∧ 48 ≤ pc2Table.length ∧ (2 = 1 ∨ 2 = 2) := by decide

theorem witness_RoundEngineRunsTheNetwork : (RoundEngine.mk .idle 0 0 0 .decrypt 0).phase = .idle ∧ (16 : Nat) ≤ 16 := by decide

theorem witness_DesCommandsRunOneBlock :
    (3, Slot.k3) ∈ slotFields ∧ (busy []).rkv.get .k3 = true ∧ (busy []).ilen = 8 ∧
    (State.reset.err = none ∧ State.reset.rkv.get .k3 = false) ∧
    ((desKey (given [] (List.replicate 7 0))).err = none ∧ (desKey (given [] (List.replicate 7 0))).rkv.get .k1 = true ∧
      (desKey (given [] (List.replicate 7 0))).ilen ≠ 8) := by decide

theorem witness_TdesCommandsRunOneBlock :
    ((busy []).rkv.k1 = true ∧ (busy []).rkv.k2 = true ∧ (busy []).rkv.k3 = true ∧ (busy []).ilen = 8) ∧
    ((desKey State.reset).err = none ∧ (desKey State.reset).rkv.k2 = false) ∧
    ((tdesKeys (given [] (List.replicate 9 0))).err = none ∧ (tdesKeys (given [] (List.replicate 9 0))).rkv.k3 = true ∧
      (tdesKeys (given [] (List.replicate 9 0))).ilen ≠ 8) := by decide

theorem witness_TripleDesProperties :
    (Slots.same (keySchedule 1)).k1 = (Slots.same (keySchedule 1)).k2 ∧
    (Slots.same (keySchedule 1)).k2 = (Slots.same (keySchedule 1)).k3 := ⟨rfl, rfl⟩

/-- 63 bytes is the longest input whose padded form fits; 64 bytes is the shortest that does not. -/
theorem witness_PadAppendsThePad :
    ((given [] (List.replicate 63 0)).ilen + (8 - (given [] (List.replicate 63 0)).ilen % 8) ≤ State.reset.cfg.nbuf) ∧
    ((given [] (List.replicate 64 0)).err = none ∧
      State.reset.cfg.nbuf < (given [] (List.replicate 64 0)).ilen + (8 - (given [] (List.replicate 64 0)).ilen % 8)) := by decide

theorem witness_UnpadRemovesThePad :
    (given [] (List.replicate 8 8)).input = [] ++ List.replicate 8 (BitVec.ofNat 8 8) ∧
    (given [] [0x41, 1]).input = [0x41] ++ List.replicate 1 (BitVec.ofNat 8 1) ∧ (given [] [0x41, 0]).err = none ∧
    ¬ ∃ (m : List Byte) (n : Nat), 1 ≤ n ∧ n ≤ 8 ∧
      (given [] [0x41, 0]).input = m ++ List.replicate n (BitVec.ofNat 8 n) := by
  refine ⟨by decide, by decide, rfl, ?_⟩
  rintro ⟨m, n, h1, h8, h⟩
  have hi : (given [] [0x41, 0]).input = [0x41, 0] := by decide
  rw [hi] at h
  have := congrArg List.getLast? h
  rw [List.getLast?_append, List.getLast?_replicate, if_neg (by omega)] at this
  have h0 : (0 : Byte) = BitVec.ofNat 8 n := Option.some.inj this
  have := congrArg BitVec.toNat h0
  rw [BitVec.toNat_ofNat] at this
  simp at this
  omega

theorem witness_UnpadUndoesPad :
    Inv (busy []) ∧ (busy []).ilen + (8 - (busy []).ilen % 8) ≤ (busy []).cfg.nbuf := ⟨witness_busy_inv _, by decide⟩

theorem witness_EcbRunsEachBlockAlone :
    (Scheduled (busy []) .tdes ∧ 0 < (busy []).ilen ∧ (busy []).ilen % 8 = 0 ∧ 8 * 0 < (busy []).ilen) ∧
    (State.reset.err = none ∧ ¬ Scheduled State.reset .des) ∧
    (Scheduled (desKey State.reset) .des ∧ ¬ (0 < (desKey State.reset).ilen ∧ (desKey State.reset).ilen % 8 = 0)) := by
  refine ⟨⟨fun k _ => by cases k <;> rfl, by decide, by decide, by decide⟩, ⟨rfl, fun h => ?_⟩, fun k h => ?_, by decide⟩
  · exact absurd (h .k1 (.inr rfl)) (by decide)
  · rcases h with h | rfl
    · cases h
    · rfl

theorem witness_CbcChainsTheBlocks :
    (Scheduled (busy []) .des ∧ 0 < (busy []).ilen ∧ (busy []).ilen % 8 = 0 ∧ (busy []).ivv = true) ∧
    (State.reset.err = none ∧ ¬ Scheduled State.reset .tdes) ∧
    (Scheduled (busy []).clearIv .tdes ∧ (busy []).clearIv.ivv = false) := by
  refine ⟨⟨fun k _ => by cases k <;> rfl, by decide, by decide, rfl⟩, ⟨rfl, fun h => ?_⟩, fun k _ => by cases k <;> rfl, rfl⟩
  exact absurd (h .k1 (.inl rfl)) (by decide)

theorem witness_ChainingProperties :
    (List.replicate 16 (0x41 : Byte)).length % 8 = 0 ∧ (busy []).ilen = 8 ∧ (busy []).rkv.k1 = true ∧
    Scheduled (busy []) .tdes ∧ ({ busy [] with iv := 0 } : State).iv = 0 ∧ ({ busy [] with iv := 0 } : State).ivv = true :=
  ⟨by decide, rfl, rfl, fun k _ => by cases k <;> rfl, rfl, rfl⟩

theorem witness_HexencWritesDigits :
    (2 * (given [] (List.replicate 32 0)).ilen ≤ State.reset.cfg.nbuf ∧ 31 < (given [] (List.replicate 32 0)).ilen) ∧
    ((given [] (List.replicate 33 0)).err = none ∧ State.reset.cfg.nbuf < 2 * (given [] (List.replicate 33 0)).ilen) := by decide

theorem witness_HexdecReadsDigits :
    ((given [] (ascii "aF09")).ilen % 2 = 0 ∧ (List.range 4).all (fun j => hexVal ((given [] (ascii "aF09")).ibuf.read j) != none) = true) ∧
    ((given [] (ascii "abc")).err = none ∧ (given [] (ascii "abc")).ilen % 2 = 1) ∧
    (1 < (given [] (ascii "0g")).ilen ∧ hexVal ((given [] (ascii "0g")).ibuf.read 1) = none) := by decide

theorem witness_B64encWritesGroups :
    (4 * (((given [] (List.replicate 48 0)).ilen + 2) / 3) ≤ State.reset.cfg.nbuf ∧ 3 * 15 < (given [] (List.replicate 48 0)).ilen) ∧
    ((given [] (List.replicate 49 0)).err = none ∧
      State.reset.cfg.nbuf < 4 * (((given [] (List.replicate 49 0)).ilen + 2) / 3)) := by decide

theorem witness_B64decReadsGroups :
    ((given [] (ascii "Zh==")).ilen % 4 = 0 ∧ padCount (given [] (ascii "Zh==")).input = 2 ∧
      (List.range 2).all (fun j => b64Val ((given [] (ascii "Zh==")).ibuf.read j) != none) = true) ∧
    ((given [] (ascii "Zg")).err = none ∧ (given [] (ascii "Zg")).ilen % 4 ≠ 0) ∧
    (1 < (given [] (ascii "Z===")).ilen - padCount (given [] (ascii "Z===")).input ∧
      b64Val ((given [] (ascii "Z===")).ibuf.read 1) = none) := by decide

theorem witness_CodecRoundTrip :
    Inv (busy []) ∧ 2 * (busy []).ilen ≤ (busy []).cfg.nbuf ∧ 4 * (((busy []).ilen + 2) / 3) ≤ (busy []).cfg.nbuf :=
  ⟨witness_busy_inv _, by decide, by decide⟩

/-- 31 bytes of plaintext fill `OBUF` exactly in hexadecimal; 32 do not fit. -/
theorem witness_EncryptEncrypts :
    ((given (ascii "133457799BBCDFF1") (List.replicate 31 0)).klen = keyTextLength .des ∧
      hexDec (given (ascii "133457799BBCDFF1") (List.replicate 31 0)).keyText =
        some [0x13, 0x34, 0x57, 0x79, 0x9B, 0xBC, 0xDF, 0xF1] ∧
      textLength .hex (8 * ((given (ascii "133457799BBCDFF1") (List.replicate 31 0)).ilen / 8 + 1)) ≤ State.reset.cfg.nbuf) ∧
    (State.reset.err = none ∧ State.reset.klen ≠ keyTextLength .tdes) ∧
    ((given (List.replicate 48 0x47) []).klen = keyTextLength .tdes ∧ hexDec (given (List.replicate 48 0x47) []).keyText = none) ∧
    State.reset.cfg.nbuf < textLength .hex (8 * ((given (ascii "133457799BBCDFF1") (List.replicate 32 0)).ilen / 8 + 1)) := by
  decide

theorem witness_EncryptEqualsTheUnitPipeline :
    Inv (busy []) ∧ (busy []).err = none ∧
    ∃ t, runCommands (unitPipeline .des .cbc .b64) (busy []) = .next t ∧ (t.err == none) = true :=
  ⟨witness_busy_inv _, rfl, exists_next (by decide)⟩

theorem witness_DecryptDecrypts :
    ((given (ascii "133457799BBCDFF1") (ascii "fW6lfojWZUE=")).klen = keyTextLength .des ∧
      hexDec (given (ascii "133457799BBCDFF1") (ascii "fW6lfojWZUE=")).keyText =
        some [0x13, 0x34, 0x57, 0x79, 0x9B, 0xBC, 0xDF, 0xF1] ∧
      decodeText .b64 (given (ascii "133457799BBCDFF1") (ascii "fW6lfojWZUE=")).input =
        some [0x7D, 0x6E, 0xA5, 0x7E, 0x88, 0xD6, 0x65, 0x41] ∧
      unpad (chainDec .des .ecb [0x7D, 0x6E, 0xA5, 0x7E, 0x88, 0xD6, 0x65, 0x41]
        ((splitKeys .des [0x13, 0x34, 0x57, 0x79, 0x9B, 0xBC, 0xDF, 0xF1]).map keySchedule) 0) = some [0x78] ∧
      ((.ecb : ChainMode) = .cbc → State.reset.ivv = true)) ∧
    (decodeText .b64 (given (ascii "133457799BBCDFF1") (ascii "Zg")).input = none ∧
      decodeText .hex (given (ascii "133457799BBCDFF1") []).input = some [] ∧ ¬ (0 < ([] : List Byte).length)) ∧
    (State.reset.ivv = false ∧
      unpad (chainDec .des .ecb [0x85, 0xE8, 0x13, 0x54, 0x0F, 0x0A, 0xB4, 0x05]
        ((splitKeys .des [0x13, 0x34, 0x57, 0x79, 0x9B, 0xBC, 0xDF, 0xF1]).map keySchedule) 0) = none) := by decide +kernel

theorem witness_ServiceRoundTrip :
    Inv (busy []) ∧ ∃ t, exec (.encrypt .des .cbc .b64) (busy []) = .next t ∧ (t.err == none) = true :=
  ⟨witness_busy_inv _, exists_next (by decide)⟩

theorem witness_GenkeyDrawsAKeyText :
    (Alg.des, 8) ∈ [(Alg.des, 8), (Alg.tdes, 24)] ∧ (Alg.tdes, 24) ∈ [(Alg.des, 8), (Alg.tdes, 24)] ∧
    (busy []).entropy = [0xA1, 0xA2, 0xA3, 0xA4, 0xA5, 0xA6, 0xA7, 0xA8] ++ [] := by decide

/-- A fixed sequence of 24 bytes and more. -/
theorem witness_GenkeyDrawsAKeyText_tdes :
    (List.replicate 24 (0xA5 : Byte)).length = 24 ∧
    ({ busy [] with entropy := List.replicate 25 0xA5 } : State).entropy = List.replicate 24 0xA5 ++ [0xA5] := by decide

/-- Two states with the same operands and different keys, schedules and output. -/
theorem witness_ServiceIgnoresLoadedKeys :
    let s := busy []
    let s' := { busy [] with
      key := State.reset.key, kv := State.reset.kv, rk := State.reset.rk, rkv := State.reset.rkv, obuf := [], olen := 0 }
    s'.klen = s.klen ∧ s'.keyText = s.keyText ∧ s'.ilen = s.ilen ∧ s'.input = s.input ∧ s'.iv = s.iv ∧ s'.ivv = s.ivv ∧
    s'.entropy = s.entropy ∧ s'.drawn = s.drawn ∧ s'.cfg = s.cfg ∧ s.err = none ∧ s'.err = none ∧
    ∃ t, exec (.decrypt .des .cbc .hex) s = .next t ∧ (t.err == some .encoding) = true :=
  ⟨rfl, rfl, rfl, rfl, rfl, rfl, rfl, rfl, rfl, rfl, rfl, exists_next (by decide)⟩

theorem witness_CommandsKeepOtherRegisters : ∃ t, exec (.ksched 2) (busy []) = .next t ∧ (t.rkv.k2 == true) = true :=
  exists_next (by decide)

theorem witness_CommandsKeepOtherMemory :
    Inv (busy []) ∧ (∃ t, exec .xfer (busy []) = .next t ∧ (t.ilen == 1) = true) ∧
    ∃ t, exec .hexenc (busy []) = .next t ∧ (t.olen == 16) = true :=
  ⟨witness_busy_inv _, exists_next (by decide), exists_next (by decide)⟩

theorem witness_StepKeepsTheInvariant :
    Inv (busy [.write 0x1000 .b32 0x60]) ∧ ∃ t, step (busy [.write 0x1000 .b32 0x60]) = .next t ∧ (t.err == none) = true :=
  ⟨witness_busy_inv _, exists_next (by decide)⟩

theorem witness_ResetSatisfiesTheInvariant : ({ nbuf := 65536, base := 0x1000 } : Config).Valid := by decide

theorem witness_PseudoInstructionsReadResults : Inv (busy []) ∧ (busy []).olen = 1 := ⟨witness_busy_inv _, rfl⟩

/-- `spec/30_encoding.md` R114: `LDI` takes a quoted string or `hex:` digits, and no character outside ASCII. -/
theorem test_ldi_forms :
    pseudoLdiHex (busy []).cfg "0aF1" = some (pseudoLdi (busy []).cfg [0x0A, 0xF1]) ∧
    pseudoLdiText (busy []).cfg "Ab" = some (pseudoLdi (busy []).cfg [0x41, 0x62]) ∧
    pseudoLdiHex (busy []).cfg "0a1" = none ∧ pseudoLdiText (busy []).cfg "\u00e9" = none := by decide

/-- R114: the results of `RDO`, `RDIV`, `RDS` and `RDE`; `busy` holds the IV 0102030405060708 and an output of one byte. -/
theorem test_results :
    (runRdo (busy [])).map Prod.fst = some [0x78] ∧ (runRdiv (busy [])).map Prod.fst = some 0x0102030405060708 ∧
    (runRds (busy [])).map Prod.fst = some 0x000007F0 ∧ (runRde (stuck [])).map Prod.fst = some (stuck []).ecmd := by decide

/-- A reachable state in which an error is latched. -/
theorem witness_ReachableStatesSatisfyR49 : ∃ s, Reachable s ∧ (s.err == some .sequence) = true := by
  obtain ⟨t, ht, he⟩ := exists_next (o := step (State.initial { nbuf := 64, base := 0 } [] [.write 0 .b32 0x111]))
    (p := fun t => t.err == some .sequence) (by decide)
  exact ⟨t, .step _ t (.initial _ _ _ (by decide)) ht, he⟩

end Sys2Proof.Tests
end

section
/-! PROOFS. No step stops, the parameters never change and each step does one action of the host (`spec/00_scope.md` R6,
R8): each operation in turn answers a next state and leaves `cfg` and `pending` alone. -/

namespace Sys2Proof.Machine

/-- An operation left alone what is the host's: the parameters and the actions still to come. -/
def SameHost (s t : State) : Prop := t.cfg = s.cfg ∧ t.pending = s.pending

theorem SameHost.refl (s : State) : SameHost s s := ⟨rfl, rfl⟩

theorem SameHost.answer {s t : State} (h : SameHost s t) (r : BusReply) : SameHost s { t with reply := r } := h

theorem State.latch_sameHost (s : State) (e : ErrorKind) (w : Word) : SameHost s (s.latch e w) := by
  rcases s.latch_cases e w with ⟨-, h⟩ | ⟨-, h⟩ <;> rw [h]
  · exact ⟨State.failed_cfg .., State.failed_pending ..⟩
  · exact .refl s

theorem State.prepareEncrypt_sameHost (s : State) (alg : Alg) (mode : ChainMode) (ks : Slots Block) :
    SameHost s (s.prepareEncrypt alg mode ks) := by
  cases mode <;> exact ⟨rfl, rfl⟩

/-- No command that completes writes what is the host's. -/
theorem Completed.sameHost {s t : State} {i : Instr} (h : Completed s i t) : SameHost s t := by
  cases h with
  | encrypt alg mode enc ks => exact s.prepareEncrypt_sameHost alg mode ks
  | _ => exact ⟨rfl, rfl⟩

/-- Every command on every state completes or latches an error (`spec/00_scope.md` R6). -/
theorem exec_next (i : Instr) (s : State) : ∃ t, exec i s = .next t ∧ SameHost s t := by
  rcases exec_cases i s with ⟨e, -, h⟩ | ⟨t, hc, h⟩
  · exact ⟨_, h, s.latch_sameHost e _⟩
  · exact ⟨t, h, hc.sameHost⟩

/-- A word written to `CMD` is discarded, raises IllegalCommand, or is executed. -/
theorem issueCommand_next (w : Word) (s : State) : ∃ t, issueCommand w s = .next t ∧ SameHost s t := by
  by_cases hg : s.err = none ∨ passesGate w = true
  · cases hd : decode w with
    | error d => exact ⟨_, issueCommand_illegal hg hd, s.latch_sameHost _ w⟩
    | ok i => rw [issueCommand_ok hg hd]; exact exec_next i s
  · obtain ⟨he, hw⟩ := not_or.mp hg
    exact ⟨s, issueCommand_gated he (Bool.eq_false_of_not_eq_true hw), .refl s⟩

theorem State.writeRegister_sameHost {s t : State} {off : Nat} {v : Word} (h : s.writeRegister off v = some t) :
    SameHost s t := by
  rcases State.writeRegister_cases h with rfl | ⟨-, rfl⟩ | ⟨-, rfl⟩ | rfl | rfl <;> exact ⟨rfl, rfl⟩

theorem State.writeByte_sameHost {s t : State} {off : Nat} {v : Byte} (h : s.writeByte off v = some t) :
    SameHost s t := by
  rcases State.writeByte_cases h with ⟨-, rfl⟩ | ⟨-, rfl⟩ | rfl <;> exact ⟨rfl, rfl⟩

/-- No action of the host stops the machine; a reset keeps the parameters too (log entry 14). -/
theorem perform_next (a : HostAction) (s : State) : ∃ t, perform a s = .next t ∧ SameHost s t := by
  rcases perform_cases a s with ⟨r, h⟩ | ⟨off, v, t, hw, h⟩ | ⟨off, v, t, hw, h⟩ | ⟨w, h⟩ | h
  · exact ⟨_, h, rfl, rfl⟩
  · exact ⟨_, h, (State.writeRegister_sameHost hw).answer .ack⟩
  · exact ⟨_, h, (State.writeByte_sameHost hw).answer .ack⟩
  · rw [h]; exact issueCommand_next w { s with reply := .ack }
  · exact ⟨_, h, rfl, rfl⟩

/-- Settles O9: an idle machine holds its state, any other performs the host's next action, which `perform_next` says
never stops it. -/
theorem everyStepAnswersANextState : Obligations.EveryStepAnswersANextState := by
  intro s
  cases hp : s.pending with
  | nil => exact ⟨s, step_idle hp, rfl, hp⟩
  | cons a rest =>
    rw [step_cons hp]
    exact perform_next a { s with pending := rest }

end Sys2Proof.Machine
end

section
/-! PROOFS. The bit primitives in the spec's own numbering: bits from 1 at the left (`spec/00_scope.md` R10, R13), a
rotation as arithmetic (R14), and the S-box entry of a group's outer and inner bits (`spec/40_bit_tables.md` R136). -/

namespace Sys2Proof.Machine

/-- R13: output bit `j` of a permutation is the input bit its table lists at `j`, both counted from 1 at the left. -/
theorem fipsBit_permute {n : Nat} (t : List Nat) (v : BitVec n) {j : Nat} (h1 : 1 ≤ j) (hj : j ≤ t.length) :
    fipsBit (permute t.length t v) j = fipsBit v (t.getD (j - 1) 0) := by
  have hk : t.length - 1 - (t.length - j) = j - 1 := by omega
  rw [← hk]
  exact permute_getLsbD t.length t v rfl (t.length - j) (by omega)

/-- R14: the bits that stay move up by `s`, the `s` bits on top come back at the bottom. -/
theorem toNat_rol28 (x : KeyHalf) {s : Nat} (hs : s ≤ 28) :
    (rol28 x s).toNat = x.toNat * 2 ^ s % 2 ^ 28 + x.toNat / 2 ^ (28 - s) := by
  have hw : (2 : Nat) ^ 28 = 2 ^ (28 - s) * 2 ^ s := by rw [← Nat.pow_add, Nat.sub_add_cancel hs]
  have hlow : x.toNat / 2 ^ (28 - s) < 2 ^ s := Nat.div_lt_of_lt_mul (hw ▸ x.isLt)
  have hhigh : x.toNat * 2 ^ s % 2 ^ 28 = (x.toNat % 2 ^ (28 - s)) <<< s := by
    rw [hw, Nat.mul_mod_mul_right, Nat.shiftLeft_eq]
  calc (rol28 x s).toNat
      = x.toNat * 2 ^ s % 2 ^ 28 ||| x.toNat / 2 ^ (28 - s) := by
        rw [rol28, BitVec.toNat_or, BitVec.toNat_shiftLeft, BitVec.toNat_ushiftRight, Nat.shiftLeft_eq,
          Nat.shiftRight_eq_div_pow]
    _ = x.toNat * 2 ^ s % 2 ^ 28 + x.toNat / 2 ^ (28 - s) := by
        rw [hhigh, Nat.shiftLeft_add_eq_or_of_lt hlow]

/-- What holds of every entry of a list and of the default holds of the entry at any index. -/
theorem forall_getD {α : Type} {P : α → Prop} {l : List α} {d : α} (hl : ∀ x ∈ l, P x) (hd : P d) (i : Nat) :
    P (l.getD i d) := by
  by_cases h : i < l.length
  · rw [List.getD_eq_getElem _ _ h]; exact hl _ (List.getElem_mem h)
  · rwa [List.getD_eq_default _ _ (not_lt.mp h)]

/-- Every entry of every S-box has four bits (R135). -/
theorem sBoxes_entry_lt (n row col : Nat) : ((sBoxes.getD n []).getD row []).getD col 0 < 16 := by
  have hall : ∀ box ∈ sBoxes, ∀ r ∈ box, ∀ x ∈ r, x < 16 := by decide
  have hbox : ∀ r ∈ sBoxes.getD n [], ∀ x ∈ r, x < 16 :=
    forall_getD (P := fun box => ∀ r ∈ box, ∀ x ∈ r, x < 16) hall (List.forall_mem_nil _) n
  have hrow : ∀ x ∈ (sBoxes.getD n []).getD row [], x < 16 :=
    forall_getD (P := fun r => ∀ x ∈ r, x < 16) hbox (List.forall_mem_nil _) row
  exact forall_getD hrow (by decide) col

/-- The row of a group, the number of its first and last bit (R136). -/
theorem sbox_row (g : BitVec 6) : 2 * (g.toNat / 32) + g.toNat % 2 = 2 * (g.getLsbD 5).toNat + (g.getLsbD 0).toNat := by
  have hg := g.isLt
  rw [BitVec.getLsbD, BitVec.getLsbD, Nat.toNat_testBit, Nat.toNat_testBit]
  omega

/-- R136: the entry of box `n + 1` at the row of the outer two bits and the column of the inner four. -/
theorem toNat_sbox (n : Nat) (g : BitVec 6) : (sbox (n + 1) g).toNat =
    ((sBoxes.getD n []).getD (2 * (g.getLsbD 5).toNat + (g.getLsbD 0).toNat) []).getD (g.toNat / 2 % 16) 0 := by
  rw [← sbox_row, sbox, BitVec.toNat_ofNat, Nat.add_sub_cancel, Nat.mod_eq_of_lt (sBoxes_entry_lt ..)]

/-- Settles O29: one lemma for each of the three primitives. -/
theorem bitPrimitivesMoveBits : Obligations.BitPrimitivesMoveBits :=
  ⟨fun _ t v _ _ h1 hj => fipsBit_permute t v h1 hj, fun x _ hs => toNat_rol28 x (by omega), fun n g => toNat_sbox n g⟩

end Sys2Proof.Machine
end

section
/-! PROOFS. A word written to `CMD`: the decoder reads the opcode of the command it answers, so the gate of
`spec/60_exceptions.md` R306, which looks at `w[7:0]` only, opens for `CLRERR` and `ZEROIZE` and no other command. -/

namespace Sys2Proof.Machine

/-- A decoder's answer behind a check: the check holds, and the command is the one answered. -/
theorem ite_ok_eq_ok {c : Prop} [Decidable c] {d : DecodeError} {i j : Instr} :
    (if c then Except.ok i else .error d) = .ok j ↔ c ∧ j = i := by
  by_cases hc : c
  · rw [if_pos hc, Except.ok.injEq, eq_comm, and_iff_right hc]
  · rw [if_neg hc]
    exact ⟨nofun, fun h => absurd h.1 hc⟩

/-- Format N accepts a word without operand bits, and answers its row's command (`spec/30_encoding.md` R102). -/
theorem formatN_eq_ok {w : Word} {i j : Instr} : formatN w i = .ok j ↔ w.extractLsb' 8 5 = 0 ∧ j = i := ite_ok_eq_ok

/-- Format A reads the `ALG` bit (R102, R104). -/
theorem formatA_eq_ok {w : Word} {mk : Alg → Instr} {j : Instr} :
    formatA w mk = .ok j ↔ (w.extractLsb' 11 2 = 0 ∧ ksField w = 0) ∧ j = mk (algField w) := ite_ok_eq_ok

/-- Format S reads the three selectors (R102, R104 to R106). -/
theorem formatS_eq_ok {w : Word} {mk : Alg → ChainMode → TextEnc → Instr} {j : Instr} :
    formatS w mk = .ok j ↔ ksField w = 0 ∧ j = mk (algField w) (modeField w) (encField w) := ite_ok_eq_ok

/-- Format K reads the slot field, which must not be zero (R102, R103). -/
theorem formatK_eq_ok {w : Word} {mk : BitVec 2 → Instr} {j : Instr} :
    formatK w mk = .ok j ↔ (w.extractLsb' 10 3 = 0 ∧ ksField w ≠ 0) ∧ j = mk (ksField w) := by
  unfold formatK
  by_cases hz : ksField w = 0
  · rw [if_pos hz]
    exact ⟨fun h => (by split at h <;> cases h), fun h => absurd hz h.1.2⟩
  · rw [if_neg hz, ite_ok_eq_ok, and_iff_left hz]

/-- A word that decodes carries the opcode of its command (`spec/30_encoding.md` R108): each row of the opcode map
answers a command of its own opcode, whatever its format. -/
theorem opField_of_decode {w : Word} {i : Instr} (h : decode w = .ok i) : opField w = i.opcode := by
  unfold decode at h
  split at h
  · cases h
  · split at h <;> rename_i hop <;>
      simp only [formatN_eq_ok, formatK_eq_ok, formatA_eq_ok, formatS_eq_ok, reduceCtorEq] at h
    all_goals
      obtain ⟨-, rfl⟩ := h
      exact BitVec.eq_of_toNat_eq hop

/-- Opcode 0x01 is `CLRERR`'s alone (`spec/30_encoding.md` R108). -/
theorem opcode_eq_clrerr (i : Instr) : i.opcode = 0x01 ↔ i = .clrerr := by cases i <;> simp [Instr.opcode]

/-- Opcode 0x02 is `ZEROIZE`'s alone (R108). -/
theorem opcode_eq_zeroize (i : Instr) : i.opcode = 0x02 ↔ i = .zeroize := by cases i <;> simp [Instr.opcode]

/-- Among the commands the gate lets `CLRERR` and `ZEROIZE` pass (`spec/60_exceptions.md` R306). -/
theorem passesGate_iff_of_decode {w : Word} {i : Instr} (h : decode w = .ok i) :
    passesGate w = true ↔ i = .clrerr ∨ i = .zeroize := by
  rw [passesGate, opField_of_decode h, Bool.or_eq_true, beq_iff_eq, beq_iff_eq, opcode_eq_clrerr, opcode_eq_zeroize]

/-- Everything a word written to `CMD` can do: it is discarded, or it is no command, or its command is executed. -/
theorem issueCommand_cases (w : Word) (s : State) :
    issueCommand w s = .next s ∨
    (∃ d, decode w = .error d ∧ issueCommand w s = .next (s.latch .illegalCommand w)) ∨
    ∃ i, decode w = .ok i ∧ (s.err = none ∨ i = .clrerr ∨ i = .zeroize) ∧ issueCommand w s = exec i s := by
  by_cases hg : s.err = none ∨ passesGate w = true
  · cases hd : decode w with
    | error d => exact .inr (.inl ⟨d, rfl, issueCommand_illegal hg hd⟩)
    | ok i => exact .inr (.inr ⟨i, rfl, hg.imp_right (passesGate_iff_of_decode hd).mp, issueCommand_ok hg hd⟩)
  · obtain ⟨he, hw⟩ := not_or.mp hg
    exact .inl (issueCommand_gated he (Bool.eq_false_of_not_eq_true hw))

/-- Settles O5: the write reaches the decoder, for with an error latched the command is one the gate lets pass. -/
theorem stepRunsTheDecodedCommand : Obligations.StepRunsTheDecodedCommand := by
  intro s v rest i hp hd hg
  rw [step_command hp]
  exact issueCommand_ok (hg.imp_right (passesGate_iff_of_decode hd).mpr) hd

end Sys2Proof.Machine
end

section
/-! PROOFS. The length of what each data command puts out stays within the capacity it checked (`spec/10_state.md` R49 (a)):
the lengths the laws of texts do not give, decoding and removing a pad never lengthen. -/

namespace Sys2Proof.Machine

/-- A full base64 group is three bytes (`spec/46_codec.md` R248). -/
theorem fullGroup_length {a b c d : Byte} {g : List Byte} (h : fullGroup a b c d = some g) : g.length = 3 := by
  unfold fullGroup at h
  split at h
  · exact Option.some.inj h ▸ rfl
  · cases h

/-- The last base64 group is at most three bytes (R248). -/
theorem lastGroup_length_le {a b c d : Byte} {g : List Byte} (h : lastGroup a b c d = some g) : g.length ≤ 3 := by
  unfold lastGroup at h
  split at h
  · split at h <;> split at h
    · exact Option.some.inj h ▸ (by decide : 1 ≤ 3)
    · cases h
    · exact Option.some.inj h ▸ (by decide : 2 ≤ 3)
    · cases h
  · exact (fullGroup_length h).le

theorem b64Dec_length_le {t m : List Byte} (h : b64Dec t = some m) : m.length ≤ t.length := by
  fun_induction b64Dec t generalizing m with
  | case1 => exact Option.some.inj h ▸ le_rfl
  | case2 => exact (lastGroup_length_le h).trans (by simp)
  | case3 a b c d rest _ g m' hm hg ih =>
    have hl := ih hm
    have hg := fullGroup_length hg
    rw [← Option.some.inj h, List.length_append]
    simp only [List.length_cons]
    omega
  | case4 => cases h
  | case5 => cases h

/-- The bytes of a text are no more than its characters. -/
theorem decodeText_length_le {enc : TextEnc} {t m : List Byte} (h : decodeText enc t = some m) :
    m.length ≤ t.length := by
  cases enc with
  | hex =>
    have := hexDec_length h
    omega
  | b64 => exact b64Dec_length_le h

theorem unpad_length_le {m r : List Byte} (h : unpad m = some r) : r.length ≤ m.length := by
  obtain ⟨n, -, -, rfl⟩ := unpad_some h
  simp

/-- The text a key is generated as, 16 or 48 characters (`spec/47_service.md` R268). -/
theorem genkeyText_length (s : State) (alg : Alg) :
    (hexEnc (s.randBytes (keyBytes alg))).length = keyTextLength alg := by
  rw [hexEnc_length, State.length_randBytes]
  cases alg <;> rfl

theorem pad_length_eq (m : List Byte) : (pad m).length = m.length + padLength m.length := by
  rw [pad_length, add_padLength]

/-- Chaining a whole number of blocks keeps the length, and so fits where its input does. -/
theorem chainEnc_length_of_wholeBlocks {m : List Byte} (h : wholeBlocks m.length = true) (alg : Alg) (mode : ChainMode)
    (rk : Slots Schedule) (iv : Block) : (chainEnc alg mode m rk iv).length = m.length :=
  chainEnc_length alg mode m rk iv ((wholeBlocks_iff _).mp h).2

theorem chainDec_length_of_wholeBlocks {m : List Byte} (h : wholeBlocks m.length = true) (alg : Alg) (mode : ChainMode)
    (rk : Slots Schedule) (iv : Block) : (chainDec alg mode m rk iv).length = m.length :=
  chainDec_length alg mode m rk iv ((wholeBlocks_iff _).mp h).2

/-- The text `ENCRYPT` puts out has the length its capacity check speaks of (`spec/47_service.md` R262). -/
theorem encryptText_length (enc : TextEnc) (alg : Alg) (mode : ChainMode) (m : List Byte) (rk : Slots Schedule)
    (iv : Block) :
    (encodeText enc (chainEnc alg mode (pad m) rk iv)).length = textLength enc (m.length + padLength m.length) := by
  have h8 : (pad m).length % 8 = 0 := by rw [pad_length]; omega
  rw [encodeText_length, chainEnc_length alg mode _ rk iv h8, pad_length_eq]

end Sys2Proof.Machine
end

section
/-! PROOFS. The invariant of `spec/10_state.md` R49 holds after reset, and every step keeps it: each named update of the
state in turn, then every command, every word written to `CMD`, every action of the host. -/

namespace Sys2Proof.Machine

/-- R49 (b) and (c) for the registers of one slot: a valid schedule is that of the slot's valid key, and what is not
valid is zero. -/
structure SlotInv (key : Block) (kv : Bool) (rk : Schedule) (rkv : Bool) : Prop where
  schedule_of_key : rkv = true → kv = true ∧ rk = keySchedule key
  key_zero : kv = false → key = 0
  schedule_zero : rkv = false → rk = zeroSchedule

/-- A key without its schedule, as `LOADKEY` leaves it. -/
theorem SlotInv.loaded (key : Block) : SlotInv key true zeroSchedule false := ⟨nofun, nofun, fun _ => rfl⟩

/-- A key with its schedule, as `KSCHED` and the service commands leave it. -/
theorem SlotInv.scheduled (key : Block) : SlotInv key true (keySchedule key) true := ⟨fun _ => ⟨rfl, rfl⟩, nofun, nofun⟩

/-- Every slot of the state meets its part of the invariant. -/
abbrev State.SlotsInv (s : State) : Prop := ∀ k, SlotInv (s.key.get k) (s.kv.get k) (s.rk.get k) (s.rkv.get k)

theorem Inv.slots {s : State} (h : Inv s) : s.SlotsInv := fun k =>
  ⟨h.schedule_of_key k, h.key_zero k, h.schedule_zero k⟩

/-- An update of keys and schedules keeps the invariant when every slot still meets its part. -/
theorem Inv.of_slots {s t : State} (hs : Inv s) (hk : t.SlotsInv)
    (ht : t = { s with key := t.key, kv := t.kv, rk := t.rk, rkv := t.rkv }) : Inv t := by
  rw [ht]
  exact { hs with
    schedule_of_key := fun k => (hk k).schedule_of_key
    key_zero := fun k => (hk k).key_zero
    schedule_zero := fun k => (hk k).schedule_zero }

/-- Everything at its reset value meets the invariant (`spec/10_state.md` R48). -/
theorem inv_clearAll {s : State} (hc : s.cfg.Valid) : Inv s.clearAll where
  cfg_valid := hc
  kbuf_wf := Memory.wf_nil
  ibuf_wf := Memory.wf_nil
  obuf_wf := Memory.wf_nil
  kbuf_below := Memory.below_nil _
  ibuf_below := Memory.below_nil _
  obuf_below := Memory.below_nil _
  ilen_le := Nat.zero_le _
  olen_le := Nat.zero_le _
  klen_le := Nat.zero_le _
  schedule_of_key := by intro k h; cases k <;> cases h
  key_zero := by intro k _; cases k <;> rfl
  schedule_zero := by intro k _; cases k <;> rfl
  iv_zero := fun _ => rfl
  err_iff_ecmd := ⟨fun _ => rfl, fun _ => rfl⟩
  err_olen := fun _ => rfl

section updates

variable {s : State} (hs : Inv s)
include hs

theorem Inv.answer (r : BusReply) : Inv { s with reply := r } := { hs with }

/-- Taking an error (`spec/60_exceptions.md` R305) with a word other than zero: the latch and its word agree. -/
theorem Inv.latch (e : ErrorKind) {w : Word} (hw : w ≠ 0) : Inv (s.latch e w) := by
  rcases s.latch_cases e w with ⟨-, h⟩ | ⟨-, h⟩ <;> rw [h]
  · exact { hs with
      obuf_wf := Memory.wf_nil
      obuf_below := Memory.below_nil _
      olen_le := Nat.zero_le _
      err_iff_ecmd := ⟨nofun, fun h0 => absurd h0 hw⟩
      err_olen := fun _ => rfl }
  · exact hs

theorem Inv.clearError : Inv s.clearError :=
  { hs with err_iff_ecmd := ⟨fun _ => rfl, fun _ => rfl⟩, err_olen := fun h => absurd rfl h }

/-- A data command's output within the capacity, with no error latched (R49 (a), (e)). -/
theorem Inv.emit (he : s.err = none) {out : List Byte} (hl : out.length ≤ s.cfg.nbuf) : Inv (s.emit out) :=
  { hs with
    obuf_wf := Memory.wf_ofBytes out
    obuf_below := Memory.below_ofBytes out
    olen_le := hl
    err_olen := fun h => absurd he h }

/-- `XFER`: the output fits in `IBUF`. -/
theorem Inv.xfer : Inv { s with ibuf := s.ibuf.store 0 s.output, ilen := s.olen } :=
  { hs with
    ibuf_wf := Memory.wf_store hs.ibuf_wf _ 0
    ibuf_below := Memory.below_store hs.ibuf_below _ 0 (by rw [State.length_output, Nat.zero_add]; exact hs.olen_le)
    ilen_le := hs.olen_le }

theorem Inv.clearIv : Inv s.clearIv := { hs with iv_zero := fun _ => rfl }

theorem Inv.drawIv : Inv s.drawIv := { hs with iv_zero := nofun }

theorem Inv.writeIvHigh (v : Word) : Inv (s.writeIvHigh v) := { hs with iv_zero := nofun }

theorem Inv.writeIvLow (v : Word) : Inv (s.writeIvLow v) := { hs with iv_zero := nofun }

theorem Inv.consume (n : Nat) : Inv (s.consume n) := { hs with }

/-- Keys loaded without schedules, in the slots of `alg`; the other slots are as they were. -/
theorem Inv.loadKeys (alg : Alg) (ks : Slots Block) : Inv (s.loadKeys alg ks) := by
  refine hs.of_slots (fun k => ?_) rfl
  by_cases hu : alg = .tdes ∨ k = .k1
  · simpa [Slots.get_overwrite, hu] using SlotInv.loaded (ks.get k)
  · simpa [Slots.get_overwrite, hu] using hs.slots k

/-- Keys loaded with their schedules, in the slots of `alg`. -/
theorem Inv.installKeys (alg : Alg) (ks : Slots Block) : Inv (s.installKeys alg ks) := by
  refine hs.of_slots (fun k => ?_) rfl
  by_cases hu : alg = .tdes ∨ k = .k1
  · simpa [Slots.get_overwrite, hu] using SlotInv.scheduled (ks.get k)
  · simpa [Slots.get_overwrite, hu] using hs.slots k

/-- `KSCHED k` with a valid key. -/
theorem Inv.deriveSchedule {k : Slot} (hv : s.kv.get k = true) : Inv (s.deriveSchedule k) := by
  refine hs.of_slots (fun j => ?_) rfl
  by_cases hj : j = k
  · subst hj
    simpa [hv] using SlotInv.scheduled (s.key.get j)
  · simpa [Slots.get_set_other, hj] using hs.slots j

theorem Inv.prepareEncrypt (alg : Alg) (mode : ChainMode) (ks : Slots Block) : Inv (s.prepareEncrypt alg mode ks) := by
  cases mode with
  | ecb => exact hs.installKeys alg ks
  | cbc => exact (hs.installKeys alg ks).drawIv

/-- One block fits in every buffer (`spec/00_scope.md` R8). -/
theorem Inv.block_le : 8 ≤ s.cfg.nbuf := le_trans (by decide) hs.cfg_valid.1

/-- A generated key text fits in every buffer. -/
theorem Inv.keyTextLength_le (alg : Alg) : keyTextLength alg ≤ s.cfg.nbuf :=
  le_trans (by cases alg <;> decide) hs.cfg_valid.1

theorem Inv.input_length_le : s.input.length ≤ s.cfg.nbuf := s.length_input.le.trans hs.ilen_le

end updates

/-- Every command that completes with no error latched keeps the invariant. -/
theorem Completed.inv {s t : State} {i : Instr} (h : Completed s i t) (hs : Inv s) (he : s.err = none) : Inv t := by
  cases h with
  | nop => exact hs
  | clrerr => exact hs.clearError
  | zeroize => exact inv_clearAll hs.cfg_valid
  | xfer => exact hs.xfer
  | ivclr => exact hs.clearIv
  | geniv => exact hs.drawIv
  | loadkey alg ks => exact hs.loadKeys alg ks
  | ksched ks k _ hv => exact hs.deriveSchedule hv
  | desenc | desdec | tdesenc | tdesdec => exact hs.emit he hs.block_le
  | pad hl => exact hs.emit he (by rwa [pad_length_eq, State.length_input])
  | unpad r hu => exact hs.emit he ((unpad_length_le hu).trans hs.input_length_le)
  | ecbenc alg _ hw | cbcenc alg _ hw =>
    rw [← State.length_input] at hw
    exact hs.emit he ((chainEnc_length_of_wholeBlocks hw ..).le.trans hs.input_length_le)
  | ecbdec alg _ hw | cbcdec alg _ hw =>
    rw [← State.length_input] at hw
    exact hs.emit he ((chainDec_length_of_wholeBlocks hw ..).le.trans hs.input_length_le)
  | hexenc hl | b64enc hl => exact hs.emit he (by rwa [encodeText_length, State.length_input])
  | hexdec m hd | b64dec m hd => exact hs.emit he ((decodeText_length_le hd).trans hs.input_length_le)
  | encrypt alg mode enc ks _ hl =>
    have hp : (s.prepareEncrypt alg mode ks).err = none := by cases mode <;> exact he
    refine (hs.prepareEncrypt alg mode ks).emit hp ?_
    rwa [encryptText_length, State.length_input, (s.prepareEncrypt_sameHost alg mode ks).1]
  | decrypt alg mode enc ks c r _ hd hw _ hu =>
    refine (hs.installKeys alg ks).emit he ?_
    calc r.length ≤ c.length := (unpad_length_le hu).trans (chainDec_length_of_wholeBlocks hw ..).le
      _ ≤ s.cfg.nbuf := (decodeText_length_le hd).trans hs.input_length_le
  | genkey alg => exact (hs.consume _).emit he ((genkeyText_length s alg).le.trans (hs.keyTextLength_le alg))

/-- The word of a command has the command's opcode in bits 7:0 (`spec/30_encoding.md` R101). -/
theorem opField_encode (i : Instr) : opField (encode i) = i.opcode := by
  have hlay : ∃ ks alg mode enc, encode i = layFields i.opcode ks alg mode enc := by cases i <;> exact ⟨_, _, _, _, rfl⟩
  obtain ⟨ks, alg, mode, enc, h⟩ := hlay
  rw [h, opField, layFields, BitVec.extractLsb'_append_eq_right]

/-- `NOP` is the only command whose word is zero. -/
theorem encode_ne_zero {i : Instr} (h : i ≠ .nop) : encode i ≠ 0 := by
  intro h0
  have hop : i.opcode = 0 := by rw [← opField_encode, h0]; rfl
  cases i <;> simp [Instr.opcode] at hop h

/-- A command that runs, `CLRERR` or `ZEROIZE` if an error is latched, keeps the invariant: `NOP`, whose word would not
show in `ECMD`, raises nothing. -/
theorem exec_inv {i : Instr} {s t : State} (hs : Inv s) (hg : s.err = none ∨ i = .clrerr ∨ i = .zeroize)
    (h : exec i s = .next t) : Inv t := by
  rcases hg with he | rfl | rfl
  · rcases exec_cases i s with ⟨e, hm, hx⟩ | ⟨u, hc, hx⟩ <;> cases hx.symm.trans h
    · refine hs.latch e (encode_ne_zero ?_)
      rintro rfl
      simp [mayRaise, Instr.wellFormed] at hm
    · exact hc.inv hs he
  · cases h; exact hs.clearError
  · cases h; exact inv_clearAll hs.cfg_valid

/-- The zero word is a command, so a word that is none is not zero. -/
theorem ne_zero_of_decode_error {w : Word} {d : DecodeError} (h : decode w = .error d) : w ≠ 0 := by
  rintro rfl
  cases h

theorem issueCommand_inv {w : Word} {s t : State} (hs : Inv s) (h : issueCommand w s = .next t) : Inv t := by
  rcases issueCommand_cases w s with hx | ⟨d, hd, hx⟩ | ⟨i, -, hg, hx⟩
  · cases hx.symm.trans h; exact hs
  · cases hx.symm.trans h; exact hs.latch _ (ne_zero_of_decode_error hd)
  · exact exec_inv hs hg (hx.symm.trans h)

theorem State.writeRegister_inv {s t : State} {off : Nat} {v : Word} (hs : Inv s)
    (h : s.writeRegister off v = some t) : Inv t := by
  rcases State.writeRegister_cases h with rfl | ⟨hl, rfl⟩ | ⟨hl, rfl⟩ | rfl | rfl
  · exact hs
  · exact { hs with ilen_le := hl }
  · exact { hs with klen_le := hl }
  · exact hs.writeIvHigh v
  · exact hs.writeIvLow v

theorem State.writeByte_inv {s t : State} {off : Nat} {v : Byte} (hs : Inv s) (h : s.writeByte off v = some t) :
    Inv t := by
  rcases State.writeByte_cases h with ⟨hk, rfl⟩ | ⟨hi, rfl⟩ | rfl
  · exact { hs with
      kbuf_wf := Memory.wf_write hs.kbuf_wf _ v
      kbuf_below := Memory.below_write hs.kbuf_below (by omega) v }
  · exact { hs with
      ibuf_wf := Memory.wf_write hs.ibuf_wf _ v
      ibuf_below := Memory.below_write hs.ibuf_below (by omega) v }
  · exact hs

/-- Every action of the host keeps the invariant. -/
theorem perform_inv {a : HostAction} {s t : State} (hs : Inv s) (h : perform a s = .next t) : Inv t := by
  rcases perform_cases a s with ⟨r, hx⟩ | ⟨off, v, u, hw, hx⟩ | ⟨off, v, u, hw, hx⟩ | ⟨w, hx⟩ | hx
  · cases hx.symm.trans h; exact hs.answer r
  · cases hx.symm.trans h; exact (State.writeRegister_inv hs hw).answer .ack
  · cases hx.symm.trans h; exact (State.writeByte_inv hs hw).answer .ack
  · exact issueCommand_inv (hs.answer .ack) (hx.symm.trans h)
  · cases hx.symm.trans h; exact (inv_clearAll hs.cfg_valid).answer .idle

/-- Settles O57: an idle machine holds its state, and every action of the host keeps the invariant. -/
theorem stepKeepsTheInvariant : Obligations.StepKeepsTheInvariant := by
  intro s t hs h
  cases hp : s.pending with
  | nil => cases (step_idle hp).symm.trans h; exact hs
  | cons a rest =>
    rw [step_cons hp] at h
    have hrest : Inv { s with pending := rest } := { hs with }
    exact perform_inv hrest h

theorem inv_initial {c : Config} (hc : c.Valid) (entropy : List Byte) (actions : List HostAction) :
    Inv (State.initial c entropy actions) := inv_clearAll (s := State.initial c entropy actions) hc

/-- Settles O58: the reset state is everything at its reset value, with whatever parameters the spec allows. -/
theorem resetSatisfiesTheInvariant : Obligations.ResetSatisfiesTheInvariant :=
  ⟨inv_clearAll (s := State.reset) (by decide), fun _ entropy actions hc => inv_initial hc entropy actions⟩

/-- The invariant holds in every state a run can reach. -/
theorem Reachable.inv {s : State} (h : Reachable s) : Inv s := by
  induction h with
  | initial c entropy actions hc => exact inv_initial hc entropy actions
  | step s t _ h ih => exact stepKeepsTheInvariant s t ih h

/-- `ERR` is 0 exactly when no error is latched (`spec/60_exceptions.md` R300). -/
theorem errField_eq_zero_iff (e : Option ErrorKind) : errField e = 0 ↔ e = none := by
  rcases e with _ | _ | _ <;> decide

/-- The codes 8 to 15 do not occur (`spec/10_state.md` R39). -/
theorem errField_le (e : Option ErrorKind) : (errField e).toNat ≤ 7 := by
  rcases e with _ | _ | _ <;> decide

/-- Settles O59: the clauses of R49 are the fields of the invariant, read subkey by subkey. -/
theorem reachableStatesSatisfyR49 : Obligations.ReachableStatesSatisfyR49 := by
  intro s hr
  have hs := hr.inv
  refine ⟨⟨hs.ilen_le, hs.olen_le, hs.klen_le⟩, fun k hv => ?_, hs.key_zero, fun k hv j => ?_, hs.iv_zero, ?_, ?_,
    errField_le s.err⟩
  · obtain ⟨hkv, hrk⟩ := hs.schedule_of_key k hv
    exact ⟨hkv, fun j => by rw [hrk]⟩
  · rw [hs.schedule_zero k hv]
    exact Vector.getElem_replicate ..
  · rw [errField_eq_zero_iff]; exact hs.err_iff_ecmd
  · rw [ne_eq, errField_eq_zero_iff]; exact hs.err_olen

end Sys2Proof.Machine
end

section
/-! PROOFS. `STATUS` as a number (`spec/10_state.md` R39): every field laid beside the others adds its weight. -/

namespace Sys2Proof.Machine

/-- The value of two fields side by side. -/
theorem toNat_append_add {m n : Nat} (x : BitVec m) (y : BitVec n) : (x ++ y).toNat = x.toNat * 2 ^ n + y.toNat := by
  rw [BitVec.toNat_append, ← Nat.shiftLeft_add_eq_or_of_lt y.isLt, Nat.shiftLeft_eq]

/-- `STATUS` is the sum of the error code and the flags at their weights. -/
theorem State.toNat_statusWord (s : State) :
    s.statusWord.toNat = (errField s.err).toNat + 16 * s.ivv.toNat + 32 * s.kv.k1.toNat + 64 * s.kv.k2.toNat +
      128 * s.kv.k3.toNat + 256 * s.rkv.k1.toNat + 512 * s.rkv.k2.toNat + 1024 * s.rkv.k3.toNat := by
  simp only [State.statusWord, toNat_append_add, BitVec.toNat_ofBool, BitVec.ofNat_eq_ofNat, BitVec.toNat_ofNat]
  omega

/-- A write of `STATUS` is ignored. -/
theorem perform_write_status (v : BitVec 64) (s : State) :
    perform (.write (s.cfg.base + 0x04) .b32 v) s = .next { s with reply := .ack } := by
  simp [perform, busWrite, State.writeRegister]

/-- Settles O12: the word by its weights, the read and the write as bus accesses, the codes one by one. -/
theorem statusShowsTheFlags : Obligations.StatusShowsTheFlags := by
  refine ⟨State.toNat_statusWord, fun s rest hp => ?_, fun s v rest hp => ?_, rfl, rfl⟩
  · exact (step_cons hp).trans (perform_memRead32 (s := { s with pending := rest }) rfl rfl)
  · exact (step_cons hp).trans (perform_write_status v { s with pending := rest })

end Sys2Proof.Machine
end

section
/-! PROOFS. `KEY` and `RK` do not reach the bus (`spec/10_state.md` R31, R34): every access but a command does the same,
and answers the same, whatever they hold. -/

namespace Sys2Proof.Machine

/-- The state with other keys and schedules, all else the same. -/
def State.withSecrets (s : State) (key : Slots Block) (rk : Slots Schedule) : State := { s with key := key, rk := rk }

/-- An operation answers a next state, leaves `KEY` and `RK` alone, and does the same whatever they hold. -/
def BlindToSecrets (f : State → Outcome) (s : State) (key : Slots Block) (rk : Slots Schedule) : Prop :=
  ∃ t, f s = .next t ∧ t.key = s.key ∧ t.rk = s.rk ∧ f (s.withSecrets key rk) = .next (t.withSecrets key rk)

/-- No register write other than one to `CMD` touches the secrets. -/
theorem State.writeRegister_secrets {s t : State} {off : Nat} {v : Word} (h : s.writeRegister off v = some t) :
    t.key = s.key ∧ t.rk = s.rk := by
  rcases State.writeRegister_cases h with rfl | ⟨-, rfl⟩ | ⟨-, rfl⟩ | rfl | rfl <;> exact ⟨rfl, rfl⟩

/-- No buffer write touches the secrets. -/
theorem State.writeByte_secrets {s t : State} {off : Nat} {v : Byte} (h : s.writeByte off v = some t) :
    t.key = s.key ∧ t.rk = s.rk := by
  rcases State.writeByte_cases h with ⟨-, rfl⟩ | ⟨-, rfl⟩ | rfl <;> exact ⟨rfl, rfl⟩

section accesses

variable (s : State) (key : Slots Block) (rk : Slots Schedule)

theorem State.withSecrets_cfg : (s.withSecrets key rk).cfg = s.cfg := rfl

theorem State.readRegister_withSecrets (off : Nat) : (s.withSecrets key rk).readRegister off = s.readRegister off := rfl

theorem State.readByte_withSecrets (off : Nat) : (s.withSecrets key rk).readByte off = s.readByte off := rfl

/-- A register write does to the state with other secrets what it does to the state. -/
theorem State.writeRegister_withSecrets (off : Nat) (v : Word) :
    (s.withSecrets key rk).writeRegister off v = (s.writeRegister off v).map (·.withSecrets key rk) := by
  unfold State.writeRegister
  split
  case h_2 | h_4 => simp only [apply_ite (Option.map _)]; rfl
  all_goals rfl

/-- A buffer write does to the state with other secrets what it does to the state. -/
theorem State.writeByte_withSecrets (off : Nat) (v : Byte) :
    (s.withSecrets key rk).writeByte off v = (s.writeByte off v).map (·.withSecrets key rk) := by
  unfold State.writeByte
  simp only [apply_ite (Option.map _)]
  rfl

/-- A read answers the same whatever the secrets are. -/
theorem busRead_blind (off : Nat) (width : BusWidth) : BlindToSecrets (busRead off width) s key rk := by
  cases width with
  | b16 | b64 => exact ⟨_, rfl, rfl, rfl, rfl⟩
  | b8 =>
    simp only [BlindToSecrets, busRead, State.readByte_withSecrets]
    cases s.readByte off <;> exact ⟨_, rfl, rfl, rfl, rfl⟩
  | b32 =>
    simp only [BlindToSecrets, busRead, State.readRegister_withSecrets]
    cases s.readRegister off <;> exact ⟨_, rfl, rfl, rfl, rfl⟩

/-- So does a write away from `CMD`, and it leaves the secrets alone. -/
theorem busWrite_blind {off : Nat} {width : BusWidth} (h : ¬ (width = .b32 ∧ off = 0)) (value : BitVec 64) :
    BlindToSecrets (busWrite off width value) s key rk := by
  cases width with
  | b16 | b64 => exact ⟨_, rfl, rfl, rfl, rfl⟩
  | b8 =>
    simp only [BlindToSecrets, busWrite, State.writeByte_withSecrets]
    cases hw : s.writeByte off (value.setWidth 8) with
    | none => exact ⟨_, rfl, rfl, rfl, rfl⟩
    | some t =>
      obtain ⟨hk, hr⟩ := State.writeByte_secrets hw
      exact ⟨_, rfl, hk, hr, rfl⟩
  | b32 =>
    have h0 : off ≠ 0 := fun h0 => h ⟨rfl, h0⟩
    simp only [BlindToSecrets, busWrite, if_neg h0, State.writeRegister_withSecrets]
    cases hw : s.writeRegister off (value.setWidth 32) with
    | none => exact ⟨_, rfl, rfl, rfl, rfl⟩
    | some t =>
      obtain ⟨hk, hr⟩ := State.writeRegister_secrets hw
      exact ⟨_, rfl, hk, hr, rfl⟩

end accesses

/-- Offset 0 is the address `BASE` and no other. -/
theorem busOffset_eq_zero {c : Config} {addr : Nat} (h : busOffset c addr = some 0) : addr = c.base := by
  unfold busOffset at h
  split at h
  · have := Option.some.inj h
    omega
  · cases h

/-- Settles O18: the access is refused at its address, or is the read or write at its offset. -/
theorem keysNeverReachTheBus : Obligations.KeysNeverReachTheBus := by
  intro s key rk a hcmd hreset
  change BlindToSecrets (perform a) s key rk
  cases a with
  | reset => exact absurd rfl hreset
  | read addr width =>
    simp only [BlindToSecrets, perform, State.withSecrets_cfg]
    cases busOffset s.cfg addr with
    | none => exact ⟨_, rfl, rfl, rfl, rfl⟩
    | some off => exact busRead_blind s key rk off width
  | write addr width value =>
    simp only [BlindToSecrets, perform, State.withSecrets_cfg]
    cases ho : busOffset s.cfg addr with
    | none => exact ⟨_, rfl, rfl, rfl, rfl⟩
    | some off =>
      refine busWrite_blind s key rk ?_ value
      rintro ⟨rfl, rfl⟩
      exact hcmd value (by rw [busOffset_eq_zero ho])

end Sys2Proof.Machine
end

section
/-! PROOFS. What a command leaves alone: keys, schedules, the IV, the entropy source and the three buffers, each for the
commands that are not its writers (`spec/10_state.md` R31 to R37, `spec/60_exceptions.md` R317). -/

namespace Sys2Proof.Machine

/-- A command that answers a state took an error of its own, or completed with that state. -/
theorem exec_eq_next {i : Instr} {s t : State} (h : exec i s = .next t) :
    (∃ e, t = s.latch e (encode i)) ∨ Completed s i t := by
  rcases exec_cases i s with ⟨e, -, hx⟩ | ⟨u, hc, hx⟩ <;> cases hx.symm.trans h
  · exact .inl ⟨e, rfl⟩
  · exact .inr hc

/-- Taking an error writes the latch and the output, and nothing else (`spec/60_exceptions.md` R305). -/
theorem State.latch_frame (s : State) (e : ErrorKind) (w : Word) : s.latch e w =
    { s with
      err := (s.latch e w).err, ecmd := (s.latch e w).ecmd, obuf := (s.latch e w).obuf, olen := (s.latch e w).olen } := by
  rcases s.latch_cases e w with ⟨-, h⟩ | ⟨-, h⟩
  · rw [h]; rfl
  · rw [h]

section registers

variable {s t : State} {i : Instr} (h : Completed s i t)
include h

theorem Completed.key_frame (hw : writesKey i = false) : t.key = s.key ∧ t.kv = s.kv := by
  cases h with
  | zeroize | loadkey | encrypt | decrypt => cases hw
  | _ => exact ⟨rfl, rfl⟩

theorem Completed.schedule_frame (hw : writesSchedule i = false) : t.rk = s.rk ∧ t.rkv = s.rkv := by
  cases h with
  | zeroize | loadkey | ksched | encrypt | decrypt => cases hw
  | _ => exact ⟨rfl, rfl⟩

theorem Completed.iv_frame (hw : writesIv i = false) : t.iv = s.iv ∧ t.ivv = s.ivv := by
  cases h with
  | zeroize | ivclr | geniv => cases hw
  | encrypt alg mode =>
    cases mode with
    | ecb => exact ⟨rfl, rfl⟩
    | cbc => cases hw
  | _ => exact ⟨rfl, rfl⟩

theorem Completed.entropy_frame (hw : drawsEntropy i = false) : t.entropy = s.entropy ∧ t.drawn = s.drawn := by
  cases h with
  | geniv | genkey => cases hw
  | encrypt alg mode =>
    cases mode with
    | ecb => exact ⟨rfl, rfl⟩
    | cbc => cases hw
  | _ => exact ⟨rfl, rfl⟩

theorem Completed.reply_frame : t.reply = s.reply := by
  cases h with
  | encrypt alg mode => cases mode <;> rfl
  | _ => rfl

/-- DES has slot 1 only: a DES command that loads keys leaves the other slots as they are (`spec/30_encoding.md` R104). -/
theorem Completed.des_slot_frame {k : Slot} (hk : k ≠ .k1)
    (hi : i = .loadkey .des ∨ ∃ mode enc, i = .encrypt .des mode enc ∨ i = .decrypt .des mode enc) :
    t.key.get k = s.key.get k ∧ t.kv.get k = s.kv.get k ∧ t.rk.get k = s.rk.get k ∧ t.rkv.get k = s.rkv.get k := by
  have hother {α : Type} (x y : Slots α) : (x.overwrite .des y).get k = x.get k := by
    rw [Slots.get_overwrite, if_neg (by simp [hk])]
  rcases hi with rfl | ⟨mode, enc, rfl | rfl⟩ <;> cases h
  · exact ⟨hother .., hother .., hother .., hother ..⟩
  · cases mode <;> exact ⟨hother .., hother .., hother .., hother ..⟩
  · exact ⟨hother .., hother .., hother .., hother ..⟩

/-- `KSCHED k` writes the schedule of slot `k` alone (`spec/41_key_schedule.md` R164). -/
theorem Completed.ksched_slot_frame {ks : BitVec 2} {k j : Slot} (hks : (ks, k) ∈ slotFields) (hi : i = .ksched ks)
    (hj : j ≠ k) : t.rk.get j = s.rk.get j ∧ t.rkv.get j = s.rkv.get j := by
  subst hi
  cases h with
  | ksched _ k' hs =>
    cases (slotOf_of_mem hks).symm.trans hs
    exact ⟨Slots.get_set_other _ _ hj, Slots.get_set_other _ _ hj⟩

end registers

/-- Settles O55: an error writes none of these registers, and a command that completes writes those its list names. -/
theorem commandsKeepOtherRegisters : Obligations.CommandsKeepOtherRegisters := by
  intro i s t h
  rcases exec_eq_next h with ⟨e, rfl⟩ | hc
  · rw [State.latch_frame]
    exact ⟨fun _ => ⟨rfl, rfl⟩, fun _ => ⟨rfl, rfl⟩, fun _ => ⟨rfl, rfl⟩, fun _ => ⟨rfl, rfl⟩, ⟨rfl, rfl, rfl⟩,
      fun _ _ _ => ⟨rfl, rfl, rfl, rfl⟩, fun _ _ _ _ _ _ => ⟨rfl, rfl⟩⟩
  · exact ⟨hc.key_frame, hc.schedule_frame, hc.iv_frame, hc.entropy_frame,
      ⟨hc.sameHost.1, hc.sameHost.2, hc.reply_frame⟩, fun _ => hc.des_slot_frame, fun _ _ _ => hc.ksched_slot_frame⟩

/-- A byte of the address space reads alike when the buffer it lies in reads alike there. -/
theorem State.readByte_congr {s t : State} {off : Nat} (hc : t.cfg = s.cfg) (hk : t.kbuf = s.kbuf)
    (hi : inIbuf s.cfg off → t.ibuf.read (off - 0x10000) = s.ibuf.read (off - 0x10000))
    (ho : inObuf s.cfg off → t.outputByte (off - 0x20000) = s.outputByte (off - 0x20000)) :
    t.readByte off = s.readByte off := by
  unfold State.readByte
  rw [hc, hk]
  split_ifs with h1 h2 h3
  · rfl
  · rw [hi h2]
  · rw [ho h3]
  · rfl

/-- `OBUF` reads alike when it and its length are the same. -/
theorem State.outputByte_congr {s t : State} (hb : t.obuf = s.obuf) (hl : t.olen = s.olen) (j : Nat) :
    t.outputByte j = s.outputByte j := by
  rw [State.outputByte, State.outputByte, hb, hl]

/-- The regions of `IBUF` and `OBUF` do not meet (`spec/20_memory.md` R71). -/
theorem not_inIbuf_of_inObuf {c : Config} (hc : c.Valid) {off : Nat} (h : inObuf c off) : ¬ inIbuf c off := by
  obtain ⟨-, hle⟩ := hc
  rintro ⟨-, hlt⟩
  omega

section memory

variable {s t : State} {i : Instr} (h : Completed s i t)
include h

theorem Completed.kbuf_frame (hz : i ≠ .zeroize) : t.kbuf = s.kbuf ∧ t.klen = s.klen := by
  cases h with
  | zeroize => exact absurd rfl hz
  | encrypt alg mode => cases mode <;> exact ⟨rfl, rfl⟩
  | _ => exact ⟨rfl, rfl⟩

theorem Completed.ibuf_frame (hz : i ≠ .zeroize) (hx : i ≠ .xfer) : t.ibuf = s.ibuf ∧ t.ilen = s.ilen := by
  cases h with
  | zeroize => exact absurd rfl hz
  | xfer => exact absurd rfl hx
  | encrypt alg mode => cases mode <;> exact ⟨rfl, rfl⟩
  | _ => exact ⟨rfl, rfl⟩

theorem Completed.obuf_frame (hp : producesOutput i = false) (hz : i ≠ .zeroize) :
    t.obuf = s.obuf ∧ t.olen = s.olen := by
  cases h with
  | zeroize => exact absurd rfl hz
  | nop | clrerr | xfer | ivclr | geniv | loadkey | ksched => exact ⟨rfl, rfl⟩
  | _ => cases hp

end memory

section frames

variable {s t : State} {i : Instr} (h : exec i s = .next t)
include h

theorem exec_keeps_cfg : t.cfg = s.cfg := by
  obtain ⟨u, hu, hhost⟩ := exec_next i s
  cases hu.symm.trans h
  exact hhost.1

/-- `KBUF` and `KLEN` change by `ZEROIZE` only (`spec/10_state.md` R35). -/
theorem exec_kbuf_frame (hz : i ≠ .zeroize) : t.kbuf = s.kbuf ∧ t.klen = s.klen := by
  rcases exec_eq_next h with ⟨e, rfl⟩ | hc
  · rw [State.latch_frame]; exact ⟨rfl, rfl⟩
  · exact hc.kbuf_frame hz

/-- `IBUF` and `ILEN` change by `ZEROIZE` and `XFER` only (R36). -/
theorem exec_ibuf_frame (hz : i ≠ .zeroize) (hx : i ≠ .xfer) : t.ibuf = s.ibuf ∧ t.ilen = s.ilen := by
  rcases exec_eq_next h with ⟨e, rfl⟩ | hc
  · rw [State.latch_frame]; exact ⟨rfl, rfl⟩
  · exact hc.ibuf_frame hz hx

/-- `OBUF` and `OLEN` change by the data commands, by `ZEROIZE`, and by an error that is taken (R37). -/
theorem exec_obuf_frame (hp : producesOutput i = false) (hz : i ≠ .zeroize) (he : t.err = none ∨ s.err ≠ none) :
    t.obuf = s.obuf ∧ t.olen = s.olen := by
  rcases exec_eq_next h with ⟨e, rfl⟩ | hc
  · rcases s.latch_cases e (encode i) with ⟨hn, hl⟩ | ⟨-, hl⟩ <;> rw [hl] at he ⊢
    · exact absurd hn (he.resolve_left nofun)
    · exact ⟨rfl, rfl⟩
  · exact hc.obuf_frame hp hz

end frames

/-- `XFER` changes no byte of the address space but `IBUF[0..OLEN-1]` (`spec/70_reset_and_hazards.md` R351). -/
theorem readByte_xfer {s t : State} (hs : Inv s) (h : exec .xfer s = .next t) {off : Nat}
    (ho : ¬ (0x10000 ≤ off ∧ off < 0x10000 + s.olen)) : t.readByte off = s.readByte off := by
  cases h
  refine State.readByte_congr rfl rfl (fun hi => ?_) fun _ => rfl
  rw [Memory.read_store hs.ibuf_wf, State.length_output, if_neg (by omega)]

/-- Settles O56: each byte lies in one buffer, whose frame says that it reads as before. -/
theorem commandsKeepOtherMemory : Obligations.CommandsKeepOtherMemory := by
  intro i s t hs h
  refine ⟨exec_kbuf_frame h, fun hz hx => ?_, fun hi off ho => ?_, fun hp hz he => ?_⟩
  · obtain ⟨hb, hl⟩ := exec_ibuf_frame h hz hx
    exact ⟨hl, fun off ho => State.readByte_congr (exec_keeps_cfg h) (exec_kbuf_frame h hz).1 (fun _ => by rw [hb])
      fun hin => absurd hin ho⟩
  · subst hi
    exact readByte_xfer hs h ho
  · obtain ⟨hb, hl⟩ := exec_obuf_frame h hp hz he
    exact ⟨hl, fun off hin => State.readByte_congr (exec_keeps_cfg h) (exec_kbuf_frame h hz).1
      (fun hi => absurd hi (not_inIbuf_of_inObuf hs.cfg_valid hin)) fun _ => State.outputByte_congr hb hl _⟩

end Sys2Proof.Machine
end


section
/-! PROOFS. The address map (`spec/20_memory.md` R71 to R80): what a register or a buffer byte answers to the host, what a
write of it does, and which accesses are refused. -/

namespace Sys2Proof.Machine

section registers

variable {s t : State} {off : Nat}

/-- The registers on the bus: each length fits the bits its register shows (`spec/10_state.md` R40 to R42). -/
theorem Inv.readRegister {v : Word} (hs : Inv s)
    (h : (off, v) ∈ [(0x00, 0), (0x04, s.statusWord), (0x08, BitVec.ofNat 32 s.ilen), (0x0C, BitVec.ofNat 32 s.olen),
      (0x10, BitVec.ofNat 32 s.klen), (0x14, s.iv.extractLsb' 32 32), (0x18, s.iv.extractLsb' 0 32), (0x1C, s.ecmd)]) :
    s.readRegister off = some v := by
  have hn : s.cfg.nbuf < 2 ^ 17 := hs.cfg_valid.2.trans_lt (by decide)
  have hi : (BitVec.ofNat 17 s.ilen).setWidth 32 = BitVec.ofNat 32 s.ilen :=
    BitVec.setWidth_ofNat_of_le_of_lt (by decide) (hs.ilen_le.trans_lt hn)
  have ho : (BitVec.ofNat 17 s.olen).setWidth 32 = BitVec.ofNat 32 s.olen :=
    BitVec.setWidth_ofNat_of_le_of_lt (by decide) (hs.olen_le.trans_lt hn)
  have hk : (BitVec.ofNat 7 s.klen).setWidth 32 = BitVec.ofNat 32 s.klen :=
    BitVec.setWidth_ofNat_of_le_of_lt (by decide) (hs.klen_le.trans_lt (by decide))
  simp only [List.mem_cons, List.not_mem_nil, or_false, Prod.mk.injEq] at h
  rcases h with ⟨rfl, rfl⟩ | ⟨rfl, rfl⟩ | ⟨rfl, rfl⟩ | ⟨rfl, rfl⟩ | ⟨rfl, rfl⟩ | ⟨rfl, rfl⟩ | ⟨rfl, rfl⟩ | ⟨rfl, rfl⟩ <;>
    simp only [State.readRegister, hi, ho, hk]

/-- A 32-bit write at the offset of a register other than `CMD`. -/
theorem perform_write32 (ho : off ≠ 0) {v : BitVec 64} (h : s.writeRegister off (v.setWidth 32) = some t) :
    perform (.write (s.cfg.base + off) .b32 v) s = .next { t with reply := .ack } := by
  simp only [perform, busOffset_base, busWrite, if_neg ho, h]

/-- The step whose action is such a write. -/
theorem step_write32 {v : BitVec 64} {rest : List HostAction} (hp : s.pending = .write (s.cfg.base + off) .b32 v :: rest)
    (ho : off ≠ 0) (h : State.writeRegister { s with pending := rest } off (v.setWidth 32) = some t) :
    step s = .next { t with reply := .ack } := (step_cons hp).trans (perform_write32 ho h)

end registers

/-- Settles O11: the step is the read of the register at its offset. -/
theorem registerReadsAnswerTheRegisters : Obligations.RegisterReadsAnswerTheRegisters := by
  intro s off v rest hs h hp
  exact (step_cons hp).trans (perform_memRead32 (s := { s with pending := rest }) rfl (hs.readRegister h))

/-- Settles O13: at offset 0 the step issues the word, at every other offset it is the write of that register. -/
theorem registerWritesSetTheRegisters : Obligations.RegisterWritesSetTheRegisters := by
  intro s off v rest hp
  refine ⟨?cmd, ?readOnly, ?ilen, ?klen, ?ivHigh, ?ivLow⟩
  case cmd => rintro rfl; exact step_command hp
  case readOnly => rintro (rfl | rfl | rfl) <;> exact step_write32 hp (by decide) rfl
  case ilen => rintro rfl hl; exact step_write32 hp (by decide) (if_pos hl)
  case klen => rintro rfl hl; exact step_write32 hp (by decide) (if_pos hl)
  case ivHigh => rintro rfl; exact step_write32 hp (by decide) rfl
  case ivLow => rintro rfl; exact step_write32 hp (by decide) rfl

section buffers

variable {s t : State} {off i : Nat}

/-- The step whose action is an 8-bit read of a buffer. -/
theorem step_read8 {v : Byte} {rest : List HostAction} (hp : s.pending = .read (s.cfg.base + off) .b8 :: rest)
    (h : State.readByte { s with pending := rest } off = some v) :
    step s = .next { s with pending := rest, reply := .byte v } :=
  (step_cons hp).trans (perform_memRead8 (s := { s with pending := rest }) rfl h)

/-- An 8-bit write at the offset of a byte of a buffer. -/
theorem perform_write8 {v : BitVec 64} (h : s.writeByte off (v.setWidth 8) = some t) :
    perform (.write (s.cfg.base + off) .b8 v) s = .next { t with reply := .ack } := by
  simp only [perform, busOffset_base, busWrite, h]

/-- The step whose action is such a write. -/
theorem step_write8 {v : BitVec 64} {rest : List HostAction} (hp : s.pending = .write (s.cfg.base + off) .b8 v :: rest)
    (h : State.writeByte { s with pending := rest } off (v.setWidth 8) = some t) :
    step s = .next { t with reply := .ack } := (step_cons hp).trans (perform_write8 h)

/-- The region of `KBUF` ends at 0x80 (R71). -/
theorem not_inKbuf (h : 0x80 ≤ off) : ¬ inKbuf off := fun hk => absurd hk.2 h.not_gt

variable (s) (b : Byte)

/-- A write of `KBUF[i]`. -/
theorem State.writeByte_kbuf (h : i < Config.kcap) :
    s.writeByte (0x40 + i) b = some { s with kbuf := s.kbuf.write i b } := by
  unfold State.writeByte
  rw [if_pos ⟨by omega, by omega⟩, Nat.add_sub_cancel_left]

/-- A write of `IBUF[i]`. -/
theorem State.writeByte_ibuf (h : i < s.cfg.nbuf) :
    s.writeByte (0x10000 + i) b = some { s with ibuf := s.ibuf.write i b } := by
  unfold State.writeByte
  rw [if_neg (not_inKbuf (by omega)), if_pos ⟨by omega, by omega⟩, Nat.add_sub_cancel_left]

/-- A write of `OBUF[i]` is ignored. -/
theorem State.writeByte_obuf (hc : s.cfg.Valid) (h : i < s.cfg.nbuf) : s.writeByte (0x20000 + i) b = some s := by
  have ho : inObuf s.cfg (0x20000 + i) := ⟨by omega, by omega⟩
  unfold State.writeByte
  rw [if_neg (not_inKbuf (by omega)), if_neg (not_inIbuf_of_inObuf hc ho), if_pos ho]

variable {s}

/-- Every byte of the address space after a write of `KBUF[i]`. -/
theorem State.readByte_write_kbuf (hw : s.kbuf.wf) (h : i < Config.kcap) (off : Nat) :
    State.readByte { s with kbuf := s.kbuf.write i b } off = if off = 0x40 + i then some b else s.readByte off := by
  split_ifs with ho
  · rw [ho, State.readByte_kbuf _ h, Memory.read_write hw, if_pos rfl]
  · unfold State.readByte
    split_ifs with hk
    · rw [Memory.read_write hw, if_neg (by have := hk.1; omega)]
    all_goals rfl

/-- Every byte of the address space after a write of `IBUF[i]`. -/
theorem State.readByte_write_ibuf (hw : s.ibuf.wf) (h : i < s.cfg.nbuf) (off : Nat) :
    State.readByte { s with ibuf := s.ibuf.write i b } off = if off = 0x10000 + i then some b else s.readByte off := by
  split_ifs with ho
  · rw [ho, State.readByte_ibuf { s with ibuf := s.ibuf.write i b } h, Memory.read_write hw, if_pos rfl]
  · refine State.readByte_congr rfl rfl (fun hi => ?_) fun _ => rfl
    rw [Memory.read_write hw, if_neg (by have := hi.1; omega)]

end buffers

/-- Settles O14: each buffer in its region. -/
theorem bufferReadsAnswerTheByte : Obligations.BufferReadsAnswerTheByte := by
  intro s i rest hc
  refine ⟨fun hi hp => ?_, fun hi hp => ?_, fun hi hp => ?_⟩
  · exact step_read8 hp (State.readByte_kbuf _ hi)
  · exact step_read8 hp (State.readByte_ibuf _ hi)
  · exact step_read8 hp (State.readByte_obuf _ hc.2 hi)

/-- Settles O15: the written buffer reads as before but at the index of the write; a write in `OBUF` is ignored. -/
theorem bufferWritesChangeOneByte : Obligations.BufferWritesChangeOneByte := by
  intro s i v rest hs
  refine ⟨fun hi hp => ?_, fun hi hp => ?_, fun hi hp => ?_⟩
  · exact ⟨_, step_write8 hp (State.writeByte_kbuf _ _ hi), rfl, State.readByte_write_kbuf _ hs.kbuf_wf hi⟩
  · exact ⟨_, step_write8 hp (State.writeByte_ibuf _ _ hi), rfl, State.readByte_write_ibuf _ hs.ibuf_wf hi⟩
  · exact step_write8 hp (State.writeByte_obuf _ _ hs.cfg_valid hi)

section refusal

variable (s : State) (off : Nat)

/-- The offsets of the eight registers, one by one (R71). -/
theorem registerOffset_iff : registerOffset off ↔
    off = 0x00 ∨ off = 0x04 ∨ off = 0x08 ∨ off = 0x0C ∨ off = 0x10 ∨ off = 0x14 ∨ off = 0x18 ∨ off = 0x1C := by
  omega

/-- A 32-bit read finds no register exactly where there is none (R71). -/
theorem State.readRegister_eq_none_iff : s.readRegister off = none ↔ ¬ registerOffset off := by
  unfold State.readRegister
  split
  case h_9 => exact iff_of_true rfl (by rw [registerOffset_iff]; tauto)
  all_goals simp

/-- Away from `CMD` a 32-bit write is refused where there is no register, and at a length above its capacity
(R76, `spec/10_state.md` R40, R42). -/
theorem State.writeRegister_eq_none_iff {off : Nat} (h0 : off ≠ 0) (v : Word) : s.writeRegister off v = none ↔
    ¬ registerOffset off ∨ (off = 0x08 ∧ s.cfg.nbuf < v.toNat) ∨ (off = 0x10 ∧ Config.kcap < v.toNat) := by
  unfold State.writeRegister
  split
  case h_8 => exact iff_of_true rfl (.inl (by rw [registerOffset_iff]; tauto))
  all_goals simp

/-- An 8-bit read finds no byte exactly outside the buffers (R77). -/
theorem State.readByte_eq_none_iff : s.readByte off = none ↔ ¬ bufferOffset s.cfg off := by
  unfold State.readByte bufferOffset
  split_ifs <;> simp [*]

/-- An 8-bit write is refused exactly outside the buffers (R78). -/
theorem State.writeByte_eq_none_iff (v : Byte) : s.writeByte off v = none ↔ ¬ bufferOffset s.cfg off := by
  unfold State.writeByte bufferOffset
  split_ifs <;> simp [*]

/-- A command answers nothing on the bus: the acknowledgement of its write stays. -/
theorem exec_keeps_reply {i : Instr} {s t : State} (h : exec i s = .next t) : t.reply = s.reply := by
  rcases exec_eq_next h with ⟨e, rfl⟩ | hc
  · rw [State.latch_frame]
  · exact hc.reply_frame

theorem issueCommand_keeps_reply {w : Word} {s t : State} (h : issueCommand w s = .next t) : t.reply = s.reply := by
  rcases issueCommand_cases w s with hx | ⟨d, -, hx⟩ | ⟨i, -, -, hx⟩
  · cases hx.symm.trans h; rfl
  · cases hx.symm.trans h; rw [State.latch_frame]
  · exact exec_keeps_reply (hx.symm.trans h)

/-- An operation refuses the access in the case `p` and in no other, where whatever it answers is not an error. -/
def RefusesExactly (p : Prop) (f : State → Outcome) : Prop :=
  (p → f s = .next s.refuseAccess) ∧ (¬ p → ∀ t, f s = .next t → t.reply ≠ .error)

variable {s off}

theorem RefusesExactly.always {p : Prop} {f : State → Outcome} (hp : p) (h : f s = .next s.refuseAccess) :
    RefusesExactly s p f := ⟨fun _ => h, fun hn => absurd hp hn⟩

theorem RefusesExactly.never {p : Prop} {f : State → Outcome} (hp : ¬ p) (h : ∀ t, f s = .next t → t.reply ≠ .error) :
    RefusesExactly s p f := ⟨fun hn => absurd hn hp, fun _ => h⟩

/-- An answer that is no error is no refusal. -/
theorem RefusesExactly.answered {p : Prop} {f : State → Outcome} {t : State} (hp : ¬ p) (h : f s = .next t)
    (ht : t.reply ≠ .error) : RefusesExactly s p f :=
  .never hp fun _ hu => by cases h.symm.trans hu; exact ht

section map

variable (c : Config) (off : Nat) (v : BitVec 64)

theorem refusedAction_read_b8 : refusedAction c (.read (c.base + off) .b8) ↔ ¬ bufferOffset c off := by
  simp [refusedAction]

theorem refusedAction_read_b32 : refusedAction c (.read (c.base + off) .b32) ↔ ¬ registerOffset off := by
  simp [refusedAction]

theorem refusedAction_write_b8 : refusedAction c (.write (c.base + off) .b8 v) ↔ ¬ bufferOffset c off := by
  simp [refusedAction]

theorem refusedAction_write_b32 : refusedAction c (.write (c.base + off) .b32 v) ↔
    ¬ registerOffset off ∨ (off = 0x08 ∧ c.nbuf < (v.setWidth 32).toNat) ∨
      (off = 0x10 ∧ Config.kcap < (v.setWidth 32).toNat) := by
  simp [refusedAction]

end map

/-- A read is refused at the offsets the map does not define for its width (R75). -/
theorem perform_read_refusesExactly (width : BusWidth) :
    RefusesExactly s (refusedAction s.cfg (.read (s.cfg.base + off) width))
      (perform (.read (s.cfg.base + off) width)) := by
  cases width with
  | b16 | b64 => exact .always (by simp [refusedAction]) (by simp only [perform, busOffset_base, busRead])
  | b8 =>
    rw [refusedAction_read_b8, ← State.readByte_eq_none_iff]
    cases h : s.readByte off with
    | none => exact .always rfl (by simp only [perform, busOffset_base, busRead, h])
    | some b => exact .answered nofun (perform_memRead8 rfl h) nofun
  | b32 =>
    rw [refusedAction_read_b32, ← State.readRegister_eq_none_iff s]
    cases h : s.readRegister off with
    | none => exact .always rfl (by simp only [perform, busOffset_base, busRead, h])
    | some v => exact .answered nofun (perform_memRead32 rfl h) nofun

/-- A write is refused at the offsets the map does not define for its width, and at a length above its capacity. -/
theorem perform_write_refusesExactly (width : BusWidth) (value : BitVec 64) :
    RefusesExactly s (refusedAction s.cfg (.write (s.cfg.base + off) width value))
      (perform (.write (s.cfg.base + off) width value)) := by
  cases width with
  | b16 | b64 => exact .always (by simp [refusedAction]) (by simp only [perform, busOffset_base, busWrite])
  | b8 =>
    rw [refusedAction_write_b8, ← State.writeByte_eq_none_iff s off (value.setWidth 8)]
    cases h : s.writeByte off (value.setWidth 8) with
    | none => exact .always rfl (by simp only [perform, busOffset_base, busWrite, h])
    | some t => exact .answered nofun (perform_write8 h) nofun
  | b32 =>
    rw [refusedAction_write_b32]
    by_cases h0 : off = 0
    · subst h0
      refine .never (by simp) fun t ht => ?_
      rw [issueCommand_keeps_reply ((perform_command value s).symm.trans ht)]
      nofun
    · rw [← State.writeRegister_eq_none_iff s h0]
      cases h : s.writeRegister off (value.setWidth 32) with
      | none => exact .always rfl (by simp only [perform, busOffset_base, busWrite, if_neg h0, h])
      | some t => exact .answered nofun (perform_write32 h0 h) nofun

/-- An address below `BASE` has no offset (log entry 4). -/
theorem busOffset_below {c : Config} {addr : Nat} (h : ¬ c.base ≤ addr) : busOffset c addr = none := if_neg h

/-- An action of the host is refused below `BASE`, and where the read or write at its offset is. -/
theorem perform_refusesExactly (a : HostAction) : RefusesExactly s (refusedAction s.cfg a) (perform a) := by
  cases a with
  | reset => exact .answered id rfl nofun
  | read addr width =>
    by_cases hb : s.cfg.base ≤ addr
    · obtain ⟨off, rfl⟩ := Nat.exists_eq_add_of_le hb
      exact perform_read_refusesExactly width
    · exact .always (fun h => hb h.1) (by simp only [perform, busOffset_below hb])
  | write addr width value =>
    by_cases hb : s.cfg.base ≤ addr
    · obtain ⟨off, rfl⟩ := Nat.exists_eq_add_of_le hb
      exact perform_write_refusesExactly width value
    · exact .always (.inl fun h => hb h.1) (by simp only [perform, busOffset_below hb])

end refusal

/-- Settles O16: the step performs the action, which is refused exactly in the cases of the map. -/
theorem refusedAccessesChangeNothing : Obligations.RefusedAccessesChangeNothing := by
  intro s a rest hp
  rw [step_cons hp]
  exact perform_refusesExactly (s := { s with pending := rest }) a

end Sys2Proof.Machine
end

section
/-! PROOFS. Command words (`spec/30_encoding.md` R101 to R111): a word is its fields side by side, each format of the
decoder asks of them what the encoder lays, so decoding and encoding undo each other; the legal words are the words of
the well-formed commands, and every other word raises IllegalCommand. -/

namespace Sys2Proof.Machine

/-- A bit of a word as arithmetic. -/
theorem getLsbD_eq_iff {n : Nat} {w : BitVec n} {j : Nat} {b : Bool} :
    w.getLsbD j = b ↔ w.toNat / 2 ^ j % 2 = b.toNat := by
  rw [BitVec.getLsbD, ← Nat.toNat_testBit]
  cases w.toNat.testBit j <;> cases b <;> decide

/-- A stretch of bits is zero when each of them is. -/
theorem extractLsb'_eq_zero_iff {n start len : Nat} {w : BitVec n} :
    w.extractLsb' start len = 0#len ↔ ∀ j : Fin len, w.getLsbD (start + j) = false := by
  simp +contextual [BitVec.eq_of_getLsbD_eq_iff, Fin.forall_iff]

/-- R113: the number of a command word. -/
theorem toNat_layFields (op : BitVec 8) (ks : BitVec 2) (alg mode enc : Bool) :
    (layFields op ks alg mode enc).toNat =
      op.toNat + 256 * ks.toNat + 1024 * alg.toNat + 2048 * mode.toNat + 4096 * enc.toNat := by
  simp only [layFields, toNat_append_add, BitVec.toNat_ofBool, BitVec.ofNat_eq_ofNat, BitVec.toNat_ofNat]
  omega

/-- R101: the six fields of a word, bits 31:13 among them, determine it. -/
theorem layFields_eq_iff {op : BitVec 8} {ks : BitVec 2} {alg mode enc : Bool} {w : Word} :
    layFields op ks alg mode enc = w ↔ w.extractLsb' 13 19 = 0 ∧ opField w = op ∧ ksField w = ks ∧
      w.getLsbD 10 = alg ∧ w.getLsbD 11 = mode ∧ w.getLsbD 12 = enc := by
  have hop := op.isLt
  have hks := ks.isLt
  have halg := alg.toNat_le
  have hmode := mode.toNat_le
  have henc := enc.toNat_le
  have hw := w.isLt
  simp only [← BitVec.toNat_inj, getLsbD_eq_iff, toNat_layFields, opField, ksField, BitVec.extractLsb'_toNat,
    Nat.shiftRight_eq_div_pow, BitVec.ofNat_eq_ofNat, BitVec.toNat_ofNat]
  omega

/-- The bits format A leaves unused above `ALG` (R102). -/
theorem bits12to11_eq_zero_iff {w : Word} : w.extractLsb' 11 2 = 0#2 ↔
    w.getLsbD 11 = false ∧ w.getLsbD 12 = false := by
  simp [extractLsb'_eq_zero_iff, Fin.forall_fin_succ]

/-- The bits format K leaves unused (R102). -/
theorem bits12to10_eq_zero_iff {w : Word} : w.extractLsb' 10 3 = 0#3 ↔
    w.getLsbD 10 = false ∧ w.getLsbD 11 = false ∧ w.getLsbD 12 = false := by
  simp [extractLsb'_eq_zero_iff, Fin.forall_fin_succ]

/-- The bits format N leaves unused, all selectors (R102). -/
theorem bits12to8_eq_zero_iff {w : Word} : w.extractLsb' 8 5 = 0#5 ↔
    ksField w = 0 ∧ w.getLsbD 10 = false ∧ w.getLsbD 11 = false ∧ w.getLsbD 12 = false := by
  simp [ksField, extractLsb'_eq_zero_iff, Fin.forall_fin_succ, and_assoc]

theorem eq_algField_iff {alg : Alg} {w : Word} : alg = algField w ↔ w.getLsbD 10 = alg.bit := by
  unfold algField
  cases alg <;> cases w.getLsbD 10 <;> decide

theorem eq_modeField_iff {mode : ChainMode} {w : Word} : mode = modeField w ↔ w.getLsbD 11 = mode.bit := by
  unfold modeField
  cases mode <;> cases w.getLsbD 11 <;> decide

theorem eq_encField_iff {enc : TextEnc} {w : Word} : enc = encField w ↔ w.getLsbD 12 = enc.bit := by
  unfold encField
  cases enc <;> cases w.getLsbD 12 <;> decide

/-- The row of a command's opcode accepts the word of that command, if it is well formed, and answers it for no other:
one case for each of the four formats. -/
theorem decode_eq_ok_iff_of_opField {w : Word} {i : Instr} (hz : w.extractLsb' 13 19 = 0) (hop : opField w = i.opcode) :
    decode w = .ok i ↔ i.wellFormed = true ∧ encode i = w := by
  rw [decode, if_neg (not_not.mpr hz), hop]
  cases i with
  | nop | clrerr | zeroize | xfer | ivclr | geniv | tdesenc | tdesdec | pad | unpad | hexenc | hexdec | b64enc | b64dec =>
    simp [Instr.opcode, Instr.wellFormed, encode, layFields_eq_iff, hz, hop, formatN_eq_ok, bits12to8_eq_zero_iff]
  | ksched ks | desenc ks | desdec ks =>
    by_cases hks : ks = ksField w
    · simp [Instr.opcode, Instr.wellFormed, encode, layFields_eq_iff, hz, hop, formatK_eq_ok, bits12to10_eq_zero_iff,
        slotField, hks, and_comm]
    · simp [Instr.opcode, encode, layFields_eq_iff, formatK_eq_ok, hks, Ne.symm hks]
  | loadkey alg | ecbenc alg | ecbdec alg | cbcenc alg | cbcdec alg | genkey alg =>
    simp [Instr.opcode, Instr.wellFormed, encode, layFields_eq_iff, hz, hop, formatA_eq_ok, bits12to11_eq_zero_iff,
      eq_algField_iff, and_comm, and_left_comm]
  | encrypt alg mode enc | decrypt alg mode enc =>
    simp [Instr.opcode, Instr.wellFormed, encode, layFields_eq_iff, hz, hop, formatS_eq_ok, eq_algField_iff,
      eq_modeField_iff, eq_encField_iff]

/-- Bits 31:13 of a word that decodes are zero (R107). -/
theorem reservedBits_of_decode {w : Word} {i : Instr} (h : decode w = .ok i) : w.extractLsb' 13 19 = 0 := by
  by_contra hz
  rw [decode, if_pos hz] at h
  cases h

/-- Bits 31:13 of a command's word are zero (R101). -/
theorem reservedBits_encode (i : Instr) : (encode i).extractLsb' 13 19 = 0 := by
  have hlay : ∃ ks alg mode enc, layFields i.opcode ks alg mode enc = encode i := by
    cases i <;> exact ⟨_, _, _, _, rfl⟩
  obtain ⟨ks, alg, mode, enc, h⟩ := hlay
  exact (layFields_eq_iff.mp h).1

/-- R111: a word decodes to a command exactly if it is the word of that command and the command is well formed. -/
theorem decode_eq_ok_iff {w : Word} {i : Instr} : decode w = .ok i ↔ i.wellFormed = true ∧ encode i = w := by
  constructor
  · intro h
    exact (decode_eq_ok_iff_of_opField (reservedBits_of_decode h) (opField_of_decode h)).mp h
  · rintro ⟨hi, rfl⟩
    exact (decode_eq_ok_iff_of_opField (reservedBits_encode i) (opField_encode i)).mpr ⟨hi, rfl⟩

/-- Settles O1: one direction of `decode_eq_ok_iff`. -/
theorem decodeOfEncodeIsTheCommand : Obligations.DecodeOfEncodeIsTheCommand :=
  fun _ hi => decode_eq_ok_iff.mpr ⟨hi, rfl⟩

/-- Settles O2: the other direction. -/
theorem decodedWordsAreTheirEncodings : Obligations.DecodedWordsAreTheirEncodings :=
  fun _ _ h => decode_eq_ok_iff.mp h

/-- The table lists every well-formed command with its word (R109). -/
theorem encode_mem_legalTable {i : Instr} (hi : i.wellFormed = true) : (encode i, i) ∈ legalTable := by
  cases i with
  | nop | clrerr | zeroize | xfer | ivclr | geniv | tdesenc | tdesdec | pad | unpad | hexenc | hexdec | b64enc | b64dec =>
    decide
  | ksched ks | desenc ks | desdec ks => revert ks; decide
  | loadkey alg | ecbenc alg | ecbdec alg | cbcenc alg | cbcdec alg | genkey alg => cases alg <;> decide
  | encrypt alg mode enc | decrypt alg mode enc => cases alg <;> cases mode <;> cases enc <;> decide

/-- The rows of the table are the well-formed commands with their words. -/
theorem mem_legalTable_iff {w : Word} {i : Instr} : (w, i) ∈ legalTable ↔ i.wellFormed = true ∧ encode i = w := by
  have rows : ∀ p ∈ legalTable, p.2.wellFormed = true ∧ encode p.2 = p.1 := by decide
  constructor
  · exact rows (w, i)
  · rintro ⟨hi, rfl⟩
    exact encode_mem_legalTable hi

/-- Settles O3: both the decoder and the table know a command by its word. -/
theorem legalWordsAreTheTable : Obligations.LegalWordsAreTheTable :=
  ⟨rfl, by decide, fun _ _ => decode_eq_ok_iff.trans mem_legalTable_iff.symm⟩

/-- Settles O4: each word is run through the decoder. -/
theorem sampleWordsDecode : Obligations.SampleWordsDecode :=
  ⟨rfl, rfl, rfl, rfl, rfl, rfl, rfl, rfl, rfl, rfl, rfl, rfl, rfl, rfl, rfl, rfl, rfl, rfl⟩

/-- A word that decodes has the form of a row of the opcode map (R102). -/
theorem matchesRow_of_decode {w : Word} {i : Instr} (h : decode w = .ok i) : matchesRow w := by
  have rows : ∀ p ∈ legalTable, matchesRow p.1 := by decide
  exact rows (w, i) (mem_legalTable_iff.mpr (decode_eq_ok_iff.mp h))

theorem decode_error_of_not_matchesRow {w : Word} (h : ¬ matchesRow w) : ∃ d, decode w = .error d := by
  cases hd : decode w with
  | error d => exact ⟨d, rfl⟩
  | ok i => exact absurd (matchesRow_of_decode hd) h

/-- With no error latched a word that is no command is recorded (`spec/60_exceptions.md` R305). -/
theorem issueCommand_illegal_of_unlatched {w : Word} {s : State} {d : DecodeError} (he : s.err = none)
    (hd : decode w = .error d) : issueCommand w s = .next (s.failed .illegalCommand w) := by
  rw [issueCommand_illegal (.inl he) hd, State.latch_of_none he]

/-- With an error latched a word that is no command changes nothing, whether or not the gate discards it
(`spec/60_exceptions.md` R305). -/
theorem issueCommand_illegal_of_latched {w : Word} {s : State} {d : DecodeError} (he : s.err ≠ none)
    (hd : decode w = .error d) : issueCommand w s = .next s := by
  rcases issueCommand_cases w s with h | ⟨-, -, h⟩ | ⟨i, hi, -⟩
  · exact h
  · rw [h, State.latch_of_some he]
  · cases hd.symm.trans hi

/-- A term with slot field 0 raises IllegalCommand (log entry 7). -/
theorem exec_illFormed {i : Instr} (hi : i.wellFormed = false) (s : State) :
    exec i s = .next (s.latch .illegalCommand (encode i)) := by
  cases i with
  | ksched ks | desenc ks | desdec ks =>
    obtain rfl : ks = 0 := by simpa [Instr.wellFormed, slotField] using hi
    rfl
  | _ => cases hi

/-- Settles O6: such a word does not decode, so the step latches IllegalCommand or leaves the first error. -/
theorem illegalWordsRaiseIllegalCommand : Obligations.IllegalWordsRaiseIllegalCommand := by
  refine ⟨fun s v rest hp hm => ?_, rfl, fun i hi s he => ?_⟩
  · obtain ⟨d, hd⟩ := decode_error_of_not_matchesRow hm
    rw [step_command hp]
    exact ⟨fun he => issueCommand_illegal_of_unlatched he hd, fun he => issueCommand_illegal_of_latched he hd⟩
  · rw [Raises, exec_illFormed hi, State.latch_of_none he]

end Sys2Proof.Machine
end

section
/-! PROOFS. The host's pseudo-instructions (`spec/30_encoding.md` R114): those that load operands, by the byte writes of
`KBUF` and `IBUF` and one write of the length, and those that read results. -/

namespace Sys2Proof.Machine

/-- `CMD` is the write of its word at offset 0. -/
theorem performAll_pseudoCmd (w : Word) (s : State) :
    performAll (pseudoCmd s.cfg w) s = issueCommand w { s with reply := .ack } := by
  rw [pseudoCmd, performAll_singleton, memWrite32, Nat.add_zero, perform_command,
    BitVec.setWidth_setWidth_of_le _ (by decide), BitVec.setWidth_eq]

/-- A write of `KLEN` with a length within capacity. -/
theorem State.writeRegister_klen (s : State) {n : Nat} (hn : n ≤ 64) :
    s.writeRegister 0x10 (BitVec.ofNat 32 n) = some { s with klen := n } := by
  have hv : (BitVec.ofNat 32 n).toNat = n := Nat.mod_eq_of_lt (by omega)
  simp only [State.writeRegister, hv]
  exact if_pos hn

/-- A write of `ILEN` with a length within capacity. -/
theorem State.writeRegister_ilen (s : State) (hc : s.cfg.Valid) {n : Nat} (hn : n ≤ s.cfg.nbuf) :
    s.writeRegister 0x08 (BitVec.ofNat 32 n) = some { s with ilen := n } := by
  have hv : (BitVec.ofNat 32 n).toNat = n := Nat.mod_eq_of_lt (by have := hc.2; omega)
  simp only [State.writeRegister, hv]
  exact if_pos hn

/-- `LDK` stores the text in `KBUF` and its length in `KLEN`. -/
theorem performAll_pseudoLdk {s : State} {text : List Byte} (hl : text.length ≤ 64) :
    performAll (pseudoLdk s.cfg text) s =
      .next { s with kbuf := s.kbuf.store 0 text, klen := text.length, reply := .ack } := by
  obtain ⟨r, hw⟩ := performAll_writeBytes_kbuf s.cfg text 0 s rfl (by omega)
  rw [pseudoLdk, performAll_append _ hw, performAll_singleton]
  have hlen := State.writeRegister_klen { s with kbuf := s.kbuf.store 0 text, reply := r } hl
  exact perform_memWrite32 rfl (by decide) hlen

/-- `LDI` stores the bytes in `IBUF` and their number in `ILEN`. -/
theorem performAll_pseudoLdi {s : State} {bytes : List Byte} (hc : s.cfg.Valid) (hl : bytes.length ≤ s.cfg.nbuf) :
    performAll (pseudoLdi s.cfg bytes) s =
      .next { s with ibuf := s.ibuf.store 0 bytes, ilen := bytes.length, reply := .ack } := by
  obtain ⟨r, hw⟩ := performAll_writeBytes_ibuf s.cfg bytes 0 s rfl (by omega)
  rw [pseudoLdi, performAll_append _ hw, performAll_singleton]
  have hlen := State.writeRegister_ilen { s with ibuf := s.ibuf.store 0 bytes, reply := r } hc hl
  exact perform_memWrite32 rfl (by decide) hlen

/-- The two halves of an IV side by side. -/
theorem extractLsb'_append_halves (v : Block) : v.extractLsb' 32 32 ++ v.extractLsb' 0 32 = v := by
  rw [BitVec.extractLsb'_append_extractLsb'_eq_extractLsb' (by decide), BitVec.extractLsb'_eq_self]

/-- `LDIV` writes both halves of the IV. -/
theorem performAll_pseudoLdiv (v : Block) (s : State) :
    performAll (pseudoLdiv s.cfg v) s = .next { s with iv := v, ivv := true, reply := .ack } := by
  rw [pseudoLdiv, performAll_next (perform_memWrite32 rfl (by decide) rfl), performAll_singleton]
  have hlow : State.writeRegister { s.writeIvHigh (v.extractLsb' 32 32) with reply := .ack } 0x18 (v.extractLsb' 0 32) =
      some { s with iv := v, ivv := true, reply := .ack } := by
    simp only [State.writeRegister, State.writeIvLow, State.writeIvHigh, BitVec.extractLsb'_append_eq_left,
      extractLsb'_append_halves]
  exact perform_memWrite32 rfl (by decide) hlow

/-- Bytes beyond a stored sequence keep their values. -/
theorem Memory.read_store_beyond {m : Memory} (h : m.wf) {bytes : List Byte} {j : Nat} (hj : bytes.length ≤ j) :
    (m.store 0 bytes).read j = m.read j := by
  rw [Memory.read_store h, if_neg (by omega)]

/-- Settles O19: the loads end in the states given above; what was stored is what is loaded. -/
theorem pseudoInstructionsLoadOperands : Obligations.PseudoInstructionsLoadOperands := by
  intro s hs
  refine ⟨fun text hl => ?ldk, fun bytes hl => ?ldi, fun v => performAll_pseudoLdiv v s,
    fun w => performAll_pseudoCmd w s, fun i => performAll_pseudoCmd (encode i) s⟩
  case ldk =>
    exact ⟨_, performAll_pseudoLdk hl, Memory.load_store hs.kbuf_wf text, rfl,
      fun _ hj => Memory.read_store_beyond hs.kbuf_wf hj, rfl⟩
  case ldi =>
    exact ⟨_, performAll_pseudoLdi hs.cfg_valid hl, Memory.load_store hs.ibuf_wf bytes, rfl,
      fun _ hj => Memory.read_store_beyond hs.ibuf_wf hj, rfl⟩

/-- `RDO` reads `OLEN`, then that many bytes of `OBUF`. -/
theorem runRdo_eq {s : State} (hs : Inv s) : ∃ r, runRdo s = some (s.output, { s with reply := r }) := by
  have hn : (BitVec.ofNat 32 s.olen).toNat = s.olen :=
    Nat.mod_eq_of_lt (by have := hs.cfg_valid.2; have := hs.olen_le; omega)
  obtain ⟨rs, r, hc, hb⟩ := collect_readBytes_obuf hs.cfg_valid hs.olen_le s.olen 0
    { s with reply := .word (BitVec.ofNat 32 s.olen) } rfl rfl rfl (by omega)
  refine ⟨r, ?_⟩
  rw [runRdo, pseudoRdoLength, oneWord_memRead32 rfl (hs.readRegister (v := BitVec.ofNat 32 s.olen) (by simp))]
  simp only [Option.bind_some, hn, pseudoRdoBytes]
  rw [hc]
  simp only [Option.bind_some, hb]
  rfl

/-- `RDIV` reads both halves of the IV. -/
theorem runRdiv_eq (s : State) : runRdiv s = some (s.iv, { s with reply := .word (s.iv.extractLsb' 0 32) }) := by
  have hc : collect (pseudoRdiv s.cfg) s =
      some ([.word (s.iv.extractLsb' 32 32), .word (s.iv.extractLsb' 0 32)],
        { s with reply := .word (s.iv.extractLsb' 0 32) }) := by
    rw [pseudoRdiv, collect_next (perform_memRead32 rfl rfl),
      collect_next (perform_memRead32 (c := s.cfg) (s := { s with reply := .word (s.iv.extractLsb' 32 32) }) rfl rfl)]
    rfl
  rw [runRdiv, hc]
  simp only [BusReply.word?, Option.bind_some, Option.map_some, extractLsb'_append_halves]

/-- Settles O60: each reads the registers named in its expansion. -/
theorem pseudoInstructionsReadResults : Obligations.PseudoInstructionsReadResults := by
  intro s hs
  exact ⟨runRdo_eq hs, runRdiv_eq s, oneWord_memRead32 rfl rfl, oneWord_memRead32 rfl rfl⟩

end Sys2Proof.Machine
end

section
/-! PROOFS. The tables of `spec/40_bit_tables.md`: the structural checks of R140, and that permutations whose tables invert
each other undo each other on every value (R132). -/

namespace Sys2Proof.Machine

/-- Two values are equal when they agree in every bit, counted from 1 at the left. -/
theorem eq_of_fipsBit_eq {n : Nat} {v w : BitVec n} (h : ∀ j, 1 ≤ j → j ≤ n → fipsBit v j = fipsBit w j) : v = w := by
  refine BitVec.eq_of_getLsbD_eq fun k hk => ?_
  have hbit := h (n - k) (by omega) (by omega)
  rwa [fipsBit, fipsBit, Nat.sub_sub_self hk.le] at hbit

/-- `fipsBit_permute` at a width known to be the table's length. -/
theorem fipsBit_permute_of_length {n m : Nat} {t : List Nat} (ht : t.length = m) (v : BitVec n) {j : Nat} (h1 : 1 ≤ j)
    (hj : j ≤ m) : fipsBit (permute m t v) j = fipsBit v (t.getD (j - 1) 0) := by
  subst ht
  exact fipsBit_permute t v h1 hj

/-- A permutation of 1..n has `n` entries. -/
theorem length_of_perm_range {n : Nat} {t : List Nat} (ht : t.Perm ((List.range n).map (· + 1))) : t.length = n := by
  simpa using ht.length_eq

/-- Every entry of a permutation of 1..n is one of the bit numbers 1..n. -/
theorem getD_bounds_of_perm_range {n : Nat} {t : List Nat} (ht : t.Perm ((List.range n).map (· + 1))) {k : Nat}
    (hk : k < n) : 1 ≤ t.getD k 0 ∧ t.getD k 0 ≤ n := by
  have hk' : k < t.length := by rwa [length_of_perm_range ht]
  have hmem : t[k] ∈ (List.range n).map (· + 1) := ht.subset (List.getElem_mem hk')
  obtain ⟨i, hi, heq⟩ := List.mem_map.mp hmem
  have hlt : i < n := List.mem_range.mp hi
  rw [List.getD_eq_getElem _ _ hk']
  omega

/-- Bit `j` of the result is bit `u[j]` of the value between, which is bit `t[u[j]] = j` of the first value. -/
theorem permute_permute_of_inverse {n : Nat} {t u : List Nat} (ht : t.Perm ((List.range n).map (· + 1)))
    (hu : u.Perm ((List.range n).map (· + 1))) (hinv : ∀ j : Fin n, t.getD (u.getD j 0 - 1) 0 = j + 1) (v : BitVec n) :
    permute n u (permute n t v) = v := by
  refine eq_of_fipsBit_eq fun j h1 hj => ?_
  obtain ⟨hlow, hhigh⟩ := getD_bounds_of_perm_range hu (k := j - 1) (by omega)
  calc fipsBit (permute n u (permute n t v)) j
      = fipsBit (permute n t v) (u.getD (j - 1) 0) := fipsBit_permute_of_length (length_of_perm_range hu) _ h1 hj
    _ = fipsBit v (t.getD (u.getD (j - 1) 0 - 1) 0) := fipsBit_permute_of_length (length_of_perm_range ht) v hlow hhigh
    _ = fipsBit v j := by rw [hinv ⟨j - 1, by omega⟩, Nat.sub_add_cancel h1]

/-- R140 (a): IP is a permutation of 1..64. -/
theorem ipTable_perm : ipTable.Perm ((List.range 64).map (· + 1)) := by decide

/-- R140 (a): FP is a permutation of 1..64. -/
theorem fpTable_perm : fpTable.Perm ((List.range 64).map (· + 1)) := by decide

/-- R140 (a): `FP[IP[j]] = j`. -/
theorem fpTable_ipTable (j : Fin 64) : fpTable.getD (ipTable.getD j 0 - 1) 0 = j + 1 := by
  revert j
  decide

/-- `IP[FP[j]] = j`, the identity of R140 (a) read the other way. -/
theorem ipTable_fpTable (j : Fin 64) : ipTable.getD (fpTable.getD j 0 - 1) 0 = j + 1 := by
  revert j
  decide

/-- FP undoes IP on every block (R132). -/
@[simp] theorem permute_fpTable_ipTable (b : Block) : permute 64 fpTable (permute 64 ipTable b) = b :=
  permute_permute_of_inverse ipTable_perm fpTable_perm ipTable_fpTable b

/-- IP undoes FP on every block (R132). -/
@[simp] theorem permute_ipTable_fpTable (b : Block) : permute 64 ipTable (permute 64 fpTable b) = b :=
  permute_permute_of_inverse fpTable_perm ipTable_perm fpTable_ipTable b

/-- R140 (b): P is a permutation of 1..32. -/
theorem pTable_perm : pTable.Perm ((List.range 32).map (· + 1)) := by decide

/-- R140 (d): every row of every S-box is a permutation of 0..15. -/
theorem sBoxes_row_perm : ∀ box ∈ sBoxes, box.length = 4 ∧ ∀ row ∈ box, row.Perm (List.range 16) := by decide

/-- R140 (e): PC-1 reads no parity bit. -/
theorem pc1Table_entry : ∀ x ∈ pc1Table, 1 ≤ x ∧ x ≤ 64 ∧ x % 8 ≠ 0 := by decide

/-- R140 (f): PC-2 leaves out exactly eight of the positions 1..56. -/
theorem not_mem_pc2Table_iff {x : Nat} (h1 : 1 ≤ x) (hx : x ≤ 56) :
    x ∉ pc2Table ↔ x ∈ [9, 18, 22, 25, 35, 38, 43, 54] := by
  have hall : ∀ y < 57, 1 ≤ y → (y ∉ pc2Table ↔ y ∈ [9, 18, 22, 25, 35, 38, 43, 54]) := by decide
  exact hall x (by omega) h1

/-- Settles O30: the checks in the order of R140, each decided on its table; by (a) FP and IP undo each other. -/
theorem tablesPassTheirChecks : Obligations.TablesPassTheirChecks :=
  ⟨⟨ipTable_perm, fpTable_perm, fpTable_ipTable⟩,
    pTable_perm,
    rfl,
    ⟨rfl, sBoxes_row_perm⟩,
    ⟨rfl, by decide, pc1Table_entry⟩,
    ⟨rfl, by decide, fun _ h1 hx => not_mem_pc2Table_iff h1 hx⟩,
    rfl, rfl,
    fun b => ⟨permute_fpTable_ipTable b, permute_ipTable_fpTable b⟩⟩

end Sys2Proof.Machine
end

section
/-! PROOFS. The commands of the key-schedule unit, `LOADKEY` and `KSCHED` (`spec/41_key_schedule.md` R161, R164, R166). -/

namespace Sys2Proof.Machine

/-- A key text of the right length in hex digits passes both checks of `parsekey` (R166). -/
theorem State.parseKey_ok {s : State} {alg : Alg} {kb : List Byte} (hl : s.klen = keyTextLength alg)
    (hd : hexDec s.keyText = some kb) : s.parseKey alg = .ok (splitKeys alg kb) := by
  simp [State.parseKey, hl, hd]

/-- R166: the length is checked first. -/
theorem State.parseKey_keyLength {s : State} {alg : Alg} (hl : s.klen ≠ keyTextLength alg) :
    s.parseKey alg = .error .keyLength := by
  simp [State.parseKey, hl]

/-- R166: the characters are checked when the length is right. -/
theorem State.parseKey_encoding {s : State} {alg : Alg} (hl : s.klen = keyTextLength alg)
    (hd : hexDec s.keyText = none) : s.parseKey alg = .error .encoding := by
  simp [State.parseKey, hl, hd]

theorem exec_loadkey_ok {s : State} {alg : Alg} {ks : Slots Block} (hk : s.parseKey alg = .ok ks) :
    exec (.loadkey alg) s = .next (s.loadKeys alg ks) := by
  simp [exec, execLoadkey, loadkeyEffect, hk, settle]

/-- `LOADKEY` raises what `parsekey` raises (R161). -/
theorem loadkey_raises {s : State} {alg : Alg} {e : ErrorKind} (he : s.err = none) (hk : s.parseKey alg = .error e) :
    Raises (.loadkey alg) s e :=
  settle_raises he (by rw [loadkeyEffect, hk])

/-- A DES key text holds the eight bytes of its key (R166). -/
theorem splitKeys_des {kb : List Byte} (hl : kb.length = 8) : splitKeys .des kb = ⟨be64 kb, 0, 0⟩ := by
  rw [splitKeys, List.take_of_length_le hl.le]

/-- A TDES key text holds three keys of eight bytes in order (R166). -/
theorem splitKeys_tdes {kb1 kb2 kb3 : List Byte} (h1 : kb1.length = 8) (h2 : kb2.length = 8) (h3 : kb3.length = 8) :
    splitKeys .tdes (kb1 ++ kb2 ++ kb3) = ⟨be64 kb1, be64 kb2, be64 kb3⟩ := by
  have h12 : (kb1 ++ kb2).length = 16 := by rw [List.length_append, h1, h2]
  rw [splitKeys, List.drop_left' h12, List.append_assoc, List.drop_left' h1, List.take_left' h1, List.take_left' h2,
    List.take_of_length_le h3.le]

/-- Settles O24: the key text parses to its key or keys, which `LOADKEY` loads, or `parsekey` raises one of its two
errors, the length first. -/
theorem loadkeyLoadsTheKeys : Obligations.LoadkeyLoadsTheKeys := by
  intro s
  refine ⟨fun kb hl hd => ?_, fun kb1 kb2 kb3 h1 h2 h3 hl hd => ?_,
    fun he hl => loadkey_raises he (State.parseKey_keyLength hl),
    fun he hl => loadkey_raises he (State.parseKey_keyLength hl),
    fun he hl hd => loadkey_raises he (State.parseKey_encoding hl hd),
    fun he hl hd => loadkey_raises he (State.parseKey_encoding hl hd)⟩
  · have h8 : kb.length = 8 := by
      have := hexDec_length hd
      rw [State.length_keyText] at this
      omega
    rw [exec_loadkey_ok (State.parseKey_ok hl hd), splitKeys_des h8]
    rfl
  · rw [exec_loadkey_ok (State.parseKey_ok hl hd), splitKeys_tdes h1 h2 h3]
    rfl

theorem exec_ksched_ok {s : State} {ks : BitVec 2} {k : Slot} (hk : slotOf ks = some k) (hv : s.kv.get k = true) :
    exec (.ksched ks) s = .next (s.deriveSchedule k) := by
  simp [exec, execKsched, kschedEffect, hk, hv, settle]

/-- Deriving a schedule again writes the same (R164). -/
theorem State.deriveSchedule_idem (s : State) (k : Slot) :
    (s.deriveSchedule k).deriveSchedule k = s.deriveSchedule k := by
  cases k <;> rfl

/-- Settles O25: the slot's schedule is derived, or its key is missing; the word without a slot does not decode. -/
theorem kschedDerivesTheSchedule : Obligations.KschedDerivesTheSchedule := by
  intro s ks k hmem
  have hk : slotOf ks = some k := slotOf_of_mem hmem
  refine ⟨fun hv => ?_, fun he hv => settle_raises he ?_, fun he => ?_⟩
  · refine ⟨s.deriveSchedule k, exec_ksched_ok hk hv, Slots.get_set_same .., Slots.get_set_same ..,
      fun j hj => ⟨Slots.get_set_other _ _ hj, Slots.get_set_other _ _ hj⟩, rfl, ?_⟩
    rw [exec_ksched_ok (s := s.deriveSchedule k) hk hv, State.deriveSchedule_idem]
  · simp [kschedEffect, hk, hv]
  · obtain ⟨d, hd⟩ : ∃ d, decode 0x00000011 = .error d := ⟨_, rfl⟩
    exact issueCommand_illegal_of_unlatched he hd

end Sys2Proof.Machine
end

section
/-! PROOFS. The key schedule in closed form: the rotations accumulate, so the halves of subkey `i` are the halves of the
PC-1 output rotated by the sum of the first `i` counts (`spec/41_key_schedule.md` R162, R163). -/

namespace Sys2Proof.Machine

/-- The round rotation counts are 1 or 2 (`spec/40_bit_tables.md` R139). -/
theorem shiftTable_entry : ∀ n ∈ shiftTable, n = 1 ∨ n = 2 := by decide

/-- `SHIFT[1] + ... + SHIFT[i]`: how far the halves are rotated after round `i`. -/
def shiftSum (i : Nat) : Nat := (shiftTable.take i).sum

/-- PC-2 of two halves rotated by `r` (R162). -/
def rotatedSubkey (c d : KeyHalf) (r : Nat) : Subkey := permute 48 pc2Table (c.rotateLeft r ++ d.rotateLeft r)

/-- The rotations of a list of rounds accumulate in each subkey. -/
theorem subkeysFrom_getElem {ns : List Nat} (hns : ∀ n ∈ ns, n = 1 ∨ n = 2) (c d : KeyHalf) {i : Nat}
    (hi : i < (subkeysFrom ns c d).length) :
    (subkeysFrom ns c d)[i] = rotatedSubkey c d (ns.take (i + 1)).sum := by
  induction ns generalizing c d i with
  | nil => cases hi
  | cons n ns ih =>
    obtain ⟨hn, hns⟩ := List.forall_mem_cons.mp hns
    cases i with
    | zero =>
      rw [List.take_succ_cons, List.take_zero, List.sum_singleton, rotatedSubkey, ← rol28_eq_rotateLeft c n hn,
        ← rol28_eq_rotateLeft d n hn]
      rfl
    | succ i =>
      rw [List.take_succ_cons, List.sum_cons, rotatedSubkey, ← rotateLeft_rotateLeft, ← rotateLeft_rotateLeft,
        ← rol28_eq_rotateLeft c n hn, ← rol28_eq_rotateLeft d n hn]
      exact ih hns (rol28 c n) (rol28 d n) (Nat.lt_of_succ_lt_succ hi)

/-- R162 in closed form. -/
theorem keySchedule_getElem (key : Block) {i : Nat} (hi : i < 16) :
    (keySchedule key)[i] = rotatedSubkey (keyHalfC key) (keyHalfD key) (shiftSum (i + 1)) :=
  subkeysFrom_getElem shiftTable_entry _ _ _

/-- Settles O26: `keySchedule_getElem` with the names of the halves unfolded. -/
theorem keyScheduleRotatesTheHalves : Obligations.KeyScheduleRotatesTheHalves :=
  fun key i => keySchedule_getElem key i.isLt

/-- Rotations one after another are one rotation by their sum. -/
theorem foldl_rol28 {ns : List Nat} (hns : ∀ n ∈ ns, n = 1 ∨ n = 2) (x : KeyHalf) :
    ns.foldl rol28 x = x.rotateLeft ns.sum := by
  induction ns generalizing x with
  | nil => exact (rotateLeft_zero28 x).symm
  | cons n ns ih =>
    obtain ⟨hn, hns⟩ := List.forall_mem_cons.mp hns
    rw [List.foldl_cons, ih hns, rol28_eq_rotateLeft _ _ hn, rotateLeft_rotateLeft, List.sum_cons]

/-- The schedule depends on the key only through what PC-1 reads of it (R163 (a)). -/
theorem keySchedule_congr {key key' : Block} (h : permute 56 pc1Table key = permute 56 pc1Table key') :
    keySchedule key = keySchedule key' := by
  have hc : keyHalfC key = keyHalfC key' := by rw [keyHalfC, h, keyHalfC]
  have hd : keyHalfD key = keyHalfD key' := by rw [keyHalfD, h, keyHalfD]
  refine Vector.ext fun i hi => ?_
  rw [keySchedule_getElem, keySchedule_getElem, hc, hd]

/-- Every bit but the parity bits is set in the mask of R163 (a). -/
theorem parityMask_getLsbD : ∀ j < 64, j % 8 ≠ 0 → (0xFEFEFEFEFEFEFEFE : Block).getLsbD j = true := by decide

/-- Changing parity bits leaves every bit PC-1 reads (R163 (a)). -/
theorem fipsBit_xor_parity (key : Block) {m : Block} (hm : m &&& 0xFEFEFEFEFEFEFEFE = 0) {x : Nat} (hx : x ∈ pc1Table) :
    fipsBit (key ^^^ m) x = fipsBit key x := by
  obtain ⟨h1, h64, h8⟩ := pc1Table_entry x hx
  have hbit : m.getLsbD (64 - x) = false :=
    calc m.getLsbD (64 - x)
        = (m &&& 0xFEFEFEFEFEFEFEFE).getLsbD (64 - x) := by
          rw [BitVec.getLsbD_and, parityMask_getLsbD (64 - x) (by omega) (by omega), Bool.and_true]
      _ = false := by rw [hm]; exact BitVec.getLsbD_zero
  rw [fipsBit, BitVec.getLsbD_xor, hbit, Bool.xor_false, fipsBit]

/-- A half of equal bits is its own rotation. -/
theorem rotateLeft_of_equal_bits {x : KeyHalf} {b : Bool} (hx : ∀ j < 28, x.getLsbD j = b) (r : Nat) :
    x.rotateLeft r = x := by
  refine BitVec.eq_of_getLsbD_eq fun j hj => ?_
  have hr : r % 28 < 28 := Nat.mod_lt _ (by decide)
  rw [BitVec.getLsbD_rotateLeft, hx j hj]
  by_cases hjr : j < r % 28
  · simp [hjr, hx (28 - r % 28 + j) (by omega)]
  · simp [hjr, hj, hx (j - r % 28) (by omega)]

/-- A key whose two halves are one half of equal bits has sixteen equal subkeys (R163 (d)). -/
theorem keySchedule_of_equal_bits {key : Block} {x : KeyHalf} {b : Bool} (hx : ∀ j < 28, x.getLsbD j = b)
    (hc : keyHalfC key = x) (hd : keyHalfD key = x) :
    keySchedule key = Vector.replicate 16 (permute 48 pc2Table (x ++ x)) := by
  refine Vector.ext fun i hi => ?_
  rw [keySchedule_getElem, hc, hd, rotatedSubkey, rotateLeft_of_equal_bits hx, Vector.getElem_replicate]

/-- The halves of the zero key are zero. -/
theorem keySchedule_zero : keySchedule 0 = Vector.replicate 16 0 :=
  (keySchedule_of_equal_bits (x := 0) (b := false) (by decide) (by decide) (by decide)).trans
    (congrArg (Vector.replicate 16) (by decide))

/-- The halves of the all-ones key are all ones. -/
theorem keySchedule_ones : keySchedule 0xFFFFFFFFFFFFFFFF = Vector.replicate 16 0xFFFFFFFFFFFF :=
  (keySchedule_of_equal_bits (x := 0xFFFFFFF) (b := true) (by decide) (by decide) (by decide)).trans
    (congrArg (Vector.replicate 16) (by decide))

/-- Settles O27: PC-1 reads no parity bit; the counts sum to a full turn; the halves of the extreme keys are equal bits. -/
theorem keyScheduleProperties : Obligations.KeyScheduleProperties := by
  refine ⟨fun key m hm => ?_, fun half => ?_, keySchedule_zero, keySchedule_ones⟩
  · exact keySchedule_congr (permute_congr _ _ _ _ fun _ hx => fipsBit_xor_parity key hm hx)
  · rw [foldl_rol28 shiftTable_entry]
    exact rotateLeft_28 half

end Sys2Proof.Machine
end

section
/-! PROOFS. The key-schedule FSM of `spec/41_key_schedule.md` R165: what its registers hold after each round, by
induction on the rounds, and its last step. -/

namespace Sys2Proof.Machine

/-- What the registers hold after `KS_LOAD` and `n` rounds of a run from `e` (R165). -/
structure KsEngine.AfterRounds (key : Block) (e : KsEngine) (n : Nat) (t : KsEngine) : Prop where
  phase : t.phase = if n = 16 then .done else .round
  c : t.c = (keyHalfC key).rotateLeft (shiftSum n)
  d : t.d = (keyHalfD key).rotateLeft (shiftSum n)
  i : t.i = if n = 16 then n else n + 1
  rk : ∀ (j : Nat) (hj : j < 16), j < n → t.rk[j] = (keySchedule key)[j]
  rkv : t.rkv = e.rkv

/-- The rotation count of the next round is 1 or 2, and the sum grows by it. -/
theorem shiftAt_succ : ∀ n < 16,
    (shiftAt (n + 1) = 1 ∨ shiftAt (n + 1) = 2) ∧ shiftSum (n + 1) = shiftSum n + shiftAt (n + 1) := by
  decide

/-- A round turns a half rotated by the sum so far into the half rotated by the next sum. -/
theorem rol28_rotateLeft_shiftSum (x : KeyHalf) {n : Nat} (hn : n < 16) :
    rol28 (x.rotateLeft (shiftSum n)) (shiftAt (n + 1)) = x.rotateLeft (shiftSum (n + 1)) := by
  obtain ⟨hs, hsum⟩ := shiftAt_succ n hn
  rw [rol28_eq_rotateLeft _ _ hs, rotateLeft_rotateLeft, hsum]

/-- One more round. -/
theorem KsEngine.AfterRounds.tick {key : Block} {e t : KsEngine} {n : Nat} (h : AfterRounds key e n t) (hn : n < 16) :
    AfterRounds key e (n + 1) (t.tick key) := by
  have hn' : n ≠ 16 := hn.ne
  rw [KsEngine.tick_round key t (n + 1) (by rw [h.phase, if_neg hn']) (by rw [h.i, if_neg hn']), h.c, h.d,
    rol28_rotateLeft_shiftSum _ hn, rol28_rotateLeft_shiftSum _ hn]
  refine ⟨rfl, rfl, rfl, rfl, fun j hj hjn => ?_, h.rkv⟩
  rw [Vector.getElem_setIfInBounds hj, Nat.add_sub_cancel]
  obtain rfl | hne := eq_or_ne n j
  · rw [if_pos rfl]
    exact (keySchedule_getElem key hj).symm
  · rw [if_neg hne]
    exact h.rk j hj (by omega)

/-- The registers after the load and `n` rounds. -/
theorem KsEngine.run_afterRounds (key : Block) (e : KsEngine) {n : Nat} (hn : n ≤ 16) :
    AfterRounds key e n (KsEngine.run key (n + 1) e.start) := by
  induction n with
  | zero => exact ⟨rfl, (rotateLeft_zero28 _).symm, (rotateLeft_zero28 _).symm, rfl, nofun, rfl⟩
  | succ n ih =>
    rw [KsEngine.run_succ]
    exact (ih (by omega)).tick hn

/-- The registers when all rounds are done: the whole schedule, the halves rotated once around, `RKV` as before. -/
theorem KsEngine.AfterRounds.eq_scheduled {key : Block} {e t : KsEngine} (h : AfterRounds key e 16 t) :
    t = { phase := .done, c := keyHalfC key, d := keyHalfD key, i := 16, rk := keySchedule key, rkv := e.rkv } := by
  obtain ⟨hp, hc, hd, hi, hrk, hv⟩ := h
  have hs : shiftSum 16 = 28 := rfl
  rw [hs, rotateLeft_28] at hc hd
  have hrk : t.rk = keySchedule key := Vector.ext fun j hj => hrk j hj hj
  cases t
  exact (KsEngine.mk.injEq ..).mpr ⟨hp, hc, hd, hi, hrk, hv⟩

/-- Settles O28: after load and rounds the registers are as `KsEngine.AfterRounds` says; the last step sets `RKV`. -/
theorem keyScheduleFsmComputesTheSchedule : Obligations.KeyScheduleFsmComputesTheSchedule := by
  intro e key _
  have h17 := (KsEngine.run_afterRounds key e le_rfl).eq_scheduled
  refine ⟨rfl, fun n h1 hn => ?_, by rw [h17], by rw [h17], ?_⟩
  · obtain ⟨m, rfl⟩ := Nat.exists_eq_add_of_le' h1
    obtain ⟨hp, -, -, hi, hrk, hv⟩ := KsEngine.run_afterRounds key e (n := m) (by omega)
    have hm : m ≠ 16 := by omega
    exact ⟨by rw [hp, if_neg hm], by rw [hi, if_neg hm], hv, fun j hj => hrk j j.isLt (by omega)⟩
  · rw [KsEngine.run_succ, h17]
    rfl

end Sys2Proof.Machine
end

section
/-! PROOFS. DES as a Feistel network: one round undoes another when the halves are swapped between them, so the rounds with
the subkeys in reverse order undo the network (`spec/42_des_block.md` R181, R191). -/

namespace Sys2Proof.Machine

/-- A round, the halves swapped, and the round again with the same subkey leave the halves swapped. -/
theorem roundStep_swap_roundStep (lr : Half × Half) (k : Subkey) : roundStep (roundStep lr k).swap k = lr.swap :=
  Prod.ext rfl (xor_cancel_right lr.1 (feistel lr.2 k))

/-- The rounds of a list of subkeys are undone by the rounds of the list in reverse order, up to the swap of the halves. -/
theorem foldl_roundStep_reverse (ks : List Subkey) (lr : Half × Half) :
    ks.reverse.foldl roundStep (ks.foldl roundStep lr).swap = lr.swap := by
  induction ks generalizing lr with
  | nil => rfl
  | cons k ks ih => rw [List.reverse_cons, List.foldl_concat, List.foldl_cons, ih, roundStep_swap_roundStep]

/-- IP of a final block gives its halves back, swapped. -/
theorem splitIp_joinFp (lr : Half × Half) : splitIp (joinFp lr) = lr.swap := by
  rw [splitIp, joinFp, permute_ipTable_fpTable, BitVec.extractLsb'_append_eq_left, BitVec.extractLsb'_append_eq_right]
  rfl

/-- FP of the halves of a block, swapped once more, gives the block back. -/
theorem joinFp_splitIp_swap (b : Block) : joinFp (splitIp b).swap = b := by
  rw [joinFp, splitIp, Prod.swap, extractLsb'_append_halves, permute_fpTable_ipTable]

/-- `des_core` with the subkeys in reverse order undoes `des_core`, whatever the subkeys (R191 (a)). -/
theorem desCore_desCore_reverse (b : Block) (ks : List Subkey) : desCore (desCore b ks) ks.reverse = b := by
  rw [desCore, desCore, splitIp_joinFp, foldl_roundStep_reverse, joinFp_splitIp_swap]

/-- Decryption undoes encryption (R191 (a)). -/
@[simp] theorem desDec_desEnc (b : Block) (rk : Schedule) : desDec (desEnc b rk) rk = b :=
  desCore_desCore_reverse b rk.toList

/-- Encryption undoes decryption (R191 (a)). -/
@[simp] theorem desEnc_desDec (b : Block) (rk : Schedule) : desEnc (desDec b rk) rk = b := by
  have h := desCore_desCore_reverse b rk.toList.reverse
  rwa [List.reverse_reverse] at h

/-- Equal subkeys read the same in both orders (R191 (b)). -/
theorem desDec_replicate (b : Block) (k : Subkey) :
    desDec b (Vector.replicate 16 k) = desEnc b (Vector.replicate 16 k) := by
  rw [desDec, desEnc, Vector.toList_replicate, List.reverse_replicate]

/-- Settles O32: the rounds undo each other; equal subkeys read the same in both orders; the key schedule reads no parity
bit. -/
theorem desDecryptionUndoesEncryption : Obligations.DesDecryptionUndoesEncryption := by
  obtain ⟨hparity, -⟩ := keyScheduleProperties
  refine ⟨fun b rk => ⟨desDec_desEnc b rk, desEnc_desDec b rk⟩, fun b k => ⟨(desDec_replicate b k).symm, ?_⟩,
    fun b key m hm => ?_⟩
  · rw [← desDec_replicate, desDec_desEnc]
  · rw [hparity key m hm]
    exact ⟨rfl, rfl⟩

end Sys2Proof.Machine
end

section
/-! PROOFS. The round engine of `spec/42_des_block.md` R184 to R188: what its registers hold after each round, by induction
on the rounds, and its last step. -/

namespace Sys2Proof.Machine

/-- Subkey `n + 1` in the order of the direction is the one whose number the engine computes (R184). -/
theorem passKeys_getElem? (rk : Schedule) (dir : Direction) {n : Nat} (hn : n < 16) :
    (passKeys rk dir)[n]? = some (rk.toList.getD (subkeyIndex dir (n + 1) - 1) 0) := by
  have hlen : rk.toList.length = 16 := Vector.length_toList
  have hget : ∀ m < 16, rk.toList[m]? = some (rk.toList.getD m 0) := fun m hm => by
    rw [List.getD_eq_getElem?_getD, List.getElem?_eq_getElem (hlen.symm ▸ hm), Option.getD_some]
  cases dir with
  | encrypt => exact hget n hn
  | decrypt =>
    have hm : subkeyIndex .decrypt (n + 1) - 1 = 16 - 1 - n := by rw [subkeyIndex]; omega
    rw [passKeys, List.getElem?_reverse (hlen.symm ▸ hn), hlen, hget _ (by omega), hm]

/-- What the registers hold after `RE_IP` and `n` rounds in direction `dir`: the halves are pair `n` of the round trace. -/
structure RoundEngine.AfterRounds (b : Block) (rk : Schedule) (dir : Direction) (n : Nat) (t : RoundEngine) : Prop where
  phase : t.phase = if n = 16 then .fp else .round
  i : t.i = if n = 16 then n else n + 1
  direction : t.dir = dir
  halves : (t.l, t.r) = ((passKeys rk dir).take n).foldl roundStep (splitIp b)

/-- One more round: its four stages are one round of the network (R185 to R187). -/
theorem RoundEngine.AfterRounds.tick {b : Block} {rk : Schedule} {dir : Direction} {t : RoundEngine} {n : Nat}
    (h : AfterRounds b rk dir n t) (hn : n < 16) : AfterRounds b rk dir (n + 1) (t.tick b rk) := by
  obtain ⟨hp, hi, hd, hlr⟩ := h
  rw [if_neg hn.ne] at hp hi
  rw [RoundEngine.tick_round b rk t (n + 1) hp hi, hd]
  refine ⟨rfl, rfl, rfl, ?_⟩
  rw [List.take_add_one, passKeys_getElem? rk dir hn, Option.toList_some, List.foldl_concat, ← hlr]
  rfl

/-- The registers after `RE_IP` and `n` rounds. -/
theorem RoundEngine.run_afterRounds (b : Block) (rk : Schedule) (e : RoundEngine) (dir : Direction) {n : Nat}
    (hn : n ≤ 16) : AfterRounds b rk dir n (RoundEngine.run b rk (n + 1) (e.start dir)) := by
  induction n with
  | zero => exact ⟨rfl, rfl, rfl, rfl⟩
  | succ n ih =>
    rw [RoundEngine.run_succ]
    exact (ih (by omega)).tick hn

/-- The round trace is the list of the halves after each number of rounds (R188). -/
theorem roundTrace_getElem? (b : Block) {ks : List Subkey} {n : Nat} (hn : n ≤ ks.length) :
    (roundTrace b ks)[n]? = some ((ks.take n).foldl roundStep (splitIp b)) := by
  rw [roundTrace, List.getElem?_scanl, if_pos hn]

/-- `RE_FP` after the sixteen rounds: the engine is idle and holds the final block (R181, R184). -/
theorem RoundEngine.AfterRounds.tick_fp {b : Block} {rk : Schedule} {dir : Direction} {t : RoundEngine}
    (h : AfterRounds b rk dir 16 t) :
    (t.tick b rk).phase = .idle ∧ (t.tick b rk).out = desCore b (passKeys rk dir) := by
  obtain ⟨hp, -, -, hlr⟩ := h
  rw [List.take_of_length_le (passKeys_length rk dir).le] at hlr
  rw [RoundEngine.tick_fp b rk t hp, desCore, ← hlr]
  exact ⟨rfl, rfl⟩

/-- A complete run. -/
theorem RoundEngine.run_complete (b : Block) (rk : Schedule) (e : RoundEngine) (dir : Direction) :
    (RoundEngine.run b rk 18 (e.start dir)).phase = .idle ∧
    (RoundEngine.run b rk 18 (e.start dir)).out = desCore b (passKeys rk dir) := by
  rw [RoundEngine.run_succ]
  exact (RoundEngine.run_afterRounds b rk e dir le_rfl).tick_fp

/-- Settles O31: after `RE_IP` and the rounds the registers are as `RoundEngine.AfterRounds` says; the last step joins the
halves. -/
theorem roundEngineRunsTheNetwork : Obligations.RoundEngineRunsTheNetwork := by
  intro e b rk dir _
  refine ⟨rfl, fun n hn => ?_, RoundEngine.run_complete b rk e dir⟩
  obtain ⟨hp, -, -, hlr⟩ := RoundEngine.run_afterRounds b rk e dir hn
  exact ⟨hp, by rw [roundTrace_getElem? b (by rwa [passKeys_length]), hlr]⟩

end Sys2Proof.Machine
end

section
/-! PROOFS. The commands of the unit DesBlockCipher, `DESENC` and `DESDEC` (`spec/42_des_block.md` R189, R190). -/

namespace Sys2Proof.Machine

section effect

variable {f : Block → Schedule → Block} {ks : BitVec 2} {k : Slot} {s : State} (hk : slotOf ks = some k)
include hk

/-- R189: both checks pass. -/
theorem desBlockEffect_ok (hv : s.rkv.get k = true) (hl : s.ilen = 8) :
    desBlockEffect f ks s = .ok (s.emit (bytes8 (f s.inputBlock (s.rk.get k)))) := by
  simp [desBlockEffect, hk, hv, hl]

/-- R189: the schedule is checked first. -/
theorem desBlockEffect_sequence (hv : s.rkv.get k = false) : desBlockEffect f ks s = .error .sequence := by
  simp [desBlockEffect, hk, hv]

/-- R189: the length is checked when the schedule is valid. -/
theorem desBlockEffect_format (hv : s.rkv.get k = true) (hl : s.ilen ≠ 8) :
    desBlockEffect f ks s = .error .format := by
  simp [desBlockEffect, hk, hv, hl]

end effect

/-- Settles O33: both commands settle `desBlockEffect`, with the subkeys in the one order or the other. -/
theorem desCommandsRunOneBlock : Obligations.DesCommandsRunOneBlock := by
  intro s ks k hmem
  have hk : slotOf ks = some k := slotOf_of_mem hmem
  refine ⟨fun hv hl => ⟨produces_emit ?_, produces_emit ?_⟩, fun he hv => ?_, fun he hv hl => ?_⟩
  · exact congrArg (settle (.desenc ks) s) (desBlockEffect_ok hk hv hl)
  · exact congrArg (settle (.desdec ks) s) (desBlockEffect_ok hk hv hl)
  · exact ⟨settle_raises he (desBlockEffect_sequence hk hv), settle_raises he (desBlockEffect_sequence hk hv)⟩
  · exact ⟨settle_raises he (desBlockEffect_format hk hv hl), settle_raises he (desBlockEffect_format hk hv hl)⟩

end Sys2Proof.Machine
end

section
/-! PROOFS. The commands of the unit TripleDesBlockCipher, `TDESENC` and `TDESDEC` (`spec/43_tdes_block.md`
R201, R202). -/

namespace Sys2Proof.Machine

/-- 3DES needs the schedules of all three slots (R201). -/
theorem State.schedulesValid_tdes (s : State) :
    s.schedulesValid .tdes = true ↔ s.rkv.k1 = true ∧ s.rkv.k2 = true ∧ s.rkv.k3 = true := by
  simp only [State.schedulesValid, Bool.and_eq_true, and_assoc]

/-- One schedule that is not valid is enough for 3DES to have none (R201). -/
theorem State.schedulesValid_tdes_eq_false {s : State}
    (h : s.rkv.k1 = false ∨ s.rkv.k2 = false ∨ s.rkv.k3 = false) : s.schedulesValid .tdes = false := by
  simpa only [State.schedulesValid, Bool.and_eq_false_iff, or_assoc] using h

section effect

variable {s : State} (f : Block → Slots Schedule → Block)

/-- R201: both checks pass. -/
theorem tdesBlockEffect_ok (hv : s.schedulesValid .tdes = true) (hl : s.ilen = 8) :
    tdesBlockEffect f s = .ok (s.emit (bytes8 (f s.inputBlock s.rk))) := by
  simp [tdesBlockEffect, hv, hl]

/-- R201: the schedules are checked first. -/
theorem tdesBlockEffect_sequence (hv : s.schedulesValid .tdes = false) : tdesBlockEffect f s = .error .sequence :=
  if_pos hv

/-- R201: the length is checked when the schedules are valid. -/
theorem tdesBlockEffect_format (hv : s.schedulesValid .tdes = true) (hl : s.ilen ≠ 8) :
    tdesBlockEffect f s = .error .format := by
  simp [tdesBlockEffect, hv, hl]

end effect

/-- Settles O34: both commands settle `tdesBlockEffect`, with EDE or its reverse as the cipher. -/
theorem tdesCommandsRunOneBlock : Obligations.TdesCommandsRunOneBlock := by
  refine fun s => ⟨fun h1 h2 h3 hl => ?ok, fun he h => ?sequence, fun he h1 h2 h3 hl => ?format⟩
  case ok =>
    have hv : s.schedulesValid .tdes = true := s.schedulesValid_tdes.mpr ⟨h1, h2, h3⟩
    exact ⟨produces_emit (congrArg (settle .tdesenc s) (tdesBlockEffect_ok tdesEnc hv hl)),
      produces_emit (congrArg (settle .tdesdec s) (tdesBlockEffect_ok tdesDec hv hl))⟩
  case sequence =>
    have hv : s.schedulesValid .tdes = false := State.schedulesValid_tdes_eq_false h
    exact ⟨settle_raises he (tdesBlockEffect_sequence tdesEnc hv),
      settle_raises he (tdesBlockEffect_sequence tdesDec hv)⟩
  case format =>
    have hv : s.schedulesValid .tdes = true := s.schedulesValid_tdes.mpr ⟨h1, h2, h3⟩
    exact ⟨settle_raises he (tdesBlockEffect_format tdesEnc hv hl),
      settle_raises he (tdesBlockEffect_format tdesDec hv hl)⟩

end Sys2Proof.Machine
end

section
/-! PROOFS. The pass sequencer of `spec/43_tdes_block.md` R203: a pass is a full DES operation in its direction, and its
trace is the seventeen pairs of a round trace. -/

namespace Sys2Proof.Machine

section pass

variable (rk : Slots Schedule) (e : RoundEngine) (b : Block) (k : Slot)

/-- A pass is a complete run of the round engine, which gives `des_core` with the subkeys of its direction (R184). -/
theorem RoundEngine.pass_eq_desCore (dir : Direction) :
    RoundEngine.pass rk e b (k, dir) = desCore b (passKeys (rk.get k) dir) :=
  (RoundEngine.run_complete b (rk.get k) e dir).right

/-- A pass with subkeys 1 to 16 is a DES encryption. -/
theorem RoundEngine.pass_encrypt : RoundEngine.pass rk e b (k, .encrypt) = desEnc b (rk.get k) :=
  RoundEngine.pass_eq_desCore rk e b k .encrypt

/-- A pass with subkeys 16 to 1 is a DES decryption. -/
theorem RoundEngine.pass_decrypt : RoundEngine.pass rk e b (k, .decrypt) = desDec b (rk.get k) :=
  RoundEngine.pass_eq_desCore rk e b k .decrypt

end pass

/-- The passes of `TDESENC` in the order of the pass table. -/
theorem RoundEngine.passes_encrypt (rk : Slots Schedule) (e : RoundEngine) (b : Block) :
    RoundEngine.passes rk e b (tdesPasses .encrypt) = tdesEnc b rk := by
  simp only [RoundEngine.passes, tdesPasses, List.foldl_cons, List.foldl_nil, RoundEngine.pass_encrypt,
    RoundEngine.pass_decrypt, Slots.get_k1, Slots.get_k2, Slots.get_k3, tdesEnc]

/-- The passes of `TDESDEC` in the order of the pass table. -/
theorem RoundEngine.passes_decrypt (rk : Slots Schedule) (e : RoundEngine) (b : Block) :
    RoundEngine.passes rk e b (tdesPasses .decrypt) = tdesDec b rk := by
  simp only [RoundEngine.passes, tdesPasses, List.foldl_cons, List.foldl_nil, RoundEngine.pass_encrypt,
    RoundEngine.pass_decrypt, Slots.get_k1, Slots.get_k2, Slots.get_k3, tdesDec]

/-- The round trace holds the halves before the first round and after each round (R188). -/
theorem roundTrace_length (b : Block) (ks : List Subkey) : (roundTrace b ks).length = ks.length + 1 := List.length_scanl

/-- Whatever the passes, the trace lists them in order, each with a round trace of 17 pairs. -/
theorem tdesTrace_labels_lengths (rk : Slots Schedule) (b : Block) (ps : List (Slot × Direction)) :
    (tdesTrace rk b ps).map (fun p => (p.1, p.2.length)) = ps.map fun p => (p, 17) := by
  induction ps generalizing b with
  | nil => rfl
  | cons p ps ih => rw [tdesTrace, List.map_cons, List.map_cons, ih, roundTrace_length, passKeys_length]

/-- Settles O35: the passes compose to EDE or its reverse, and the trace follows the passes. -/
theorem tdesPassesAreRoundEngineRuns : Obligations.TdesPassesAreRoundEngineRuns :=
  fun e rk b _ => ⟨RoundEngine.passes_encrypt rk e b, RoundEngine.passes_decrypt rk e b,
    fun dir => tdesTrace_labels_lengths rk b (tdesPasses dir)⟩

end Sys2Proof.Machine
end

section
/-! PROOFS. The properties of 3DES that `spec/43_tdes_block.md` R204 derives: each DES pass is undone by its inverse, and
with equal schedules the middle pass undoes a neighbour. -/

namespace Sys2Proof.Machine

/-- 3DES decryption undoes encryption, pass by pass (R204 (a)). -/
@[simp] theorem tdesDec_tdesEnc (b : Block) (rk : Slots Schedule) : tdesDec (tdesEnc b rk) rk = b := by
  rw [tdesDec, tdesEnc, desDec_desEnc, desEnc_desDec, desDec_desEnc]

/-- 3DES encryption undoes decryption, pass by pass. -/
@[simp] theorem tdesEnc_tdesDec (b : Block) (rk : Slots Schedule) : tdesEnc (tdesDec b rk) rk = b := by
  rw [tdesEnc, tdesDec, desEnc_desDec, desDec_desEnc, desEnc_desDec]

/-- The middle pass undoes the first (R204 (b)). -/
theorem tdesEnc_of_k1_eq_k2 (b : Block) {rk : Slots Schedule} (h : rk.k1 = rk.k2) : tdesEnc b rk = desEnc b rk.k3 := by
  rw [tdesEnc, h, desDec_desEnc]

/-- The last pass undoes the middle one (R204 (b)). -/
theorem tdesEnc_of_k2_eq_k3 (b : Block) {rk : Slots Schedule} (h : rk.k2 = rk.k3) : tdesEnc b rk = desEnc b rk.k1 := by
  rw [tdesEnc, h, desEnc_desDec]

/-- With three equal schedules 3DES is DES (R204 (b)). -/
theorem tdesEnc_same (b : Block) (rk : Schedule) : tdesEnc b (Slots.same rk) = desEnc b rk :=
  tdesEnc_of_k1_eq_k2 b rfl

/-- The DES vector that R204 gives for 3DES with three equal keys. -/
theorem desEnc_vector : desEnc 0x0123456789ABCDEF (keySchedule 0x133457799BBCDFF1) = 0x85E813540F0AB405 := by
  decide +kernel

/-- Settles O36: the passes undo each other in pairs; the vector is the DES vector. -/
theorem tripleDesProperties : Obligations.TripleDesProperties :=
  ⟨fun b rk => ⟨tdesDec_tdesEnc b rk, tdesEnc_tdesDec b rk⟩, fun b _ => tdesEnc_of_k1_eq_k2 b,
    fun b _ => tdesEnc_of_k2_eq_k3 b, (tdesEnc_same _ _).trans desEnc_vector⟩

end Sys2Proof.Machine
end

section
/-! PROOFS. The commands of the unit Padding, `PAD` and `UNPAD` (`spec/44_padding.md` R210 to R214): `unpad` accepts the
sequences that end in a pad and no others, and so undoes `pad`. -/

namespace Sys2Proof.Machine

section effect

variable {s : State}

/-- R211: the padded input fits. -/
theorem exec_pad_ok (hl : s.ilen + padLength s.ilen ≤ s.cfg.nbuf) : exec .pad s = .next (s.emit (pad s.input)) :=
  congrArg (settle .pad s) (if_neg (Nat.not_lt.mpr hl))

/-- R211: the padded input does not fit. -/
theorem pad_raises_capacity (he : s.err = none) (hl : s.cfg.nbuf < s.ilen + padLength s.ilen) :
    Raises .pad s .capacity :=
  settle_raises he (if_pos hl)

/-- R213: the input ends in a pad. -/
theorem exec_unpad_ok {r : List Byte} (hu : unpad s.input = some r) : exec .unpad s = .next (s.emit r) := by
  have h : unpadEffect s = .ok (s.emit r) := by rw [unpadEffect, hu]
  exact congrArg (settle .unpad s) h

/-- R213: the input does not end in a pad. -/
theorem unpad_raises_padding (he : s.err = none) (hu : unpad s.input = none) : Raises .unpad s .padding :=
  settle_raises he (by rw [unpadEffect, hu])

end effect

/-- `unpad` accepts every sequence with a well-formed tail: its last byte is the length of the pad, and only the pad is
examined (R214 (c)). -/
theorem unpad_append_replicate (m : List Byte) {n : Nat} (h1 : 1 ≤ n) (h8 : n ≤ 8) :
    unpad (m ++ List.replicate n (BitVec.ofNat 8 n)) = some m := by
  have hv : (BitVec.ofNat 8 n).toNat = n := Nat.mod_eq_of_lt (by omega)
  have hlast : (m ++ List.replicate n (BitVec.ofNat 8 n)).getLast? = some (BitVec.ofNat 8 n) := by
    rw [List.getLast?_append, List.getLast?_replicate, if_neg (by omega), Option.some_or]
  have hlen : (m ++ List.replicate n (BitVec.ofNat 8 n)).length = m.length + n := by
    rw [List.length_append, List.length_replicate]
  simp only [unpad, hlast, hv, hlen, Nat.add_sub_cancel, List.drop_left, List.take_left]
  rw [if_neg (by omega), if_neg (by omega), if_pos (by simp)]

/-- What `unpad` accepts is what ends in a pad (R212). -/
theorem unpad_eq_some_iff {m r : List Byte} :
    unpad m = some r ↔ ∃ n, 1 ≤ n ∧ n ≤ 8 ∧ m = r ++ List.replicate n (BitVec.ofNat 8 n) := by
  refine ⟨unpad_some, ?_⟩
  rintro ⟨n, h1, h8, rfl⟩
  exact unpad_append_replicate r h1 h8

/-- `unpad` undoes `pad` (R214 (a)). -/
@[simp] theorem unpad_pad (m : List Byte) : unpad (pad m) = some m :=
  unpad_append_replicate m (by unfold padLength; omega) (Nat.sub_le ..)

theorem runCommands_next {i : Instr} {s t : State} (h : exec i s = .next t) (rest : List Instr) :
    runCommands (i :: rest) s = runCommands rest t := by
  rw [runCommands, h]

/-- A command, `XFER`, and a command that turns the output of the first back into its input. -/
theorem runCommands_xfer_roundTrip {i j : Instr} {s : State} {out : List Byte} (hs : s.ibuf.wf)
    (hi : exec i s = .next (s.emit out)) (hj : ∀ t : State, t.input = out → exec j t = .next (t.emit s.input)) :
    ∃ t, runCommands [i, .xfer, j] s = .next t ∧ t.output = s.input ∧ t.olen = s.ilen := by
  obtain ⟨t, hx, hin, -⟩ := exec_xfer_emit s hs out
  refine ⟨t.emit s.input, ?_, State.output_emit t s.input, s.length_input⟩
  rw [runCommands_next hi, runCommands_next hx, runCommands_next (hj t hin), runCommands]

/-- Settles O37: the command settles `padEffect`, and the input is `ILEN` bytes long. -/
theorem padAppendsThePad : Obligations.PadAppendsThePad := by
  refine fun s => ⟨fun hl => ?_, fun he hl => pad_raises_capacity he hl⟩
  have h := produces_emit (exec_pad_ok hl)
  rwa [pad, State.length_input] at h

/-- Settles O38: the command settles `unpadEffect`, and `unpad` accepts exactly what ends in a pad. -/
theorem unpadRemovesThePad : Obligations.UnpadRemovesThePad := by
  refine fun s => ⟨fun m n h1 h8 hm => ?_, fun he hno => unpad_raises_padding he ?_⟩
  · exact produces_emit (exec_unpad_ok (unpad_eq_some_iff.mpr ⟨n, h1, h8, hm⟩))
  · exact Option.eq_none_iff_forall_ne_some.mpr fun r hr => hno ⟨r, unpad_eq_some_iff.mp hr⟩

/-- Settles O39: `unpad` undoes `pad`, on what `XFER` copies as on any sequence. -/
theorem unpadUndoesPad : Obligations.UnpadUndoesPad := by
  refine ⟨unpad_pad, fun s hs hl => ?_, fun m n h1 h8 => unpad_append_replicate m h1 h8⟩
  exact runCommands_xfer_roundTrip hs.ibuf_wf (exec_pad_ok hl)
    fun t ht => exec_unpad_ok (by rw [ht, unpad_pad])

end Sys2Proof.Machine
end

section
/-! PROOFS. The chaining functions block by block (`spec/45_chaining.md` R223 to R228): ECB maps the cipher over the
blocks, CBC zips the blocks with the blocks they are chained to. -/

namespace Sys2Proof.Machine

/-- Block `j` of a whole number of blocks is entry `j` of its blocks. -/
theorem blockAt_eq_getD_toBlocks {m : List Byte} (h8 : m.length % 8 = 0) {j : Nat} (hj : 8 * j < m.length) :
    blockAt m j = (toBlocks m).getD j 0 := by
  rw [← blockAt_ofBlocks _ _ (by rw [length_toBlocks h8]; omega), ofBlocks_toBlocks h8]

/-- In CBC encryption each block is xored with the ciphertext block before it, the first with the chaining value
(R225). -/
theorem cbcEnc_eq_zipWith (enc : Block → Block) (cv : Block) (bs : List Block) :
    cbcEnc enc cv bs = List.zipWith (fun b c => enc (b ^^^ c)) bs (cv :: cbcEnc enc cv bs) := by
  induction bs generalizing cv with
  | nil => rfl
  | cons b bs ih => rw [cbcEnc, List.zipWith_cons_cons, ← ih]

/-- In CBC decryption each decrypted block is xored with the ciphertext block before it, the first with the chaining
value (R227). -/
theorem cbcDec_eq_zipWith (dec : Block → Block) (cv : Block) (bs : List Block) :
    cbcDec dec cv bs = List.zipWith (fun b c => dec b ^^^ c) bs (cv :: bs) := by
  induction bs generalizing cv with
  | nil => rfl
  | cons b bs ih => rw [cbcDec, List.zipWith_cons_cons, ← ih]

/-- The block a block is chained to: the one before it, and the chaining value for the first. -/
theorem getD_cons_ofBlocks (cv : Block) {bs : List Block} {j : Nat} (hj : j ≤ bs.length) :
    (cv :: bs).getD j 0 = if j = 0 then cv else blockAt (ofBlocks bs) (j - 1) := by
  cases j with
  | zero => rfl
  | succ j => rw [if_neg j.succ_ne_zero, Nat.add_sub_cancel, blockAt_ofBlocks bs j hj, List.getD_cons_succ]

/-- Entry `j` of a zip that reaches it. -/
theorem getD_zipWith (g : Block → Block → Block) {bs cs : List Block} {j : Nat} (hb : j < bs.length)
    (hc : j < cs.length) : (List.zipWith g bs cs).getD j 0 = g (bs.getD j 0) (cs.getD j 0) := by
  simp [List.getD, hb, hc]

section blocks

variable {m : List Byte} (h8 : m.length % 8 = 0) {j : Nat} (hj : 8 * j < m.length)
include h8 hj

/-- ECB: each block by itself (R223, R224). -/
theorem blockAt_ofBlocks_map (f : Block → Block) : blockAt (ofBlocks ((toBlocks m).map f)) j = f (blockAt m j) := by
  have hj' : j < (toBlocks m).length := by rw [length_toBlocks h8]; omega
  rw [blockAt_eq_getD_toBlocks h8 hj, blockAt_ofBlocks _ _ (by rwa [List.length_map])]
  simp [List.getD, hj']

/-- CBC encryption of block `j` (R225). -/
theorem blockAt_ofBlocks_cbcEnc (enc : Block → Block) (iv : Block) :
    blockAt (ofBlocks (cbcEnc enc iv (toBlocks m))) j =
      enc (blockAt m j ^^^ if j = 0 then iv else blockAt (ofBlocks (cbcEnc enc iv (toBlocks m))) (j - 1)) := by
  have hb : j < (toBlocks m).length := by rw [length_toBlocks h8]; omega
  have hc : j < (cbcEnc enc iv (toBlocks m)).length := by rwa [cbcEnc_length]
  rw [← getD_cons_ofBlocks iv hc.le, blockAt_eq_getD_toBlocks h8 hj, blockAt_ofBlocks _ _ hc]
  conv_lhs => rw [cbcEnc_eq_zipWith]
  exact getD_zipWith _ hb (Nat.lt_succ_of_lt hc)

/-- CBC decryption of block `j` (R227). -/
theorem blockAt_ofBlocks_cbcDec (dec : Block → Block) (iv : Block) :
    blockAt (ofBlocks (cbcDec dec iv (toBlocks m))) j =
      dec (blockAt m j) ^^^ if j = 0 then iv else blockAt m (j - 1) := by
  have hb : j < (toBlocks m).length := by rw [length_toBlocks h8]; omega
  have hprev := getD_cons_ofBlocks iv hb.le
  rw [ofBlocks_toBlocks h8] at hprev
  rw [← hprev, blockAt_eq_getD_toBlocks h8 hj, blockAt_ofBlocks _ _ (by rwa [cbcDec_length]), cbcDec_eq_zipWith]
  exact getD_zipWith _ hb (Nat.lt_succ_of_lt hb)

end blocks

end Sys2Proof.Machine
end

section
/-! PROOFS. The commands of the unit ChainingMode, `ECBENC`, `ECBDEC`, `CBCENC` and `CBCDEC`
(`spec/45_chaining.md` R221 to R228). -/

namespace Sys2Proof.Machine

section effect

variable (f : Alg → ChainMode → List Byte → Slots Schedule → Block → List Byte) {alg : Alg} (mode : ChainMode)
  {s : State}

/-- Every check passes. -/
theorem chainEffect_ok (hs : Scheduled s alg) (h0 : 0 < s.ilen) (h8 : s.ilen % 8 = 0)
    (hi : mode = .cbc → s.ivv = true) : chainEffect f alg mode s = .ok (s.emit (f alg mode s.input s.rk s.iv)) := by
  have hv : s.schedulesValid alg = true := (scheduled_iff s alg).mp hs
  have hw : wholeBlocks s.ilen = true := (wholeBlocks_iff s.ilen).mpr ⟨h0, h8⟩
  rw [chainEffect, if_neg (by simp [hv]), if_neg (by simp [hw]), if_neg fun h => by simp [hi h.1] at h]

/-- The schedules are checked first (R221). -/
theorem chainEffect_sequence (hs : ¬ Scheduled s alg) : chainEffect f alg mode s = .error .sequence :=
  if_pos (Bool.eq_false_iff.mpr fun hv => hs ((scheduled_iff s alg).mpr hv))

/-- The length, and for CBC the IV, are checked when the schedules are valid (R222, R226). -/
theorem chainEffect_format (hs : Scheduled s alg)
    (h : ¬ (0 < s.ilen ∧ s.ilen % 8 = 0) ∨ (mode = .cbc ∧ s.ivv = false)) :
    chainEffect f alg mode s = .error .format := by
  have hv : s.schedulesValid alg = true := (scheduled_iff s alg).mp hs
  rw [← wholeBlocks_iff, Bool.not_eq_true] at h
  rw [chainEffect, if_neg (by simp [hv])]
  split
  · rfl
  next hw => exact if_pos (h.resolve_left hw)

end effect

section completes

variable {alg : Alg} {s : State} (hs : Scheduled s alg) (h0 : 0 < s.ilen) (h8 : s.ilen % 8 = 0)
include hs h0 h8

/-- R223: every check passes. -/
theorem exec_ecbenc_ok : exec (.ecbenc alg) s = .next (s.emit (chainEnc alg .ecb s.input s.rk s.iv)) :=
  congrArg (settle (.ecbenc alg) s) (chainEffect_ok chainEnc .ecb hs h0 h8 nofun)

/-- R224: every check passes. -/
theorem exec_ecbdec_ok : exec (.ecbdec alg) s = .next (s.emit (chainDec alg .ecb s.input s.rk s.iv)) :=
  congrArg (settle (.ecbdec alg) s) (chainEffect_ok chainDec .ecb hs h0 h8 nofun)

/-- R226: every check passes. -/
theorem exec_cbcenc_ok (hi : s.ivv = true) :
    exec (.cbcenc alg) s = .next (s.emit (chainEnc alg .cbc s.input s.rk s.iv)) :=
  congrArg (settle (.cbcenc alg) s) (chainEffect_ok chainEnc .cbc hs h0 h8 fun _ => hi)

/-- R228: every check passes. -/
theorem exec_cbcdec_ok (hi : s.ivv = true) :
    exec (.cbcdec alg) s = .next (s.emit (chainDec alg .cbc s.input s.rk s.iv)) :=
  congrArg (settle (.cbcdec alg) s) (chainEffect_ok chainDec .cbc hs h0 h8 fun _ => hi)

end completes

/-- A command that puts out as many bytes as it reads, each block `j` of them as `P` says. -/
theorem produces_blocks {i : Instr} {s : State} {out : List Byte} {P : List Byte → Nat → Prop}
    (hx : exec i s = .next (s.emit out)) (hl : out.length = s.input.length)
    (hP : ∀ j, 8 * j < s.input.length → P out j) :
    ∃ out, Produces i s out ∧ out.length = s.ilen ∧ ∀ j, 8 * j < s.ilen → P out j := by
  rw [State.length_input] at hl hP
  exact ⟨out, produces_emit hx, hl, hP⟩

/-- Settles O40: the commands settle `chainEffect`, and ECB maps the cipher over the blocks. -/
theorem ecbRunsEachBlockAlone : Obligations.EcbRunsEachBlockAlone := by
  refine fun s alg => ⟨fun hs h0 h8 => ?ok, fun he hs => ?sequence, fun he hs hw => ?format⟩
  case ok =>
    have h8' : s.input.length % 8 = 0 := by rwa [State.length_input]
    exact ⟨produces_blocks (exec_ecbenc_ok hs h0 h8) (chainEnc_length alg .ecb _ _ _ h8')
        fun j hj => blockAt_ofBlocks_map h8' hj (encBlock alg s.rk),
      produces_blocks (exec_ecbdec_ok hs h0 h8) (chainDec_length alg .ecb _ _ _ h8')
        fun j hj => blockAt_ofBlocks_map h8' hj (decBlock alg s.rk)⟩
  case sequence =>
    exact ⟨settle_raises he (chainEffect_sequence chainEnc .ecb hs),
      settle_raises he (chainEffect_sequence chainDec .ecb hs)⟩
  case format =>
    exact ⟨settle_raises he (chainEffect_format chainEnc .ecb hs (.inl hw)),
      settle_raises he (chainEffect_format chainDec .ecb hs (.inl hw))⟩

/-- Settles O41: the commands settle `chainEffect`, and CBC chains block by block from the IV. -/
theorem cbcChainsTheBlocks : Obligations.CbcChainsTheBlocks := by
  refine fun s alg => ⟨fun hs h0 h8 hi => ?ok, fun he hs => ?sequence, fun he hs hw => ?format⟩
  case ok =>
    have h8' : s.input.length % 8 = 0 := by rwa [State.length_input]
    exact ⟨produces_blocks (exec_cbcenc_ok hs h0 h8 hi) (chainEnc_length alg .cbc _ _ _ h8')
        fun j hj => blockAt_ofBlocks_cbcEnc h8' hj (encBlock alg s.rk) s.iv,
      produces_blocks (exec_cbcdec_ok hs h0 h8 hi) (chainDec_length alg .cbc _ _ _ h8')
        fun j hj => blockAt_ofBlocks_cbcDec h8' hj (decBlock alg s.rk) s.iv⟩
  case sequence =>
    exact ⟨settle_raises he (chainEffect_sequence chainEnc .cbc hs),
      settle_raises he (chainEffect_sequence chainDec .cbc hs)⟩
  case format =>
    have hw' := hw.imp_right fun hi : s.ivv = false => And.intro (Eq.refl ChainMode.cbc) hi
    exact ⟨settle_raises he (chainEffect_format chainEnc .cbc hs hw'),
      settle_raises he (chainEffect_format chainDec .cbc hs hw')⟩

end Sys2Proof.Machine
end

section
/-! PROOFS. The properties of the chaining modes that `spec/45_chaining.md` R228 and R230 derive: decryption undoes
encryption, what one block gives, and how far a wrong IV reaches. -/

namespace Sys2Proof.Machine

/-- The block operation of decryption undoes the one of encryption (R230). -/
@[simp] theorem decBlock_encBlock (alg : Alg) (rk : Slots Schedule) (b : Block) :
    decBlock alg rk (encBlock alg rk b) = b := by
  cases alg with
  | des => exact desDec_desEnc b rk.k1
  | tdes => exact tdesDec_tdesEnc b rk

/-- CBC decryption undoes CBC encryption: both chain each block to the same ciphertext block (R230). -/
theorem cbcDec_cbcEnc {enc dec : Block → Block} (h : ∀ b, dec (enc b) = b) (cv : Block) (bs : List Block) :
    cbcDec dec cv (cbcEnc enc cv bs) = bs := by
  induction bs generalizing cv with
  | nil => rfl
  | cons b bs ih => rw [cbcEnc, cbcDec, ih, h, BitVec.xor_assoc, BitVec.xor_self, BitVec.xor_zero]

/-- Chaining decryption undoes chaining encryption (R230). -/
theorem chainDec_chainEnc (alg : Alg) (mode : ChainMode) {m : List Byte} (h8 : m.length % 8 = 0) (rk : Slots Schedule)
    (iv : Block) : chainDec alg mode (chainEnc alg mode m rk iv) rk iv = m := by
  have hinv : ∀ b, decBlock alg rk (encBlock alg rk b) = b := decBlock_encBlock alg rk
  cases mode with
  | ecb =>
    simp only [chainEnc, chainDec, toBlocks_ofBlocks, List.map_map, Function.comp_def, hinv, List.map_id',
      ofBlocks_toBlocks h8]
  | cbc => rw [chainEnc, chainDec, toBlocks_ofBlocks, cbcDec_cbcEnc hinv, ofBlocks_toBlocks h8]

/-- Eight bytes are one block. -/
theorem toBlocks_of_length {m : List Byte} (h : m.length = 8) : toBlocks m = [be64 m] := by
  have hm := toBlocks_bytes8_append (be64 m) []
  rwa [bytes8_be64_of_length h, List.append_nil, toBlocks_nil] at hm

/-- One block in ECB is one block operation (R230). -/
theorem chainEnc_ecb_of_length {m : List Byte} (h : m.length = 8) (alg : Alg) (rk : Slots Schedule) (iv : Block) :
    chainEnc alg .ecb m rk iv = bytes8 (encBlock alg rk (be64 m)) := by
  rw [chainEnc, toBlocks_of_length h]; rfl

/-- One block in CBC with a zero IV is one block operation too (R230). -/
theorem chainEnc_cbc_of_length {m : List Byte} (h : m.length = 8) (alg : Alg) (rk : Slots Schedule) :
    chainEnc alg .cbc m rk 0 = bytes8 (encBlock alg rk (be64 m)) := by
  have hx : be64 m ^^^ 0 = be64 m := BitVec.xor_zero
  rw [chainEnc, toBlocks_of_length h, cbcEnc, hx]; rfl

/-- The IV of a CBC decryption reaches the first block only (R228). -/
theorem drop_ofBlocks_cbcDec (dec : Block → Block) (iv iv' : Block) (bs : List Block) :
    (ofBlocks (cbcDec dec iv' bs)).drop 8 = (ofBlocks (cbcDec dec iv bs)).drop 8 := by
  cases bs with
  | nil => rfl
  | cons b bs => simp only [cbcDec, ofBlocks_cons, List.drop_left' (length_bytes8 _)]

/-- DES needs the schedule of slot 1 only (R221). -/
theorem scheduled_des {s : State} (h : s.rkv.k1 = true) : Scheduled s .des := (scheduled_iff s .des).mpr h

/-- Settles O42: the block operations are inverse, and one block is one block operation. -/
theorem chainingProperties : Obligations.ChainingProperties := by
  refine ⟨fun alg mode m rk iv h8 => chainDec_chainEnc alg mode h8 rk iv, fun s hl hv => ?des, fun s hl hs => ?tdes,
    fun s alg hl hs hz hi => ?zeroIv, fun alg c rk iv iv' => drop_ofBlocks_cbcDec _ iv iv' (toBlocks c)⟩
  all_goals
    have h0 : 0 < s.ilen := by omega
    have h8 : s.ilen % 8 = 0 := by omega
    have hin : s.input.length = 8 := by rwa [State.length_input]
  case des =>
    have hd : exec (.desenc 1) s = .next (s.emit (bytes8 (desEnc s.inputBlock s.rk.k1))) :=
      congrArg (settle (.desenc 1) s) (desBlockEffect_ok (ks := 1) (k := .k1) rfl hv hl)
    rw [exec_ecbenc_ok (scheduled_des hv) h0 h8, chainEnc_ecb_of_length hin, hd]; rfl
  case tdes =>
    have ht : exec .tdesenc s = .next (s.emit (bytes8 (tdesEnc s.inputBlock s.rk))) :=
      congrArg (settle .tdesenc s) (tdesBlockEffect_ok tdesEnc ((scheduled_iff s .tdes).mp hs) hl)
    rw [exec_ecbenc_ok hs h0 h8, chainEnc_ecb_of_length hin, ht]; rfl
  case zeroIv =>
    rw [exec_cbcenc_ok hs h0 h8 hi, exec_ecbenc_ok hs h0 h8, hz, chainEnc_cbc_of_length hin, chainEnc_ecb_of_length hin]

end Sys2Proof.Machine
end

section
/-! PROOFS. The block sequencer of `spec/45_chaining.md` R229: each tick puts out the first block of what the chaining
function gives for the blocks that are left, by induction over the number of ticks. -/

namespace Sys2Proof.Machine

namespace Sequencer

/-- What the chaining function of the mode and direction gives for the blocks from the chaining value `cv` on
(R223 to R225, R227). -/
def chained (f : Block → Block) (mode : ChainMode) (dir : Direction) (cv : Block) (bs : List Block) : List Block :=
  match mode, dir with
  | .ecb, _ => bs.map f
  | .cbc, .encrypt => cbcEnc f cv bs
  | .cbc, .decrypt => cbcDec f cv bs

variable (f : Block → Block) (mode : ChainMode) (dir : Direction) {blocks : List Block} {q : Sequencer}

@[simp] theorem chained_nil (cv : Block) : chained f mode dir cv [] = [] := by
  cases mode <;> cases dir <;> rfl

/-- One block of a chaining operation. -/
theorem tick_of_some {b : Block} (h : blocks[q.j]? = some b) :
    ∃ y cv, q.tick f mode dir blocks = { j := q.j + 1, cv := cv, out := q.out ++ [y] } ∧
      ∀ bs, chained f mode dir q.cv (b :: bs) = y :: chained f mode dir cv bs := by
  unfold tick
  rw [h]
  match mode, dir with
  | .ecb, _ => exact ⟨f b, q.cv, rfl, fun _ => rfl⟩
  | .cbc, .encrypt => exact ⟨f (b ^^^ q.cv), f (b ^^^ q.cv), rfl, fun _ => rfl⟩
  | .cbc, .decrypt => exact ⟨f b ^^^ q.cv, b, rfl, fun _ => rfl⟩

/-- After the last block a tick does nothing. -/
theorem tick_of_none (h : blocks[q.j]? = none) : q.tick f mode dir blocks = q := by
  rw [tick, h]

/-- After the last block the sequencer does nothing more. -/
theorem run_of_none (h : blocks[q.j]? = none) (n : Nat) : run f mode dir blocks n q = q := by
  induction n with
  | zero => rfl
  | succ n ih => rw [run, tick_of_none f mode dir h, ih]

/-- After `n` ticks the output has grown by the first `n` blocks of what the chaining function gives for the blocks that
were left. -/
theorem run_out (n : Nat) (q : Sequencer) :
    (run f mode dir blocks n q).out = q.out ++ (chained f mode dir q.cv (blocks.drop q.j)).take n := by
  induction n generalizing q with
  | zero => rw [List.take_zero, List.append_nil, run]
  | succ n ih =>
    cases hb : blocks[q.j]? with
    | none =>
      rw [run_of_none f mode dir hb, List.drop_eq_nil_of_le (List.getElem?_eq_none_iff.mp hb), chained_nil,
        List.take_nil, List.append_nil]
    | some b =>
      obtain ⟨y, cv, ht, hc⟩ := tick_of_some f mode dir hb
      have hdrop : blocks.drop q.j = b :: blocks.drop (q.j + 1) := by
        rw [List.drop_eq_getElem?_toList_append, hb, Option.toList_some, List.singleton_append]
      rw [run, ht, ih, hdrop, hc, List.take_succ_cons]
      exact (List.append_cons ..).symm

/-- After `n` ticks the index has grown by `n`, up to the number of blocks. -/
theorem run_j (n : Nat) {q : Sequencer} (hq : q.j ≤ blocks.length) :
    (run f mode dir blocks n q).j = min (q.j + n) blocks.length := by
  induction n generalizing q with
  | zero => rw [run, Nat.add_zero, min_eq_left hq]
  | succ n ih =>
    cases hb : blocks[q.j]? with
    | none =>
      have hge := List.getElem?_eq_none_iff.mp hb
      rw [run_of_none f mode dir hb]; omega
    | some b =>
      obtain ⟨y, cv, ht, -⟩ := tick_of_some f mode dir hb
      obtain ⟨hlt, -⟩ := List.getElem?_eq_some_iff.mp hb
      rw [run, ht, ih (Nat.succ_le_of_lt hlt), Nat.add_assoc, Nat.add_comm 1]

end Sequencer

/-- Settles O43: from its start the sequencer has all blocks left and no output. -/
theorem sequencerChainsInOrder : Obligations.SequencerChainsInOrder :=
  fun f iv blocks n =>
    ⟨fun dir => Sequencer.run_out f .ecb dir n ⟨0, iv, []⟩, Sequencer.run_out f .cbc .encrypt n ⟨0, iv, []⟩,
      Sequencer.run_out f .cbc .decrypt n ⟨0, iv, []⟩,
      fun mode dir => by rw [Sequencer.run_j f mode dir n (Nat.zero_le _), Nat.zero_add]⟩

end Sys2Proof.Machine
end

section
/-! PROOFS. The commands of the unit Codec: how each settles its effect, and the hexadecimal ones, `HEXENC` and `HEXDEC`
(`spec/46_codec.md` R241 to R244). -/

namespace Sys2Proof.Machine

section effect

variable {enc : TextEnc} {s : State}

/-- R242, R247: the text fits. -/
theorem encodeEffect_ok (hl : textLength enc s.ilen ≤ s.cfg.nbuf) :
    encodeEffect enc s = .ok (s.emit (encodeText enc s.input)) :=
  if_neg (Nat.not_lt.mpr hl)

/-- R242, R247: the text does not fit. -/
theorem encodeEffect_capacity (hl : s.cfg.nbuf < textLength enc s.ilen) : encodeEffect enc s = .error .capacity :=
  if_pos hl

/-- R244, R249: the input is a text. -/
theorem decodeEffect_ok {m : List Byte} (hd : decodeText enc s.input = some m) : decodeEffect enc s = .ok (s.emit m) := by
  rw [decodeEffect, hd]

/-- R244, R249: the input is no text. -/
theorem decodeEffect_encoding (hd : decodeText enc s.input = none) : decodeEffect enc s = .error .encoding := by
  rw [decodeEffect, hd]

theorem exec_hexenc_ok (hl : 2 * s.ilen ≤ s.cfg.nbuf) : exec .hexenc s = .next (s.emit (hexEnc s.input)) :=
  congrArg (settle .hexenc s) (encodeEffect_ok (enc := .hex) hl)

theorem exec_hexdec_ok {m : List Byte} (hd : hexDec s.input = some m) : exec .hexdec s = .next (s.emit m) :=
  congrArg (settle .hexdec s) (decodeEffect_ok (enc := .hex) hd)

theorem exec_b64enc_ok (hl : 4 * ((s.ilen + 2) / 3) ≤ s.cfg.nbuf) : exec .b64enc s = .next (s.emit (b64Enc s.input)) :=
  congrArg (settle .b64enc s) (encodeEffect_ok (enc := .b64) hl)

theorem exec_b64dec_ok {m : List Byte} (hd : b64Dec s.input = some m) : exec .b64dec s = .next (s.emit m) :=
  congrArg (settle .b64dec s) (decodeEffect_ok (enc := .b64) hd)

end effect

/-- The first `n` bytes of the input, as the buffer holds them. -/
theorem State.mem_take_input {s : State} {n : Nat} (hn : n ≤ s.ilen) {c : Byte} :
    c ∈ s.input.take n ↔ ∃ j < n, s.ibuf.read j = c := by
  rw [List.mem_take_iff_getElem]
  have hlen : min n s.input.length = n := by rw [State.length_input]; omega
  constructor
  · rintro ⟨j, hj, rfl⟩
    refine ⟨j, by omega, ?_⟩
    rw [← State.input_getD s (by omega), List.getD_eq_getElem]
  · rintro ⟨j, hj, rfl⟩
    refine ⟨j, by omega, ?_⟩
    rw [← State.input_getD s (by omega), List.getD_eq_getElem]

theorem State.mem_input {s : State} {c : Byte} : c ∈ s.input ↔ ∃ j < s.ilen, s.ibuf.read j = c := by
  have h := State.mem_take_input (s := s) (c := c) le_rfl
  rwa [List.take_of_length_le (State.length_input s).le] at h

/-- The digits the encoder writes (R241). -/
theorem hexDigit_eq_getD {v : Nat} (h : v < 16) :
    hexDigit v = ("0123456789abcdef".toList.map fun c => BitVec.ofNat 8 c.toNat).getD v 0 := by
  have digits : ∀ v : Fin 16,
      hexDigit v = ("0123456789abcdef".toList.map fun c => BitVec.ofNat 8 c.toNat).getD v 0 := by decide
  exact digits ⟨v, h⟩

theorem hexEnc_cons (b : Byte) (m : List Byte) :
    hexEnc (b :: m) = hexDigit (b.toNat / 16) :: hexDigit (b.toNat % 16) :: hexEnc m := rfl

/-- The two digits of byte `j` (R241). -/
theorem hexEnc_getD {m : List Byte} {j : Nat} (hj : j < m.length) :
    (hexEnc m).getD (2 * j) 0 = hexDigit ((m.getD j 0).toNat / 16) ∧
      (hexEnc m).getD (2 * j + 1) 0 = hexDigit ((m.getD j 0).toNat % 16) := by
  induction m generalizing j with
  | nil => cases hj
  | cons b m ih =>
    rw [hexEnc_cons]
    cases j with
    | zero => exact ⟨rfl, rfl⟩
    | succ j => exact ih (Nat.lt_of_succ_lt_succ hj)

/-- What is no hexadecimal text: an odd length, or a character that is no digit (R243). -/
theorem hexDec_eq_none_iff : ∀ t : List Byte, hexDec t = none ↔ t.length % 2 = 1 ∨ ∃ c ∈ t, hexVal c = none
  | [] => by simp [hexDec]
  | [_] => by simp [hexDec]
  | a :: b :: rest => by
    have hlen : (a :: b :: rest).length % 2 = rest.length % 2 := Nat.add_mod_right rest.length 2
    rw [hexDec_cons, hlen]
    cases ha : hexVal a with
    | none => simp [ha]
    | some x =>
      cases hb : hexVal b with
      | none => simp [hb]
      | some y => simp [ha, hb, hexDec_eq_none_iff rest]

/-- The byte of two digits (R243). -/
theorem hexDec_getD : ∀ {t m : List Byte}, hexDec t = some m → ∀ {j : Nat}, 2 * j < t.length →
    ∃ x y, hexVal (t.getD (2 * j) 0) = some x ∧ hexVal (t.getD (2 * j + 1) 0) = some y ∧
      (m.getD j 0).toNat = 16 * x + y
  | [], _, _, _, hj => by cases hj
  | [_], _, h, _, _ => by cases h
  | a :: b :: rest, m, h, j, hj => by
    rw [hexDec_cons] at h
    simp only [Option.bind_eq_some_iff, Option.map_eq_some_iff] at h
    obtain ⟨x, hx, y, hy, m, hm, rfl⟩ := h
    cases j with
    | zero =>
      have hbyte : (BitVec.ofNat 8 (x * 16 + y)).toNat = 16 * x + y := by
        have := hexVal_lt a x hx
        have := hexVal_lt b y hy
        rw [BitVec.toNat_ofNat]
        omega
      exact ⟨x, y, hx, hy, hbyte⟩
    | succ j =>
      exact hexDec_getD hm (Nat.lt_of_add_lt_add_right (n := 2) hj)

/-- Decoding undoes encoding (R250). -/
@[simp] theorem hexDec_hexEnc (m : List Byte) : hexDec (hexEnc m) = some m := by
  induction m with
  | nil => rfl
  | cons b m ih =>
    have hb := b.isLt
    have hbyte : BitVec.ofNat 8 (b.toNat / 16 * 16 + b.toNat % 16) = b := by
      rw [Nat.div_add_mod', BitVec.ofNat_toNat, BitVec.setWidth_eq]
    rw [hexEnc_cons, hexDec_cons, hexVal_hexDigit _ (by omega), hexVal_hexDigit _ (by omega), ih]
    simp [hbyte]

/-- The digits of both cases, and no other character (R243). -/
theorem hexVal_eq_idxOf? : ∀ c : Byte, hexVal c =
    (("0123456789abcdef".toList.idxOf? (Char.ofNat c.toNat)).orElse fun _ =>
      "0123456789ABCDEF".toList.idxOf? (Char.ofNat c.toNat)) := by decide

/-- Settles O44: the command settles `encodeEffect`, and the text of a byte is two digits. -/
theorem hexencWritesDigits : Obligations.HexencWritesDigits := by
  refine fun s => ⟨fun hl => ?ok, fun he hl => settle_raises he (encodeEffect_capacity (enc := .hex) hl)⟩
  refine ⟨hexEnc s.input, produces_emit (exec_hexenc_ok hl), by rw [hexEnc_length, State.length_input], fun j hj => ?_⟩
  have hb := (s.ibuf.read j).isLt
  have hdigits := hexEnc_getD (m := s.input) (by rwa [State.length_input])
  rwa [State.input_getD s hj, hexDigit_eq_getD (by omega), hexDigit_eq_getD (by omega)] at hdigits

/-- Settles O45: the command settles `decodeEffect`, and `hexDec` accepts exactly an even number of digits. -/
theorem hexdecReadsDigits : Obligations.HexdecReadsDigits := by
  refine fun s => ⟨fun h2 hv => ?ok, fun he hbad => ?encoding, hexVal_eq_idxOf?⟩
  case ok =>
    cases hd : hexDec s.input with
    | none =>
      rw [hexDec_eq_none_iff, State.length_input] at hd
      rcases hd with hodd | ⟨c, hc, hnone⟩
      · omega
      · obtain ⟨j, hj, rfl⟩ := State.mem_input.mp hc
        exact absurd hnone (hv j hj)
    | some m =>
      have hlen : s.ilen = 2 * m.length := s.length_input ▸ hexDec_length hd
      refine ⟨m, produces_emit (exec_hexdec_ok hd), by omega, fun j hj => ?_⟩
      have hbyte := hexDec_getD hd (j := j) (by rwa [State.length_input])
      rwa [State.input_getD s hj, State.input_getD s (by omega)] at hbyte
  case encoding =>
    have hnone : hexDec s.input = none := by
      rw [hexDec_eq_none_iff, State.length_input]
      exact hbad.imp_right fun ⟨j, hj, hn⟩ => ⟨_, State.mem_input.mpr ⟨j, hj, rfl⟩, hn⟩
    exact settle_raises he (decodeEffect_encoding (enc := .hex) hnone)

end Sys2Proof.Machine
end

section
/-! PROOFS. The commands of the unit Codec for base64, `B64ENC` and `B64DEC` (`spec/46_codec.md` R245 to R249), and the
round trip of both codecs (R250). -/

namespace Sys2Proof.Machine

/-- The group of three bytes from `q` on, as the number of 24 bits the encoder cuts (R246). -/
def byteGroup (m : List Byte) (q : Nat) : Nat :=
  65536 * (m.getD (3 * q) 0).toNat + 256 * (m.getD (3 * q + 1) 0).toNat + (m.getD (3 * q + 2) 0).toNat

/-- The four characters of group `q`, the last one padded (R246). -/
theorem b64Enc_getD : ∀ {m : List Byte} {q : Nat}, 3 * q < m.length →
    (b64Enc m).getD (4 * q) 0 = b64Char (byteGroup m q / 262144) ∧
    (b64Enc m).getD (4 * q + 1) 0 = b64Char (byteGroup m q / 4096 % 64) ∧
    (b64Enc m).getD (4 * q + 2) 0 = (if 3 * q + 1 < m.length then b64Char (byteGroup m q / 64 % 64) else padChar) ∧
    (b64Enc m).getD (4 * q + 3) 0 = (if 3 * q + 2 < m.length then b64Char (byteGroup m q % 64) else padChar)
  | [], _, hq => by cases hq
  | [a], 0, _ => by
    have hv : byteGroup [a] 0 = 65536 * a.toNat := by simp [byteGroup]
    rw [hv]
    exact ⟨congrArg b64Char (by omega : a.toNat * 16 / 64 = _),
      congrArg b64Char (by omega : a.toNat * 16 % 64 = _), rfl, rfl⟩
  | [a, b], 0, _ => by
    have hv : byteGroup [a, b] 0 = (a.toNat * 256 + b.toNat) * 4 * 64 := by simp [byteGroup]; omega
    rw [hv]
    generalize hw : (a.toNat * 256 + b.toNat) * 4 = w
    have htext : b64Enc [a, b] = [b64Char (w / 4096), b64Char (w / 64 % 64), b64Char (w % 64), padChar] := by
      rw [← hw]; rfl
    rw [htext]
    exact ⟨congrArg b64Char (by omega : w / 4096 = _), congrArg b64Char (by omega : w / 64 % 64 = _),
      congrArg b64Char (by omega : w % 64 = _), rfl⟩
  | a :: b :: c :: rest, 0, _ => by
    have hv : byteGroup (a :: b :: c :: rest) 0 = (a.toNat * 256 + b.toNat) * 256 + c.toNat := by
      simp [byteGroup]; omega
    rw [hv]
    exact ⟨rfl, rfl, rfl, rfl⟩
  | a :: b :: c :: rest, q + 1, hq => by
    have hlen (n : Nat) : 3 * (q + 1) + n < (a :: b :: c :: rest).length ↔ 3 * q + n < rest.length := by
      simp only [List.length_cons]; omega
    simp only [hlen]
    exact b64Enc_getD (m := rest) (q := q) (Nat.lt_of_add_lt_add_right (n := 3) hq)

/-- The alphabet, in order (R245). -/
theorem map_b64Char_range : (List.range 64).map b64Char =
    "ABCDEFGHIJKLMNOPQRSTUVWXYZabcdefghijklmnopqrstuvwxyz0123456789+/".toList.map fun c => BitVec.ofNat 8 c.toNat := by
  decide

/-- Settles O46: the command settles `encodeEffect`. -/
theorem b64encWritesGroups : Obligations.B64encWritesGroups := by
  refine fun s => ⟨fun hl => ?ok, fun he hl => settle_raises he (encodeEffect_capacity (enc := .b64) hl),
    map_b64Char_range⟩
  have hlen := b64Enc_length s.input
  have hgroups (q : Nat) := b64Enc_getD (m := s.input) (q := q)
  rw [State.length_input] at hlen hgroups
  exact ⟨b64Enc s.input, produces_emit (exec_b64enc_ok hl), hlen, hgroups⟩

/-- The value of a character, 0 for one outside the alphabet, as for a pad (R248). -/
def sextet (c : Byte) : Nat := (b64Val c).getD 0

/-- A character has the value of its place in the alphabet (R245). -/
theorem b64Val_eq_some_iff (c : Byte) (v : Nat) : b64Val c = some v ↔ v < 64 ∧ b64Char v = c := by
  have values : ∀ c : Byte, ∀ v ∈ b64Val c, v < 64 ∧ b64Char v = c := by decide
  refine ⟨values c v, ?_⟩
  rintro ⟨hv, rfl⟩
  exact b64Val_b64Char v hv

theorem b64Val_eq_some_sextet {c : Byte} (h : b64Val c ≠ none) : b64Val c = some (sextet c) := by
  obtain ⟨v, hv⟩ := Option.ne_none_iff_exists'.mp h
  rw [sextet, hv, Option.getD_some]

theorem sextet_lt (c : Byte) : sextet c < 64 := by
  by_cases h : b64Val c = none
  · simp [sextet, h]
  · exact ((b64Val_eq_some_iff c _).mp (b64Val_eq_some_sextet h)).1

@[simp] theorem b64Val_padChar : b64Val padChar = none := by decide

theorem b64Char_ne_padChar {v : Nat} (h : v < 64) : b64Char v ≠ padChar := fun he => by
  have hv := b64Val_b64Char v h
  rw [he, b64Val_padChar] at hv
  cases hv

/-- A full group is accepted when all four characters are of the alphabet (R248). -/
theorem fullGroup_eq_some_iff {a b c d : Byte} {g : List Byte} : fullGroup a b c d = some g ↔
    (∀ x ∈ [a, b, c, d], b64Val x ≠ none) ∧ g = groupBytes (sextet a) (sextet b) (sextet c) (sextet d) := by
  constructor
  · intro h
    unfold fullGroup at h
    split at h
    next hw hx hy hz => simp [hw, hx, hy, hz, sextet, ← Option.some.inj h]
    next => cases h
  · rintro ⟨hall, rfl⟩
    obtain ⟨ha, hb, hc, hd⟩ : b64Val a ≠ none ∧ b64Val b ≠ none ∧ b64Val c ≠ none ∧ b64Val d ≠ none := by
      simpa using hall
    rw [fullGroup, b64Val_eq_some_sextet ha, b64Val_eq_some_sextet hb, b64Val_eq_some_sextet hc,
      b64Val_eq_some_sextet hd]

theorem padCount_group (a b c d : Byte) :
    padCount [a, b, c, d] = if d = padChar then if c = padChar then 2 else 1 else 0 := by
  simp [padCount]

/-- The last group is accepted when all characters before its pad are of the alphabet (R248). -/
theorem lastGroup_eq_some_iff {a b c d : Byte} {g : List Byte} : lastGroup a b c d = some g ↔
    (∀ x ∈ [a, b, c, d].take (4 - padCount [a, b, c, d]), b64Val x ≠ none) ∧
      g = (groupBytes (sextet a) (sextet b) (sextet c) (sextet d)).take (3 - padCount [a, b, c, d]) := by
  rw [padCount_group, lastGroup]
  split
  next hd =>
    subst hd
    split
    next hc =>
      subst hc
      cases ha : b64Val a <;> cases hb : b64Val b <;> simp [ha, hb, sextet, @eq_comm _ g]
    next hc =>
      cases ha : b64Val a <;> cases hb : b64Val b <;> cases hy : b64Val c <;>
        simp [ha, hb, hy, sextet, @eq_comm _ g]
  next hd => exact fullGroup_eq_some_iff

theorem padCount_le (t : List Byte) : padCount t ≤ 2 := by
  unfold padCount
  split
  · split <;> decide
  · decide

/-- The pad is counted in the last two characters. -/
theorem padCount_append (l : List Byte) {t : List Byte} (h : 2 ≤ t.length) : padCount (l ++ t) = padCount t := by
  have ht : t ≠ [] := List.ne_nil_of_length_pos (by omega)
  have hd : t.dropLast ≠ [] := List.ne_nil_of_length_pos (by rw [List.length_dropLast]; omega)
  rw [padCount, padCount, List.dropLast_append_of_ne_nil ht, List.getLast?_append_of_ne_nil _ ht,
    List.getLast?_append_of_ne_nil _ hd]

/-- The texts `b64dec` accepts: whole groups, of the alphabet but for the pad (R248). -/
def IsB64Text (t : List Byte) : Prop :=
  t.length % 4 = 0 ∧ ∀ x ∈ t.take (t.length - padCount t), b64Val x ≠ none

/-- The bytes of all whole groups, a pad read as zero bits. -/
def b64Bytes : List Byte → List Byte
  | a :: b :: c :: d :: rest => groupBytes (sextet a) (sextet b) (sextet c) (sextet d) ++ b64Bytes rest
  | _ => []

theorem length_b64Bytes : ∀ t : List Byte, (b64Bytes t).length = 3 * (t.length / 4)
  | [] | [_] | [_, _] | [_, _, _] => by simp [b64Bytes]
  | a :: b :: c :: d :: rest => by
    simp only [b64Bytes, groupBytes, List.length_append, List.length_cons, List.length_nil, length_b64Bytes rest]
    omega

/-- The four characters of group `q`, as the number of 24 bits the decoder cuts (R248). -/
def sextetGroup (t : List Byte) (q : Nat) : Nat :=
  262144 * sextet (t.getD (4 * q) 0) + 4096 * sextet (t.getD (4 * q + 1) 0) + 64 * sextet (t.getD (4 * q + 2) 0) +
    sextet (t.getD (4 * q + 3) 0)

/-- The three bytes of group `q` (R248). -/
theorem b64Bytes_getD : ∀ {t : List Byte} {q : Nat}, 4 * q + 3 < t.length →
    ((b64Bytes t).getD (3 * q) 0).toNat = sextetGroup t q / 65536 ∧
    ((b64Bytes t).getD (3 * q + 1) 0).toNat = sextetGroup t q / 256 % 256 ∧
    ((b64Bytes t).getD (3 * q + 2) 0).toNat = sextetGroup t q % 256
  | [], _, hq => by cases hq
  | [_], _, hq | [_, _], _, hq | [_, _, _], _, hq => by simp at hq
  | a :: b :: c :: d :: rest, 0, _ => by
    have ha := sextet_lt a
    have hb := sextet_lt b
    have hc := sextet_lt c
    have hd := sextet_lt d
    simp [b64Bytes, groupBytes, sextetGroup]
    omega
  | a :: b :: c :: d :: rest, q + 1, hq =>
    b64Bytes_getD (t := rest) (q := q) (Nat.lt_of_add_lt_add_right (n := 4) hq)

theorem padCount_more (a b c d : Byte) {t : List Byte} (h : 2 ≤ t.length) :
    padCount (a :: b :: c :: d :: t) = padCount t := padCount_append [a, b, c, d] h

/-- A text of more than one group (R248). -/
theorem isB64Text_more (a b c d : Byte) {rest : List Byte} (h : 2 ≤ rest.length) :
    IsB64Text (a :: b :: c :: d :: rest) ↔ (∀ x ∈ [a, b, c, d], b64Val x ≠ none) ∧ IsB64Text rest := by
  have hle := padCount_le rest
  have hn : (a :: b :: c :: d :: rest).length - padCount rest = rest.length - padCount rest + 4 := by
    simp only [List.length_cons]
    omega
  have hlen : (a :: b :: c :: d :: rest).length % 4 = rest.length % 4 := Nat.add_mod_right rest.length 4
  rw [IsB64Text, IsB64Text, padCount_more a b c d h, hn, hlen]
  simp only [List.take_succ_cons, List.forall_mem_cons]
  tauto

/-- The bytes of a text of more than one group, less the pad (R248). -/
theorem take_b64Bytes_more (a b c d : Byte) {t : List Byte} (h4 : t.length % 4 = 0) (h2 : 2 ≤ t.length) :
    (b64Bytes (a :: b :: c :: d :: t)).take (3 * ((a :: b :: c :: d :: t).length / 4) - padCount t) =
      groupBytes (sextet a) (sextet b) (sextet c) (sextet d) ++ (b64Bytes t).take (3 * (t.length / 4) - padCount t) := by
  have hle := padCount_le t
  have hn : 3 * ((a :: b :: c :: d :: t).length / 4) - padCount t = 3 * (t.length / 4) - padCount t + 3 := by
    simp only [List.length_cons]
    omega
  rw [hn]
  rfl

/-- `b64dec` accepts the well-formed texts and gives the bytes of their groups, less the pad (R248). -/
theorem b64Dec_eq_some_iff : ∀ {t m : List Byte}, b64Dec t = some m ↔
    IsB64Text t ∧ m = (b64Bytes t).take (3 * (t.length / 4) - padCount t)
  | [], m => by simp [b64Dec, IsB64Text, b64Bytes, eq_comm]
  | [_], m | [_, _], m | [_, _, _], m => by simp [b64Dec, IsB64Text]
  | [a, b, c, d], m => by
    rw [b64Dec_last, lastGroup_eq_some_iff]
    simp [IsB64Text, b64Bytes]
  | [_, _, _, _, _], m => by simp [b64Dec, IsB64Text]
  | a :: b :: c :: d :: e :: f :: rest, m => by
    have ih (r : List Byte) := b64Dec_eq_some_iff (t := e :: f :: rest) (m := r)
    have h2 : 2 ≤ (e :: f :: rest).length := by simp
    have hsplit : b64Dec (a :: b :: c :: d :: e :: f :: rest) = some m ↔
        ∃ g, fullGroup a b c d = some g ∧ ∃ r, b64Dec (e :: f :: rest) = some r ∧ m = g ++ r := by
      rw [b64Dec_more _ _ _ _ _ (List.cons_ne_nil e _)]
      cases fullGroup a b c d <;> cases b64Dec (e :: f :: rest) <;> simp [eq_comm]
    rw [hsplit, isB64Text_more a b c d h2, padCount_more a b c d h2]
    constructor
    · rintro ⟨g, hg, r, hr, rfl⟩
      obtain ⟨hall, rfl⟩ := fullGroup_eq_some_iff.mp hg
      obtain ⟨ht, rfl⟩ := (ih r).mp hr
      exact ⟨⟨hall, ht⟩, (take_b64Bytes_more a b c d ht.1 h2).symm⟩
    · rintro ⟨⟨hall, ht⟩, rfl⟩
      exact ⟨_, fullGroup_eq_some_iff.mpr ⟨hall, rfl⟩, _, (ih _).mpr ⟨ht, rfl⟩, take_b64Bytes_more a b c d ht.1 h2⟩

/-- What is no base64 text (R248). -/
theorem b64Dec_eq_none_iff {t : List Byte} : b64Dec t = none ↔
    t.length % 4 ≠ 0 ∨ ∃ x ∈ t.take (t.length - padCount t), b64Val x = none := by
  have hnot : b64Dec t = none ↔ ¬ IsB64Text t := by
    rw [Option.eq_none_iff_forall_ne_some]
    exact ⟨fun h ht => h _ (b64Dec_eq_some_iff.mpr ⟨ht, rfl⟩), fun h m hm => h (b64Dec_eq_some_iff.mp hm).1⟩
  rw [hnot, IsB64Text, not_and_or]
  simp only [not_forall, not_not, exists_prop, ne_eq]

theorem b64Dec_length {t m : List Byte} (h : b64Dec t = some m) : m.length = 3 * (t.length / 4) - padCount t := by
  obtain ⟨-, rfl⟩ := b64Dec_eq_some_iff.mp h
  rw [List.length_take, length_b64Bytes]
  omega

/-- The bytes of group `q`, as far as the pad leaves them (R248). -/
theorem b64Dec_getD {t m : List Byte} (h : b64Dec t = some m) {q : Nat} (hq : 4 * q < t.length) :
    (m.getD (3 * q) 0).toNat = sextetGroup t q / 65536 ∧
    (3 * q + 1 < m.length → (m.getD (3 * q + 1) 0).toNat = sextetGroup t q / 256 % 256) ∧
    (3 * q + 2 < m.length → (m.getD (3 * q + 2) 0).toNat = sextetGroup t q % 256) := by
  have hlen := b64Dec_length h
  obtain ⟨⟨h4, -⟩, hm⟩ := b64Dec_eq_some_iff.mp h
  have hp := padCount_le t
  have hread (i : Nat) (hi : i < m.length) : m.getD i 0 = (b64Bytes t).getD i 0 := by
    rw [hm, List.getD_eq_getElem?_getD, List.getElem?_take_of_lt (hlen ▸ hi), List.getD_eq_getElem?_getD]
  obtain ⟨h0, h1, h2⟩ := b64Bytes_getD (t := t) (q := q) (by omega)
  exact ⟨by rw [hread _ (by omega), h0], fun hi => by rw [hread _ hi, h1], fun hi => by rw [hread _ hi, h2]⟩

/-- Settles O47: the command settles `decodeEffect`, and `b64Dec` accepts exactly the well-formed texts. -/
theorem b64decReadsGroups : Obligations.B64decReadsGroups := by
  refine fun s => ⟨fun h4 hv => ?ok, fun he hbad => ?encoding, b64Val_eq_some_iff⟩
  case ok =>
    have htext : IsB64Text s.input := by
      refine ⟨by rwa [State.length_input], fun x hx => ?_⟩
      rw [State.length_input] at hx
      obtain ⟨j, hj, rfl⟩ := (State.mem_take_input (Nat.sub_le ..)).mp hx
      exact hv j hj
    obtain ⟨m, hd⟩ : ∃ m, b64Dec s.input = some m := ⟨_, b64Dec_eq_some_iff.mpr ⟨htext, rfl⟩⟩
    have hlen := b64Dec_length hd
    rw [State.length_input] at hlen
    refine ⟨m, produces_emit (exec_b64dec_ok hd), hlen, fun q hq => ?_⟩
    have hbytes := b64Dec_getD hd (q := q) (by rwa [State.length_input])
    rwa [sextetGroup, State.input_getD s hq, State.input_getD s (by omega), State.input_getD s (by omega),
      State.input_getD s (by omega)] at hbytes
  case encoding =>
    have hnone : b64Dec s.input = none := by
      rw [b64Dec_eq_none_iff, State.length_input]
      exact hbad.imp_right fun ⟨j, hj, hn⟩ => ⟨_, (State.mem_take_input (Nat.sub_le ..)).mpr ⟨j, hj, rfl⟩, hn⟩
    exact settle_raises he (decodeEffect_encoding (enc := .b64) hnone)

/-- A group of four characters that holds three bytes (R246, R248). -/
theorem groupBytes_eq {w x y z : Nat} {a b c : Byte}
    (h : ((w * 64 + x) * 64 + y) * 64 + z = (a.toNat * 256 + b.toNat) * 256 + c.toNat) :
    groupBytes w x y z = [a, b, c] := by
  simp only [groupBytes, h, List.cons.injEq, and_true]
  refine ⟨BitVec.eq_of_toNat_eq ?_, BitVec.eq_of_toNat_eq ?_, BitVec.eq_of_toNat_eq ?_⟩ <;>
    rw [BitVec.toNat_ofNat] <;> omega

/-- The bytes of four characters the encoder wrote (R246, R248). -/
theorem fullGroup_b64Char {w x y z : Nat} (hw : w < 64) (hx : x < 64) (hy : y < 64) (hz : z < 64) :
    fullGroup (b64Char w) (b64Char x) (b64Char y) (b64Char z) = some (groupBytes w x y z) := by
  rw [fullGroup, b64Val_b64Char w hw, b64Val_b64Char x hx, b64Val_b64Char y hy, b64Val_b64Char z hz]

/-- A group whose last character is of the alphabet, the last one or not (R248). -/
theorem b64Dec_fullGroup (a b c : Byte) {d : Byte} (hd : d ≠ padChar) (rest : List Byte) :
    b64Dec (a :: b :: c :: d :: rest) = (fullGroup a b c d).bind fun g => (b64Dec rest).map (g ++ ·) := by
  cases rest with
  | nil =>
    rw [b64Dec_last, lastGroup, if_neg hd]
    simp [b64Dec]
  | cons e rest =>
    rw [b64Dec_more _ _ _ _ _ (List.cons_ne_nil e rest)]
    cases fullGroup a b c d <;> cases b64Dec (e :: rest) <;> rfl

/-- Decoding undoes encoding (R250). -/
@[simp] theorem b64Dec_b64Enc : ∀ m : List Byte, b64Dec (b64Enc m) = some m
  | [] => rfl
  | [a] => by
    have ha := a.isLt
    have hg : groupBytes (a.toNat * 16 / 64) (a.toNat * 16 % 64) 0 0 = [a, 0, 0] :=
      groupBytes_eq (by simp; omega)
    simp only [b64Enc, b64Dec_last, lastGroup, if_true]
    rw [b64Val_b64Char _ (by omega), b64Val_b64Char _ (by omega)]
    simp [hg]
  | [a, b] => by
    have ha := a.isLt
    have hb := b.isLt
    simp only [b64Enc, b64Dec_last, lastGroup, if_true]
    generalize hv : (a.toNat * 256 + b.toNat) * 4 = v
    have hg : groupBytes (v / 4096) (v / 64 % 64) (v % 64) 0 = [a, b, 0] := groupBytes_eq (by simp; omega)
    rw [if_neg (b64Char_ne_padChar (by omega)), b64Val_b64Char _ (by omega), b64Val_b64Char _ (by omega),
      b64Val_b64Char _ (by omega)]
    simp [hg]
  | a :: b :: c :: rest => by
    have ha := a.isLt
    have hb := b.isLt
    have hc := c.isLt
    simp only [b64Enc]
    generalize hv : (a.toNat * 256 + b.toNat) * 256 + c.toNat = v
    have hg : groupBytes (v / 262144) (v / 4096 % 64) (v / 64 % 64) (v % 64) = [a, b, c] := groupBytes_eq (by omega)
    rw [b64Dec_fullGroup _ _ _ (b64Char_ne_padChar (by omega)), b64Dec_b64Enc rest,
      fullGroup_b64Char (by omega) (by omega) (by omega) (by omega), hg]
    rfl

/-- Settles O48: each decoder undoes its encoder, on what `XFER` copies as on any sequence. -/
theorem codecRoundTrip : Obligations.CodecRoundTrip := by
  refine ⟨fun m => ⟨hexDec_hexEnc m, b64Dec_b64Enc m⟩, fun s hs hl => ?hex, fun s hs hl => ?b64⟩
  case hex =>
    exact runCommands_xfer_roundTrip hs.ibuf_wf (exec_hexenc_ok hl)
      fun t ht => exec_hexdec_ok (by rw [ht, hexDec_hexEnc])
  case b64 =>
    exact runCommands_xfer_roundTrip hs.ibuf_wf (exec_b64enc_ok hl)
      fun t ht => exec_b64dec_ok (by rw [ht, b64Dec_b64Enc])

end Sys2Proof.Machine
end

section
/-! PROOFS. The system commands `NOP`, `CLRERR`, `ZEROIZE`, `XFER`, `IVCLR` and `GENIV` (`spec/48_system.md` R281 to R286),
and the reset event, which leaves what `ZEROIZE` leaves (`spec/70_reset_and_hazards.md` R340). -/

namespace Sys2Proof.Machine

/-- `NOP` written to `CMD`: executed or discarded, nothing changes (R281). -/
theorem issueCommand_nop (s : State) : issueCommand 0x00000000 s = .next s := by
  have hd : decode 0x00000000 = .ok .nop := rfl
  rcases issueCommand_cases 0x00000000 s with h | ⟨d, he, -⟩ | ⟨i, hi, -, h⟩
  · exact h
  · cases hd.symm.trans he
  · cases hd.symm.trans hi
    exact h

/-- Settles O20: the words of `CLRERR` and the word 0x00000101 pass the gate, and only the first decodes. -/
theorem nopAndClrerrTouchOnlyTheLatch : Obligations.NopAndClrerrTouchOnlyTheLatch := by
  intro s
  have hbad : decode 0x00000101 = .error .unusedField := rfl
  exact ⟨rfl, issueCommand_nop s, rfl, issueCommand_ok (i := .clrerr) (.inr rfl) rfl,
    fun he => issueCommand_illegal_of_unlatched he hbad, fun he => issueCommand_illegal_of_latched he hbad⟩

/-- What the host and the commands can see of a state in which every piece of R30 is zero or empty
(`spec/10_state.md` R48). -/
def State.IsCleared (t : State) : Prop :=
  (∀ k, t.key.get k = 0 ∧ t.kv.get k = false ∧ t.rkv.get k = false ∧ ∀ j : Fin 16, (t.rk.get k)[j] = 0) ∧
  t.iv = 0 ∧ t.ivv = false ∧ t.klen = 0 ∧ t.ilen = 0 ∧ t.olen = 0 ∧ t.err = none ∧ t.ecmd = 0 ∧ t.statusWord = 0 ∧
  ∀ off, bufferOffset t.cfg off → t.readByte off = some 0

/-- Empty buffers read as zero. -/
theorem State.readByte_of_empty {t : State} (hk : t.kbuf = []) (hi : t.ibuf = []) (ho : t.olen = 0) {off : Nat}
    (hoff : bufferOffset t.cfg off) : t.readByte off = some 0 := by
  simp only [State.readByte, State.outputByte, hk, hi, ho, Nat.not_lt_zero, if_false, Memory.read_nil]
  split_ifs with h1 h2 h3
  · rfl
  · rfl
  · rfl
  · exact absurd hoff (not_or.mpr ⟨h1, not_or.mpr ⟨h2, h3⟩⟩)

/-- `STATUS` after reset (R48). -/
theorem State.statusWord_reset : State.reset.statusWord = 0 := by decide

/-- Everything at its reset value, whatever the bus answers. -/
theorem State.isCleared_clearAll (s : State) (r : BusReply) : State.IsCleared { s.clearAll with reply := r } := by
  refine ⟨fun k => ?_, rfl, rfl, rfl, rfl, rfl, rfl, rfl, State.statusWord_reset,
    fun _ => State.readByte_of_empty rfl rfl rfl⟩
  have hzero (j : Fin 16) : (Vector.replicate 16 (0 : Subkey))[j] = 0 := Vector.getElem_replicate ..
  cases k <;> exact ⟨rfl, rfl, rfl, hzero⟩

/-- Settles O21: the word of `ZEROIZE` passes the gate, and the command clears everything. -/
theorem zeroizeGivesTheResetState : Obligations.ZeroizeGivesTheResetState :=
  fun s _ => ⟨s.clearAll, rfl, issueCommand_ok (i := .zeroize) (.inr rfl) rfl, rfl, s.isCleared_clearAll s.reply⟩

/-- Settles O17: the step performs the reset, which clears everything. -/
theorem resetClearsEverything : Obligations.ResetClearsEverything :=
  fun s rest _ hp => ⟨_, step_cons hp, rfl, State.isCleared_clearAll { s with pending := rest } .idle⟩

/-- Byte `j` of a loaded sequence, as the buffer reads it. -/
theorem Memory.getD_load (m : Memory) {n j : Nat} (h : j < n) : (m.load 0 n).getD j 0 = m.read j := by
  have hj : j < (m.load 0 n).length := by rwa [Memory.length_load]
  rw [List.getD_eq_getElem _ _ hj, Memory.getElem_load, Nat.zero_add]

/-- Storing a sequence twice at one place stores it once. -/
theorem Memory.store_store {m : Memory} (h : m.wf) (i : Nat) (bytes : List Byte) :
    (m.store i bytes).store i bytes = m.store i bytes := by
  have hs := Memory.wf_store h bytes i
  refine Memory.ext_of_wf (Memory.wf_store hs bytes i) hs fun j => ?_
  rw [Memory.read_store hs, Memory.read_store h]
  split_ifs <;> rfl

/-- Settles O22: the stored output reads as the output, and is stored over itself by a second `XFER`. -/
theorem xferCopiesTheOutput : Obligations.XferCopiesTheOutput := by
  intro s hs
  refine ⟨_, rfl, rfl, fun j => ?reads, rfl, ?input, ?twice⟩
  case reads =>
    show (s.ibuf.store 0 s.output).read j = _
    rw [Memory.read_store hs.ibuf_wf, State.length_output]
    by_cases hj : j < s.olen
    · rw [if_pos (by omega), if_pos hj]
      exact Memory.getD_load s.obuf hj
    · rw [if_neg (by omega), if_neg hj]
  case input =>
    show (s.ibuf.store 0 s.output).load 0 s.olen = s.output
    rw [← State.length_output, Memory.load_store hs.ibuf_wf]
  case twice =>
    show Host.Outcome.next { s with ibuf := (s.ibuf.store 0 s.output).store 0 s.output, ilen := s.olen } = _
    rw [Memory.store_store hs.ibuf_wf]

/-- `Rand(n)` from a fixed sequence that has `n` bytes left: its next bytes (`spec/00_scope.md` R17). -/
theorem State.randBytes_of_entropy {s : State} {draw rest : List Byte} (h : s.entropy = draw ++ rest) :
    s.randBytes draw.length = draw := by
  simp [State.randBytes, h, freeBytes]

/-- Those bytes are used up, and no free byte is drawn. -/
theorem State.consume_of_entropy {s : State} {draw rest : List Byte} (h : s.entropy = draw ++ rest) :
    s.consume draw.length = { s with entropy := rest } := by
  simp [State.consume, h]

/-- Settles O23: `GENIV` is `drawIv`, whose draw takes its bytes from the fixed sequence while that lasts. -/
theorem ivclrAndGenivWriteTheIv : Obligations.IvclrAndGenivWriteTheIv := by
  refine fun s => ⟨rfl, ⟨s.drawIv, rfl, rfl, rfl, State.length_randBytes s 8, rfl⟩, fun draw rest hl he => ?_⟩
  show Host.Outcome.next s.drawIv = _
  rw [State.drawIv, ← hl, State.randBytes_of_entropy he, State.consume_of_entropy he]

end Sys2Proof.Machine
end

section
/-! PROOFS. The error latch (`spec/60_exceptions.md` R305 to R313): what discards a word, what clears the latch, and that a
command completes or latches one of its errors and does nothing else. -/

namespace Sys2Proof.Machine

/-- The state with another error latched, or none, and all else the same. -/
def State.withLatch (s : State) (e : Option ErrorKind) (w : Word) : State := { s with err := e, ecmd := w }

/-- An operation answers a next state, and does the same whatever the latch holds. -/
def BlindToLatch (f : State → Outcome) (s : State) : Prop :=
  ∃ t, f s = .next t ∧ ∀ e w, f (s.withLatch e w) = .next (t.withLatch e w)

/-- An operation that does the same whatever the latch holds leaves the latch alone: it does so with the latch the state
has. -/
theorem BlindToLatch.keeps_latch {f : State → Outcome} {s t : State} (hb : BlindToLatch f s) (h : f s = .next t) :
    t.err = s.err ∧ t.ecmd = s.ecmd := by
  obtain ⟨u, hu, hblind⟩ := hb
  have hsame : f s = .next (u.withLatch s.err s.ecmd) := hblind s.err s.ecmd
  cases h.symm.trans hsame
  exact ⟨rfl, rfl⟩

section accesses

variable (s : State) (e : Option ErrorKind) (w : Word)

theorem State.withLatch_cfg : (s.withLatch e w).cfg = s.cfg := rfl

theorem State.readByte_withLatch (off : Nat) : (s.withLatch e w).readByte off = s.readByte off := rfl

/-- Only `STATUS` and `ECMD` show the latch. -/
theorem State.readRegister_withLatch {off : Nat} (hstatus : off ≠ 0x04) (hecmd : off ≠ 0x1C) :
    (s.withLatch e w).readRegister off = s.readRegister off := by
  unfold State.readRegister
  split
  case h_2 => exact absurd rfl hstatus
  case h_8 => exact absurd rfl hecmd
  all_goals rfl

/-- A register write does to the state with another latch what it does to the state. -/
theorem State.writeRegister_withLatch (off : Nat) (v : Word) :
    (s.withLatch e w).writeRegister off v = (s.writeRegister off v).map (·.withLatch e w) := by
  unfold State.writeRegister
  split
  case h_2 | h_4 => simp only [apply_ite (Option.map _)]; rfl
  all_goals rfl

/-- A buffer write does to the state with another latch what it does to the state. -/
theorem State.writeByte_withLatch (off : Nat) (v : Byte) :
    (s.withLatch e w).writeByte off v = (s.writeByte off v).map (·.withLatch e w) := by
  unfold State.writeByte
  simp only [apply_ite (Option.map _)]
  rfl

/-- No read but those of `STATUS` and `ECMD` depends on the latch. -/
theorem busRead_blindToLatch {off : Nat} {width : BusWidth} (h : ¬ (width = .b32 ∧ (off = 0x04 ∨ off = 0x1C))) :
    BlindToLatch (busRead off width) s := by
  cases width with
  | b16 | b64 => exact ⟨_, rfl, fun _ _ => rfl⟩
  | b8 =>
    simp only [BlindToLatch, busRead, State.readByte_withLatch]
    cases s.readByte off <;> exact ⟨_, rfl, fun _ _ => rfl⟩
  | b32 =>
    obtain ⟨hstatus, hecmd⟩ := not_or.mp fun hr => h ⟨rfl, hr⟩
    simp only [BlindToLatch, busRead, State.readRegister_withLatch _ _ _ hstatus hecmd]
    cases s.readRegister off <;> exact ⟨_, rfl, fun _ _ => rfl⟩

/-- No write but that of `CMD` depends on the latch. -/
theorem busWrite_blindToLatch {off : Nat} {width : BusWidth} (h : ¬ (width = .b32 ∧ off = 0)) (value : BitVec 64) :
    BlindToLatch (busWrite off width value) s := by
  cases width with
  | b16 | b64 => exact ⟨_, rfl, fun _ _ => rfl⟩
  | b8 =>
    simp only [BlindToLatch, busWrite, State.writeByte_withLatch]
    cases s.writeByte off (value.setWidth 8) <;> exact ⟨_, rfl, fun _ _ => rfl⟩
  | b32 =>
    have h0 : off ≠ 0 := fun h0 => h ⟨rfl, h0⟩
    simp only [BlindToLatch, busWrite, if_neg h0, State.writeRegister_withLatch]
    cases s.writeRegister off (value.setWidth 32) <;> exact ⟨_, rfl, fun _ _ => rfl⟩

end accesses

/-- An address in CORE's window and its offset. -/
theorem eq_base_add_of_busOffset {c : Config} {addr off : Nat} (h : busOffset c addr = some off) :
    addr = c.base + off := by
  unfold busOffset at h
  split at h
  · have := Option.some.inj h
    omega
  · cases h

/-- A read at an address other than those of `STATUS` and `ECMD` (R306). -/
theorem perform_read_blindToLatch (s : State) {addr : Nat} {width : BusWidth}
    (h : ¬ (width = .b32 ∧ (addr = s.cfg.base + 0x04 ∨ addr = s.cfg.base + 0x1C))) :
    BlindToLatch (perform (.read addr width)) s := by
  simp only [BlindToLatch, perform, State.withLatch_cfg]
  cases ho : busOffset s.cfg addr with
  | none => exact ⟨_, rfl, fun _ _ => rfl⟩
  | some off =>
    obtain rfl := eq_base_add_of_busOffset ho
    exact busRead_blindToLatch s (by simpa using h)

/-- A write that is not one of a command word (R306). -/
theorem perform_write_blindToLatch (s : State) {addr : Nat} {width : BusWidth} (h : ¬ (addr = s.cfg.base ∧ width = .b32))
    (v : BitVec 64) : BlindToLatch (perform (.write addr width v)) s := by
  simp only [BlindToLatch, perform, State.withLatch_cfg]
  cases ho : busOffset s.cfg addr with
  | none => exact ⟨_, rfl, fun _ _ => rfl⟩
  | some off =>
    obtain rfl := eq_base_add_of_busOffset ho
    exact busWrite_blindToLatch s (by simpa [and_comm] using h) v

/-- The gate looks at bits 7:0 of what is written (R306). -/
theorem passesGate_setWidth_eq_false {v : BitVec 64} (h1 : v.extractLsb' 0 8 ≠ 0x01) (h2 : v.extractLsb' 0 8 ≠ 0x02) :
    passesGate (v.setWidth 32) = false := by
  have hop : opField (v.setWidth 32) = v.extractLsb' 0 8 := by
    ext j hj
    simp [opField, show j < 32 by omega]
  rw [passesGate, hop, beq_false_of_ne h1, beq_false_of_ne h2, Bool.or_false]

/-- Settles O7: the gate discards the word; every other access is blind to the latch, or reads it. -/
theorem latchedErrorDiscardsCommands : Obligations.LatchedErrorDiscardsCommands := by
  refine ⟨fun s v rest hp he h1 h2 => ?gate, fun s e w addr width v h => ?write, fun s e w addr width h => ?read,
    fun s => ⟨perform_memRead32 rfl rfl, perform_memRead32 rfl rfl⟩⟩
  case gate =>
    rw [step_command hp]
    exact issueCommand_gated he (passesGate_setWidth_eq_false h1 h2)
  case write =>
    obtain ⟨t, ht, hblind⟩ := perform_write_blindToLatch s h v
    exact ⟨t, ht, hblind e w⟩
  case read =>
    obtain ⟨r, hr⟩ := perform_read addr width s
    obtain ⟨t, ht, hblind⟩ := perform_read_blindToLatch s h
    cases hr.symm.trans ht
    exact ⟨r, hr, hblind e w⟩

/-- A read leaves the latch alone, and so does a write that is not one of a command word. -/
theorem perform_keeps_latch {a : HostAction} {s t : State} (hreset : a ≠ .reset)
    (hcmd : ∀ v, a ≠ .write s.cfg.base .b32 v) (h : perform a s = .next t) : t.err = s.err ∧ t.ecmd = s.ecmd := by
  cases a with
  | reset => exact absurd rfl hreset
  | read addr width =>
    obtain ⟨r, hr⟩ := perform_read addr width s
    cases hr.symm.trans h
    exact ⟨rfl, rfl⟩
  | write addr width v =>
    refine (perform_write_blindToLatch s ?_ v).keeps_latch h
    rintro ⟨rfl, rfl⟩
    exact hcmd v rfl

/-- With an error latched a word written to `CMD` leaves the latch alone, or is that of `CLRERR` or `ZEROIZE`. -/
theorem issueCommand_of_latched {w : Word} {s t : State} (he : s.err ≠ none) (h : issueCommand w s = .next t) :
    t = s ∨ w = encode .clrerr ∨ w = encode .zeroize := by
  rcases issueCommand_cases w s with hx | ⟨d, hd, -⟩ | ⟨i, hd, hi, -⟩
  · cases hx.symm.trans h
    exact .inl rfl
  · cases (issueCommand_illegal_of_latched he hd).symm.trans h
    exact .inl rfl
  · obtain ⟨-, hw⟩ := decode_eq_ok_iff.mp hd
    rcases hi.resolve_left he with rfl | rfl
    · exact .inr (.inl hw.symm)
    · exact .inr (.inr hw.symm)

/-- Settles O8: an idle step, every access but a command, and every command word but the two leave the latch alone. -/
theorem latchLastsUntilCleared : Obligations.LatchLastsUntilCleared := by
  intro s t he h
  cases hp : s.pending with
  | nil =>
    cases (step_idle hp).symm.trans h
    exact .inl ⟨rfl, rfl⟩
  | cons a rest =>
    by_cases hreset : a = .reset
    · exact .inr (.inl ⟨rest, by rw [hreset]⟩)
    · by_cases hcmd : ∃ v, a = .write s.cfg.base .b32 v
      · obtain ⟨v, rfl⟩ := hcmd
        rcases issueCommand_of_latched (s := { s with pending := rest, reply := .ack }) he
            ((step_command hp).symm.trans h) with rfl | hw
        · exact .inl ⟨rfl, rfl⟩
        · exact .inr (.inr ⟨v, rest, rfl, hw⟩)
      · exact .inl (perform_keeps_latch (s := { s with pending := rest }) hreset (not_exists.mp hcmd)
          ((step_cons hp).symm.trans h))

/-- A command that completes, other than `CLRERR` and `ZEROIZE`, leaves the latch alone (R309, R311). -/
theorem Completed.latch_frame {s t : State} {i : Instr} (h : Completed s i t) (hi : i ≠ .clrerr ∧ i ≠ .zeroize) :
    t.err = s.err ∧ t.ecmd = s.ecmd := by
  cases h with
  | clrerr => exact absurd rfl hi.1
  | zeroize => exact absurd rfl hi.2
  | encrypt alg mode => cases mode <;> exact ⟨rfl, rfl⟩
  | _ => exact ⟨rfl, rfl⟩

/-- What a command that completes with no error latched leaves in the latch. -/
theorem Completed.latch_of_unlatched {s t : State} {i : Instr} (h : Completed s i t) (he : s.err = none) :
    t.err = none ∧ t.ecmd = if i = .clrerr ∨ i = .zeroize then 0 else s.ecmd := by
  by_cases hi : i = .clrerr ∨ i = .zeroize
  · rw [if_pos hi]
    rcases hi with rfl | rfl <;> cases h <;> exact ⟨rfl, rfl⟩
  · rw [if_neg hi, ← he]
    exact h.latch_frame (not_or.mp hi)

/-- `STATUS` bits 3:0 show the error code (`spec/10_state.md` R39). -/
theorem State.extractLsb'_statusWord (s : State) : s.statusWord.extractLsb' 0 4 = errField s.err :=
  BitVec.extractLsb'_append_eq_right

/-- Settles O10: a word that is no command raises IllegalCommand; a command completes or takes an error of its own. -/
theorem commandsCompleteOrLatch : Obligations.CommandsCompleteOrLatch := by
  intro w s he
  cases hd : decode w with
  | error d =>
    exact .inr ⟨.illegalCommand, _, .inr ⟨d, rfl, rfl⟩, issueCommand_illegal_of_unlatched he hd, rfl,
      State.extractLsb'_statusWord _, rfl⟩
  | ok i =>
    obtain ⟨hwf, rfl⟩ := decode_eq_ok_iff.mp hd
    rw [issueCommand_ok (.inl he) hd]
    rcases exec_cases i s with ⟨e, hmay, hx⟩ | ⟨t, hc, hx⟩
    · have hlisted : e ∈ mayRaise i := hmay.resolve_right fun hill => by simp [hwf] at hill
      rw [State.latch_of_none he] at hx
      exact .inr ⟨e, _, .inl ⟨i, rfl, hlisted⟩, hx, rfl, State.extractLsb'_statusWord _, rfl⟩
    · exact .inl ⟨i, t, rfl, hx, hc.latch_of_unlatched he⟩

end Sys2Proof.Machine
end

section
/-! PROOFS. The commands of the façade CipherService, `ENCRYPT`, `DECRYPT` and `GENKEY` (`spec/47_service.md` R261 to R268). -/

namespace Sys2Proof.Machine

section installKeys

variable (s : State) {alg : Alg} (ks : Slots Block) {k : Slot}

/-- The slots of `alg` hold the keys with their schedules (R262, R265). -/
theorem State.installKeys_slot (hk : alg = .tdes ∨ k = .k1) :
    (s.installKeys alg ks).key.get k = ks.get k ∧ (s.installKeys alg ks).kv.get k = true ∧
    (s.installKeys alg ks).rk.get k = keySchedule (ks.get k) ∧ (s.installKeys alg ks).rkv.get k = true := by
  simp [Slots.get_overwrite, hk]

/-- The other slots are as they were (R261). -/
theorem State.installKeys_other_slot (hk : ¬ (alg = .tdes ∨ k = .k1)) :
    (s.installKeys alg ks).key.get k = s.key.get k ∧ (s.installKeys alg ks).kv.get k = s.kv.get k ∧
    (s.installKeys alg ks).rk.get k = s.rk.get k ∧ (s.installKeys alg ks).rkv.get k = s.rkv.get k := by
  simp [Slots.get_overwrite, hk]

end installKeys

/-- The draw of an IV touches no key and no schedule (R262). -/
theorem State.prepareEncrypt_slots (s : State) (alg : Alg) (mode : ChainMode) (ks : Slots Block) :
    s.prepareEncrypt alg mode ks =
      { s.installKeys alg ks with
        iv := (s.prepareEncrypt alg mode ks).iv, ivv := (s.prepareEncrypt alg mode ks).ivv
        entropy := (s.prepareEncrypt alg mode ks).entropy, drawn := (s.prepareEncrypt alg mode ks).drawn } := by
  cases mode <;> rfl

/-- What `ENCRYPT` puts out: the keys' schedules and the IV are in place before it is computed (R262). -/
def State.encryptText (s : State) (alg : Alg) (mode : ChainMode) (enc : TextEnc) (ks : Slots Block) : List Byte :=
  encodeText enc (chainEnc alg mode (pad s.input) (s.prepareEncrypt alg mode ks).rk (s.prepareEncrypt alg mode ks).iv)

/-- The length of what `ENCRYPT` puts out. -/
theorem State.length_encryptText (s : State) (alg : Alg) (mode : ChainMode) (enc : TextEnc) (ks : Slots Block) :
    (s.encryptText alg mode enc ks).length = textLength enc (8 * (s.ilen / 8 + 1)) := by
  rw [State.encryptText, encryptText_length, State.length_input, add_padLength]

section effect

variable {s : State} {alg : Alg} {mode : ChainMode} {enc : TextEnc}

/-- R262: every check passes. -/
theorem exec_encrypt_ok {ks : Slots Block} (hk : s.parseKey alg = .ok ks)
    (hl : textLength enc (s.ilen + padLength s.ilen) ≤ s.cfg.nbuf) :
    exec (.encrypt alg mode enc) s = .next ((s.prepareEncrypt alg mode ks).emit (s.encryptText alg mode enc ks)) := by
  have he : encryptEffect alg mode enc s =
      .ok ((s.prepareEncrypt alg mode ks).emit (s.encryptText alg mode enc ks)) := by
    simp only [encryptEffect, hk, if_neg (Nat.not_lt.mpr hl)]
    rfl
  exact congrArg (settle (.encrypt alg mode enc) s) he

/-- `ENCRYPT` raises what `parsekey` raises (R262). -/
theorem encrypt_raises_parseKey {e : ErrorKind} (he : s.err = none) (hk : s.parseKey alg = .error e) :
    Raises (.encrypt alg mode enc) s e :=
  settle_raises he (by rw [encryptEffect, hk])

/-- R262: the capacity is checked when the key is good. -/
theorem encrypt_raises_capacity {ks : Slots Block} (he : s.err = none) (hk : s.parseKey alg = .ok ks)
    (hl : s.cfg.nbuf < textLength enc (s.ilen + padLength s.ilen)) : Raises (.encrypt alg mode enc) s .capacity :=
  settle_raises he (by simp only [encryptEffect, hk, if_pos hl])

/-- `DECRYPT` raises what `parsekey` raises (R265). -/
theorem decrypt_raises_parseKey {e : ErrorKind} (he : s.err = none) (hk : s.parseKey alg = .error e) :
    Raises (.decrypt alg mode enc) s e :=
  settle_raises he (by rw [decryptEffect, hk])

section decrypt

variable {ks : Slots Block} (hk : s.parseKey alg = .ok ks)
include hk

/-- `DECRYPT` decodes when the key is good (R265). -/
theorem decrypt_raises_encoding (he : s.err = none) (hd : decodeText enc s.input = none) :
    Raises (.decrypt alg mode enc) s .encoding :=
  settle_raises he (by simp only [decryptEffect, hk, hd])

variable {c : List Byte} (hd : decodeText enc s.input = some c)
include hd

/-- R265: the length, and for CBC the IV, are checked next. -/
theorem decrypt_raises_format (he : s.err = none)
    (hw : ¬ (0 < c.length ∧ c.length % 8 = 0) ∨ (mode = .cbc ∧ s.ivv = false)) :
    Raises (.decrypt alg mode enc) s .format := by
  refine settle_raises he ?_
  rw [← wholeBlocks_iff, Bool.not_eq_true] at hw
  simp only [decryptEffect, hk, hd]
  split
  · rfl
  next hn => rw [if_pos (hw.resolve_left hn)]

variable (h0 : 0 < c.length) (h8 : c.length % 8 = 0) (hi : mode = .cbc → s.ivv = true)
include h0 h8 hi

/-- With these checks passed all turns on the pad (R265). -/
theorem decryptEffect_eq_elim : decryptEffect alg mode enc s =
    (unpad (chainDec alg mode c (ks.map keySchedule) s.iv)).elim (.error .padding)
      fun r => .ok ((s.installKeys alg ks).emit r) := by
  have hw : wholeBlocks c.length = true := (wholeBlocks_iff _).mpr ⟨h0, h8⟩
  have hiv : ¬ (mode = .cbc ∧ s.ivv = false) := fun h => by simp [hi h.1] at h
  simp only [decryptEffect, hk, hd, hw, Bool.true_eq_false, if_false, if_neg hiv]
  cases unpad (chainDec alg mode c (ks.map keySchedule) s.iv) <;> rfl

/-- R265: the pad is checked last. -/
theorem decrypt_raises_padding (he : s.err = none)
    (hu : unpad (chainDec alg mode c (ks.map keySchedule) s.iv) = none) : Raises (.decrypt alg mode enc) s .padding :=
  settle_raises he (by rw [decryptEffect_eq_elim hk hd h0 h8 hi, hu, Option.elim])

/-- R265: every check passes. -/
theorem exec_decrypt_ok {r : List Byte} (hu : unpad (chainDec alg mode c (ks.map keySchedule) s.iv) = some r) :
    exec (.decrypt alg mode enc) s = .next ((s.installKeys alg ks).emit r) := by
  have he : decryptEffect alg mode enc s = .ok ((s.installKeys alg ks).emit r) := by
    rw [decryptEffect_eq_elim hk hd h0 h8 hi, hu, Option.elim]
  exact congrArg (settle (.decrypt alg mode enc) s) he

end decrypt

end effect

/-- Settles O49: the success from `exec_encrypt_ok`, register by register, and the three errors in their order. -/
theorem encryptEncrypts : Obligations.EncryptEncrypts := by
  intro s alg mode enc
  simp only [← add_padLength]
  refine ⟨fun kb hk hd hl => ?ok, fun he hk => encrypt_raises_parseKey he (State.parseKey_keyLength hk),
    fun he hk hd => encrypt_raises_parseKey he (State.parseKey_encoding hk hd), fun he hk hd hl => ?capacity⟩
  case ok =>
    refine ⟨_, exec_encrypt_ok (State.parseKey_ok hk hd) hl, fun k hu => ?_, fun k hu => ?_, ?_, ?_,
      State.output_emit .., ?_, ?_⟩
    · rw [State.prepareEncrypt_slots]
      exact s.installKeys_slot _ hu
    · rw [State.prepareEncrypt_slots]
      exact s.installKeys_other_slot _ hu
    · rintro rfl
      exact ⟨rfl, rfl, rfl, rfl⟩
    · rintro rfl
      exact ⟨rfl, rfl, rfl, rfl⟩
    · rw [add_padLength]
      exact s.length_encryptText ..
    · cases mode <;> rfl
  case capacity =>
    obtain ⟨kb, hkb⟩ := Option.ne_none_iff_exists'.mp hd
    exact encrypt_raises_capacity he (State.parseKey_ok hk hkb) hl

/-- Removing a pad shortens. -/
theorem unpad_length_lt {m r : List Byte} (h : unpad m = some r) : r.length < m.length := by
  obtain ⟨n, h1, -, rfl⟩ := unpad_some h
  rw [List.length_append, List.length_replicate]
  omega

/-- Settles O51: the success from `exec_decrypt_ok`, register by register, and the errors stage by stage. -/
theorem decryptDecrypts : Obligations.DecryptDecrypts := by
  intro s alg mode enc
  refine ⟨fun kb c r hk hd hc h0 h8 hi hu => ?ok, fun he =>
    ⟨fun hk => decrypt_raises_parseKey he (State.parseKey_keyLength hk),
      fun hk hd => decrypt_raises_parseKey he (State.parseKey_encoding hk hd), fun kb hk hd => ?stages⟩⟩
  all_goals have hks : s.parseKey alg = .ok (splitKeys alg kb) := State.parseKey_ok hk hd
  case ok =>
    have hlt : r.length < s.ilen := calc
      r.length < (chainDec alg mode c ((splitKeys alg kb).map keySchedule) s.iv).length := unpad_length_lt hu
      _ = c.length := chainDec_length alg mode c _ _ h8
      _ ≤ s.input.length := decodeText_length_le hc
      _ = s.ilen := s.length_input
    exact ⟨_, exec_decrypt_ok hks hc h0 h8 hi hu, fun k hu => s.installKeys_slot _ hu,
      fun k hu => s.installKeys_other_slot _ hu, State.output_emit .., rfl, hlt, rfl⟩
  case stages =>
    exact ⟨decrypt_raises_encoding hks he, fun c hc => ⟨decrypt_raises_format hks hc he,
      fun h0 h8 hi hu => decrypt_raises_padding hks hc h0 h8 hi he hu⟩⟩

/-- Settles O53: `GENKEY` has no check; what it draws are `n` bytes, those of the fixed sequence while that lasts. -/
theorem genkeyDrawsAKeyText : Obligations.GenkeyDrawsAKeyText := by
  intro s alg n hn
  obtain rfl : keyBytes alg = n := by
    simp only [List.mem_cons, Prod.mk.injEq, List.not_mem_nil, or_false] at hn
    rcases hn with ⟨rfl, rfl⟩ | ⟨rfl, rfl⟩ <;> rfl
  refine ⟨⟨_, rfl, ?_, State.output_emit .., State.length_randBytes .., rfl⟩, fun draw rest hl he =>
    ⟨_, rfl, ?_, ?_, ?_⟩⟩
  · rw [State.emit_olen, hexEnc_length, State.length_randBytes]
  · rw [State.output_emit, ← hl, State.randBytes_of_entropy he]
  · rw [← hl, State.consume_of_entropy he]
    rfl
  · rw [← hl, State.consume_of_entropy he]
    rfl

end Sys2Proof.Machine
end

section
/-! PROOFS. What `spec/47_service.md` says of the service commands as a whole: they equal the unit-level pipeline (R264),
`DECRYPT` undoes `ENCRYPT` (R267), and no key, schedule or result of an earlier command reaches their output (R269). -/

namespace Sys2Proof.Machine

/-! ### The schedules a service command uses -/

/-- A chaining operation reads the slots of `alg` only, and those were all replaced. -/
theorem chainEnc_overwrite (alg : Alg) (mode : ChainMode) (m : List Byte) (old new : Slots Schedule) (iv : Block) :
    chainEnc alg mode m (old.overwrite alg new) iv = chainEnc alg mode m new iv := by
  cases alg <;> rfl

/-- `ENCRYPT` encrypts with the schedules of the keys it parsed (R262). -/
theorem State.encryptText_eq (s : State) (alg : Alg) (mode : ChainMode) (enc : TextEnc) (ks : Slots Block) :
    s.encryptText alg mode enc ks =
      encodeText enc (chainEnc alg mode (pad s.input) (ks.map keySchedule) (s.prepareEncrypt alg mode ks).iv) := by
  have hrk : (s.prepareEncrypt alg mode ks).rk = s.rk.overwrite alg (ks.map keySchedule) := by cases mode <;> rfl
  rw [State.encryptText, hrk, chainEnc_overwrite]

/-- Preparing the keys and the IV leaves the input and the parameters alone. -/
theorem State.prepareEncrypt_operands (s : State) (alg : Alg) (mode : ChainMode) (ks : Slots Block) :
    (s.prepareEncrypt alg mode ks).input = s.input ∧ (s.prepareEncrypt alg mode ks).ilen = s.ilen ∧
    (s.prepareEncrypt alg mode ks).cfg = s.cfg := by
  cases mode <;> exact ⟨rfl, rfl, rfl⟩

/-! ### Commands that end with no error latched -/

/-- A command that ends with no error latched took none: it completed. -/
theorem completed_of_unlatched {i : Instr} {s t : State} (h : exec i s = .next t) (ht : t.err = none) :
    Completed s i t := by
  rcases exec_eq_next h with ⟨e, rfl⟩ | hc
  · rcases s.latch_cases e (encode i) with ⟨-, hl⟩ | ⟨hs, hl⟩ <;> rw [hl] at ht
    · cases ht
    · exact absurd ht hs
  · exact hc

/-- Several commands that each complete, one after another. -/
inductive CompletedAll : State → List Instr → State → Prop where
  | nil (s : State) : CompletedAll s [] s
  | cons {s u t : State} {i : Instr} {rest : List Instr} (hi : Completed s i u) (hrest : CompletedAll u rest t) :
      CompletedAll s (i :: rest) t

/-- Commands that end with no error latched, none of which clears the latch, each completed: an error would have
stayed. -/
theorem completedAll_of_runCommands {is : List Instr} {s t : State}
    (hcl : ∀ i ∈ is, i ≠ .clrerr ∧ i ≠ .zeroize) (h : runCommands is s = .next t) (ht : t.err = none) : CompletedAll s is t := by
  have hboth : CompletedAll s is t ∧ s.err = none := by
    induction is generalizing s with
    | nil =>
      cases h
      exact ⟨.nil t, ht⟩
    | cons i rest ih =>
      obtain ⟨u, hu, -⟩ := exec_next i s
      rw [runCommands_next hu] at h
      obtain ⟨hrest, hue⟩ := ih (fun j hj => hcl j (List.mem_cons_of_mem i hj)) h
      have hi := completed_of_unlatched hu hue
      exact ⟨.cons hi hrest, (hi.latch_frame (hcl i List.mem_cons_self)).1.symm.trans hue⟩
  exact hboth.1

theorem CompletedAll.of_cons {i : Instr} {rest : List Instr} {s t : State} (h : CompletedAll s (i :: rest) t) :
    ∃ u, Completed s i u ∧ CompletedAll u rest t := by
  cases h with
  | cons hi hrest => exact ⟨_, hi, hrest⟩

theorem CompletedAll.of_append {is js : List Instr} {s t : State} (h : CompletedAll s (is ++ js) t) :
    ∃ u, CompletedAll s is u ∧ CompletedAll u js t := by
  induction is generalizing s with
  | nil => exact ⟨s, .nil s, h⟩
  | cons i is ih =>
    obtain ⟨u, hi, hrest⟩ := h.of_cons
    obtain ⟨v, his, hjs⟩ := ih hrest
    exact ⟨v, .cons hi his, hjs⟩

/-! ### The unit-level pipeline -/

/-- The `KSCHED` commands of the pipeline (R264). -/
def scheduleCommands (alg : Alg) : List Instr :=
  match alg with
  | .des => [.ksched 1]
  | .tdes => [.ksched 1, .ksched 2, .ksched 3]

/-- The command of the pipeline that draws the IV. -/
def ivCommands (mode : ChainMode) : List Instr :=
  match mode with
  | .ecb => []
  | .cbc => [.geniv]

/-- The chaining command of the pipeline. -/
def chainCommand (alg : Alg) (mode : ChainMode) : Instr :=
  match mode with
  | .ecb => .ecbenc alg
  | .cbc => .cbcenc alg

/-- The encoder of the pipeline. -/
def encoderCommand (enc : TextEnc) : Instr :=
  match enc with
  | .hex => .hexenc
  | .b64 => .b64enc

theorem unitPipeline_eq (alg : Alg) (mode : ChainMode) (enc : TextEnc) : unitPipeline alg mode enc =
    [.loadkey alg] ++ (scheduleCommands alg ++ (ivCommands mode ++
      [.pad, .xfer, chainCommand alg mode, .xfer, encoderCommand enc])) := by
  cases alg <;> cases mode <;> cases enc <;> rfl

/-- No command of the pipeline clears the latch. -/
theorem unitPipeline_keeps_latch (alg : Alg) (mode : ChainMode) (enc : TextEnc) :
    ∀ i ∈ unitPipeline alg mode enc, i ≠ .clrerr ∧ i ≠ .zeroize := by
  cases alg <;> cases mode <;> cases enc <;> decide

/-- The two states differ in `IBUF` and `ILEN` at most. -/
def SameBeyondInput (s t : State) : Prop := ∃ m n, t = { s with ibuf := m, ilen := n }

section sameBeyondInput

variable {s t u : State} (h : SameBeyondInput s t)
include h

theorem SameBeyondInput.rk_eq : t.rk = s.rk := by
  obtain ⟨m, n, rfl⟩ := h
  rfl

theorem SameBeyondInput.iv_eq : t.iv = s.iv := by
  obtain ⟨m, n, rfl⟩ := h
  rfl

theorem SameBeyondInput.cfg_eq : t.cfg = s.cfg := by
  obtain ⟨m, n, rfl⟩ := h
  rfl

theorem SameBeyondInput.trans (h' : SameBeyondInput t u) : SameBeyondInput s u := by
  obtain ⟨m, n, rfl⟩ := h
  obtain ⟨m', n', rfl⟩ := h'
  exact ⟨m', n', rfl⟩

/-- The same output replaces whatever output there was. -/
theorem SameBeyondInput.emit (out : List Byte) : SameBeyondInput (s.emit out) (t.emit out) := by
  obtain ⟨m, n, rfl⟩ := h
  exact ⟨m, n, rfl⟩

end sameBeyondInput

section stages

variable {s t : State} {alg : Alg} {mode : ChainMode} {enc : TextEnc}

theorem Completed.loadkey_eq (h : Completed s (.loadkey alg) t) :
    ∃ ks, s.parseKey alg = .ok ks ∧ t = s.loadKeys alg ks := by
  cases h with
  | loadkey _ ks hk => exact ⟨ks, hk, rfl⟩

theorem Completed.ksched_eq {ks : BitVec 2} {k : Slot} (hk : slotOf ks = some k) (h : Completed s (.ksched ks) t) :
    t = s.deriveSchedule k := by
  cases h with
  | ksched _ k' hs =>
    cases hk.symm.trans hs
    rfl

/-- `LOADKEY` and the `KSCHED`s leave the keys with their schedules. -/
theorem CompletedAll.scheduleCommands_eq {ks : Slots Block}
    (h : CompletedAll (s.loadKeys alg ks) (scheduleCommands alg) t) : t = s.installKeys alg ks := by
  cases alg with
  | des =>
    obtain ⟨u1, h1, ⟨⟩⟩ := h.of_cons
    obtain rfl := h1.ksched_eq rfl
    rfl
  | tdes =>
    obtain ⟨u1, h1, h⟩ := h.of_cons
    obtain ⟨u2, h2, h⟩ := h.of_cons
    obtain ⟨u3, h3, ⟨⟩⟩ := h.of_cons
    obtain rfl := h1.ksched_eq rfl
    obtain rfl := h2.ksched_eq rfl
    obtain rfl := h3.ksched_eq rfl
    rfl

theorem CompletedAll.ivCommands_eq (h : CompletedAll s (ivCommands mode) t) : t = s.prepareIv mode := by
  cases mode with
  | ecb =>
    cases h
    rfl
  | cbc =>
    obtain ⟨u, ⟨⟩, ⟨⟩⟩ := h.of_cons
    rfl

theorem Completed.chainCommand_eq (h : Completed s (chainCommand alg mode) t) :
    t = s.emit (chainEnc alg mode s.input s.rk s.iv) := by
  cases mode <;> cases h <;> rfl

theorem Completed.encoderCommand_eq (h : Completed s (encoderCommand enc) t) :
    textLength enc s.ilen ≤ s.cfg.nbuf ∧ t = s.emit (encodeText enc s.input) := by
  cases enc with
  | hex =>
    cases h with
    | hexenc hl => exact ⟨hl, rfl⟩
  | b64 =>
    cases h with
    | b64enc hl => exact ⟨hl, rfl⟩

/-- `XFER` after a data command makes its output the input, and changes nothing beyond the input. -/
theorem Completed.xfer_emit {out : List Byte} (h : Completed (s.emit out) .xfer t) (hs : s.ibuf.wf) :
    t.input = out ∧ t.ilen = out.length ∧ t.ibuf.wf ∧ SameBeyondInput (s.emit out) t := by
  obtain ⟨u, hu, hin, hlen, -, heq, hwf⟩ := exec_xfer_emit s hs out
  cases h
  cases hu
  exact ⟨hin, hlen, hwf, _, _, heq⟩

/-- The data commands of the pipeline put out what `ENCRYPT` puts out from the same keys and IV. -/
theorem CompletedAll.dataCommands_eq (hs : s.ibuf.wf)
    (h : CompletedAll s [.pad, .xfer, chainCommand alg mode, .xfer, encoderCommand enc] t) :
    textLength enc (s.ilen + padLength s.ilen) ≤ s.cfg.nbuf ∧
    SameBeyondInput (s.emit (encodeText enc (chainEnc alg mode (pad s.input) s.rk s.iv))) t := by
  obtain ⟨_, ⟨⟩, h⟩ := h.of_cons
  obtain ⟨u1, hx1, h⟩ := h.of_cons
  obtain ⟨_, hchain, h⟩ := h.of_cons
  obtain ⟨u2, hx2, h⟩ := h.of_cons
  obtain ⟨_, hcode, ⟨⟩⟩ := h.of_cons
  obtain ⟨hin1, -, hwf1, hsame1⟩ := hx1.xfer_emit hs
  obtain rfl := hchain.chainCommand_eq
  obtain ⟨hin2, hlen2, -, hsame2⟩ := hx2.xfer_emit hwf1
  obtain ⟨hcap, rfl⟩ := hcode.encoderCommand_eq
  have hc : chainEnc alg mode u1.input u1.rk u1.iv = chainEnc alg mode (pad s.input) s.rk s.iv := by
    rw [hin1, hsame1.rk_eq, hsame1.iv_eq, State.emit_rk, State.emit_iv]
  have h8 : (pad s.input).length % 8 = 0 := by rw [pad_length]; omega
  rw [hc] at hin2 hlen2 hsame2
  constructor
  · rwa [hlen2, chainEnc_length alg mode _ _ _ h8, pad_length_eq, State.length_input, hsame2.cfg_eq, State.emit_cfg,
      hsame1.cfg_eq] at hcap
  · rw [hin2]
    exact ((hsame1.emit _).trans hsame2).emit _

end stages

/-- Settles O50: each stage of the pipeline leaves what `ENCRYPT` prepares, and the last puts out its text. -/
theorem encryptEqualsTheUnitPipeline : Obligations.EncryptEqualsTheUnitPipeline := by
  intro s t alg mode enc hs _ h ht
  have hall := completedAll_of_runCommands (unitPipeline_keeps_latch alg mode enc) h ht
  rw [unitPipeline_eq] at hall
  obtain ⟨u1, hload, hall⟩ := hall.of_append
  obtain ⟨u2, hsched, hall⟩ := hall.of_append
  obtain ⟨u3, hiv, hdata⟩ := hall.of_append
  obtain ⟨_, hload, ⟨⟩⟩ := hload.of_cons
  obtain ⟨ks, hk, rfl⟩ := hload.loadkey_eq
  obtain rfl := hsched.scheduleCommands_eq
  obtain rfl : u3 = s.prepareEncrypt alg mode ks := hiv.ivCommands_eq
  obtain ⟨hcap, hsame⟩ := hdata.dataCommands_eq (hs.prepareEncrypt alg mode ks).ibuf_wf
  obtain ⟨hin, hlen, hcfg⟩ := s.prepareEncrypt_operands alg mode ks
  rw [hlen, hcfg] at hcap
  rw [hin] at hsame
  obtain ⟨m, n, rfl⟩ := hsame
  exact ⟨_, exec_encrypt_ok hk hcap, rfl⟩

/-! ### Decryption undoes encryption -/

theorem decodeText_encodeText (enc : TextEnc) (m : List Byte) : decodeText enc (encodeText enc m) = some m := by
  cases enc with
  | hex => exact hexDec_hexEnc m
  | b64 => exact b64Dec_b64Enc m

/-- The key text is all that `parsekey` reads (`spec/41_key_schedule.md` R166). -/
theorem State.parseKey_congr {s t : State} (hl : t.klen = s.klen) (ht : t.keyText = s.keyText) (alg : Alg) :
    t.parseKey alg = s.parseKey alg := by
  rw [State.parseKey, State.parseKey, hl, ht]

/-- `DECRYPT` of the text of an encrypted, padded sequence, with the keys and the IV it was encrypted with. -/
theorem exec_decrypt_of_encrypted {s : State} {alg : Alg} {mode : ChainMode} {enc : TextEnc} {ks : Slots Block}
    {m : List Byte} (hk : s.parseKey alg = .ok ks) (hi : mode = .cbc → s.ivv = true)
    (hin : s.input = encodeText enc (chainEnc alg mode (pad m) (ks.map keySchedule) s.iv)) :
    exec (.decrypt alg mode enc) s = .next ((s.installKeys alg ks).emit m) := by
  have h8 : (pad m).length % 8 = 0 := by rw [pad_length]; omega
  have hl : (chainEnc alg mode (pad m) (ks.map keySchedule) s.iv).length = 8 * (m.length / 8 + 1) := by
    rw [chainEnc_length alg mode _ _ _ h8, pad_length]
  refine exec_decrypt_ok hk (by rw [hin, decodeText_encodeText]) (by omega) (by omega) hi ?_
  rw [chainDec_chainEnc alg mode h8, unpad_pad]

/-- Settles O52: `XFER` makes the text the input and keeps the key text and the IV, so `DECRYPT` undoes the rest. -/
theorem serviceRoundTrip : Obligations.ServiceRoundTrip := by
  intro s t alg mode enc hs h ht
  obtain ⟨ks, hk, rfl⟩ : ∃ ks, s.parseKey alg = .ok ks ∧
      t = (s.prepareEncrypt alg mode ks).emit (s.encryptText alg mode enc ks) := by
    cases completed_of_unlatched h ht with
    | encrypt _ _ _ ks hk => exact ⟨ks, hk, rfl⟩
  obtain ⟨v, hx, hin, -, -, heq, -⟩ :=
    exec_xfer_emit (s.prepareEncrypt alg mode ks) (hs.prepareEncrypt alg mode ks).ibuf_wf (s.encryptText alg mode enc ks)
  have hkv : v.parseKey alg = .ok ks := by
    rw [← hk, heq]
    cases mode <;> exact State.parseKey_congr rfl rfl alg
  have hivv : mode = .cbc → v.ivv = true := by
    rintro rfl
    rw [heq]
    rfl
  have hiv : v.iv = (s.prepareEncrypt alg mode ks).iv := by rw [heq]; rfl
  have hve : v.err = none := by rw [heq]; exact ht
  rw [State.encryptText_eq, ← hiv] at hin
  refine ⟨(v.installKeys alg ks).emit s.input, ?_, hve, State.output_emit .., s.length_input⟩
  rw [runCommands_next hx, runCommands_next (exec_decrypt_of_encrypted hkv hivv hin), runCommands]

/-! ### Nothing left by an earlier command reaches the output -/

/-- The states agree on what the service commands read: the key text, the input, the entropy source and the
parameters (R269). -/
structure SameRequest (s s' : State) : Prop where
  klen : s'.klen = s.klen
  keyText : s'.keyText = s.keyText
  ilen : s'.ilen = s.ilen
  input : s'.input = s.input
  entropy : s'.entropy = s.entropy
  drawn : s'.drawn = s.drawn
  cfg : s'.cfg = s.cfg

/-- Both commands end, with the same output and the same error. -/
def SameEnding (o o' : Outcome) : Prop :=
  ∃ t t', o = .next t ∧ o' = .next t' ∧ t'.output = t.output ∧ t'.olen = t.olen ∧ t'.err = t.err

theorem SameEnding.emit {i : Instr} {s s' u u' : State} {out : List Byte} (h : exec i s = .next (u.emit out))
    (h' : exec i s' = .next (u'.emit out)) (he : u'.err = u.err) : SameEnding (exec i s) (exec i s') :=
  ⟨_, _, h, h', by rw [State.output_emit, State.output_emit], rfl, he⟩

theorem SameEnding.raises {i : Instr} {s s' : State} {e : ErrorKind} (h : Raises i s e) (h' : Raises i s' e) :
    SameEnding (exec i s) (exec i s') :=
  ⟨_, _, h, h', rfl, rfl, rfl⟩

section sameRequest

variable {s s' : State} (h : SameRequest s s')
include h

theorem SameRequest.randBytes_eq (n : Nat) : s'.randBytes n = s.randBytes n := by
  rw [State.randBytes, State.randBytes, h.entropy, h.drawn]

/-- The text of `ENCRYPT` uses the parsed keys, and an IV in CBC mode only, the drawn one. -/
theorem SameRequest.encryptText_eq (alg : Alg) (mode : ChainMode) (enc : TextEnc) (ks : Slots Block) :
    s'.encryptText alg mode enc ks = s.encryptText alg mode enc ks := by
  rw [State.encryptText_eq, State.encryptText_eq, h.input]
  cases mode with
  | ecb => rfl
  | cbc =>
    have hiv : be64 (s'.randBytes 8) = be64 (s.randBytes 8) := by rw [h.randBytes_eq]
    exact congrArg (fun iv => encodeText enc (chainEnc alg .cbc (pad s.input) (ks.map keySchedule) iv)) hiv

theorem SameRequest.parseKey_eq (alg : Alg) : s'.parseKey alg = s.parseKey alg :=
  State.parseKey_congr h.klen h.keyText alg

theorem SameRequest.genkey (alg : Alg) (he : s'.err = s.err) :
    SameEnding (exec (.genkey alg) s) (exec (.genkey alg) s') := by
  have h' : exec (.genkey alg) s' = .next ((s'.consume (keyBytes alg)).emit (hexEnc (s.randBytes (keyBytes alg)))) := by
    rw [← h.randBytes_eq]
    rfl
  exact .emit rfl h' he

variable (he : s.err = none) (he' : s'.err = none)
include he he'

theorem SameRequest.encrypt (alg : Alg) (mode : ChainMode) (enc : TextEnc) :
    SameEnding (exec (.encrypt alg mode enc) s) (exec (.encrypt alg mode enc) s') := by
  have hk' := h.parseKey_eq alg
  have hl' : textLength enc (s'.ilen + padLength s'.ilen) = textLength enc (s.ilen + padLength s.ilen) := by rw [h.ilen]
  cases hk : s.parseKey alg with
  | error e => exact .raises (encrypt_raises_parseKey he hk) (encrypt_raises_parseKey he' (hk'.trans hk))
  | ok ks =>
    rw [hk] at hk'
    rcases Nat.lt_or_ge s.cfg.nbuf (textLength enc (s.ilen + padLength s.ilen)) with hl | hl
    · exact .raises (encrypt_raises_capacity he hk hl) (encrypt_raises_capacity he' hk' (by rwa [h.cfg, hl']))
    · have hx' := exec_encrypt_ok (mode := mode) (enc := enc) hk' (by rwa [h.cfg, hl'])
      rw [h.encryptText_eq] at hx'
      refine .emit (exec_encrypt_ok hk hl) hx' ?_
      cases mode <;> exact he'.trans he.symm

/-- `DECRYPT` uses the parsed keys, and the IV in CBC mode only. -/
theorem SameRequest.decrypt (alg : Alg) (mode : ChainMode) (enc : TextEnc)
    (hiv : mode = .cbc → s'.iv = s.iv ∧ s'.ivv = s.ivv) :
    SameEnding (exec (.decrypt alg mode enc) s) (exec (.decrypt alg mode enc) s') := by
  have hk' := h.parseKey_eq alg
  have hd' : decodeText enc s'.input = decodeText enc s.input := by rw [h.input]
  have hc' (c : List Byte) (rk : Slots Schedule) : chainDec alg mode c rk s'.iv = chainDec alg mode c rk s.iv := by
    cases mode with
    | ecb => rfl
    | cbc => rw [(hiv rfl).1]
  cases hk : s.parseKey alg with
  | error e => exact .raises (decrypt_raises_parseKey he hk) (decrypt_raises_parseKey he' (hk'.trans hk))
  | ok ks =>
    rw [hk] at hk'
    cases hd : decodeText enc s.input with
    | none => exact .raises (decrypt_raises_encoding hk he hd) (decrypt_raises_encoding hk' he' (hd'.trans hd))
    | some c =>
      rw [hd] at hd'
      by_cases hw : ¬ (0 < c.length ∧ c.length % 8 = 0) ∨ (mode = .cbc ∧ s.ivv = false)
      · have hw' := hw.imp_right fun hm => And.intro hm.1 ((hiv hm.1).2.trans hm.2)
        exact .raises (decrypt_raises_format hk hd he hw) (decrypt_raises_format hk' hd' he' hw')
      · obtain ⟨hblocks, hnoiv⟩ := not_or.mp hw
        obtain ⟨h0, h8⟩ := not_not.mp hblocks
        have hi : mode = .cbc → s.ivv = true := fun hm => Bool.eq_true_of_not_eq_false fun hv => hnoiv ⟨hm, hv⟩
        have hi' : mode = .cbc → s'.ivv = true := fun hm => (hiv hm).2.trans (hi hm)
        cases hu : unpad (chainDec alg mode c (ks.map keySchedule) s.iv) with
        | none =>
          exact .raises (decrypt_raises_padding hk hd h0 h8 hi he hu)
            (decrypt_raises_padding hk' hd' h0 h8 hi' he' (by rw [hc', hu]))
        | some r =>
          exact .emit (exec_decrypt_ok hk hd h0 h8 hi hu) (exec_decrypt_ok hk' hd' h0 h8 hi' (by rw [hc', hu]))
            (he'.trans he.symm)

end sameRequest

/-- Settles O54: each of the three commands ends alike on states that agree on the request. -/
theorem serviceIgnoresLoadedKeys : Obligations.ServiceIgnoresLoadedKeys := by
  intro s s' t i hi hkl hkt hil hin hiv hen hdr hcfg he he' ht
  have h : SameRequest s s' := ⟨hkl, hkt, hil, hin, hen, hdr, hcfg⟩
  have hend : SameEnding (exec i s) (exec i s') := by
    obtain ⟨alg, mode, enc, rfl | rfl | rfl⟩ := hi
    · exact h.encrypt he he' alg mode enc
    · exact h.decrypt he he' alg mode enc fun hm => hiv ⟨alg, enc, by rw [hm]⟩
    · exact h.genkey alg (he'.trans he.symm)
  obtain ⟨u, t', hu, ht', hout, hlen, herr⟩ := hend
  cases hu.symm.trans ht
  exact ⟨t', ht', hout, hlen, herr⟩

end Sys2Proof.Machine
end
